-- ==== Sys2Proof/Word.lean ====
section
/-! DEFINITION. The word types of the block (spec/00_scope.md R8): bytes, 16-bit ROM fields, 32-bit request words and
sequencing registers. Everything the spec calls an `Int` is computed on `Int` or `Nat` and narrowed by name. -/

namespace Sys2Proof

/-- `u8`: one byte on the bus, in a buffer or in the flash array (R8). -/
abbrev Byte := BitVec 8

/-- `u16`: a field of a geometry ROM row (R6, R13). -/
abbrev Half := BitVec 16

/-- `u32` / `i32`: a request word, an argument, a sequencing register (R14, R15, R71). -/
abbrev Word := BitVec 32

end Sys2Proof
end

