-- ==== Sys2Proof/Syntax.lean ====
section
/-! DEFINITION. The two levels of instruction (spec/30_encoding.md R70): the eleven operations a host requests (R72, R73)
and the eleven SPI commands the block sends to the chip (R85), one constructor per row of spec/opcode_table.json. -/

namespace Sys2Proof

/-- The eleven SPI commands by name (R85), without their operands. -/
inductive Command where
  | wren | rdsr | read | fastRead | pp | se | be | ce | dp | res | rdid
  deriving DecidableEq, Repr

/-- Every command, in the order of the table of R85. -/
def Command.all : List Command :=
  [.wren, .rdsr, .read, .fastRead, .pp, .se, .be, .ce, .dp, .res, .rdid]

/-- One instruction: a command with its operands, or a host operation with the request fields it reads (R73).
An address of a command is the 32-bit value handed to the framer (R125); `len` is the number of bytes received. -/
inductive Instr where
  | spiWren
  | spiRdsr
  | spiRead (a : Word) (len : Nat)
  | spiFastRead (a : Word) (len : Nat)
  | spiPp (a : Word) (data : List Byte)
  | spiSe (a : Word)
  | spiBe (a : Word)
  | spiCe
  | spiDp
  | spiRes
  | spiRdid
  | identify
  | eraseChip
  | eraseBlock (block count : Word)
  | eraseSector (sector count : Word)
  | write (address length offset : Word) (bufPresent : Bool) (bufLen : Word)
  | read (address length : Word)
  | readFast (address length : Word)
  | suspend
  | resume
  | writeEnable
  | isWriteInProgress
  deriving DecidableEq, Repr

/-- The command an instruction is, or `none` for a host operation. -/
def Instr.command : Instr → Option Command
  | .spiWren => some .wren
  | .spiRdsr => some .rdsr
  | .spiRead _ _ => some .read
  | .spiFastRead _ _ => some .fastRead
  | .spiPp _ _ => some .pp
  | .spiSe _ => some .se
  | .spiBe _ => some .be
  | .spiCe => some .ce
  | .spiDp => some .dp
  | .spiRes => some .res
  | .spiRdid => some .rdid
  | .identify => none
  | .eraseChip => none
  | .eraseBlock _ _ => none
  | .eraseSector _ _ => none
  | .write _ _ _ _ _ => none
  | .read _ _ => none
  | .readFast _ _ => none
  | .suspend => none
  | .resume => none
  | .writeEnable => none
  | .isWriteInProgress => none

/-- A request is five 32-bit words presented together (R71). -/
structure ReqWords where
  w0 : Word
  w1 : Word
  w2 : Word
  w3 : Word
  w4 : Word
  deriving DecidableEq, Repr

/-- What is encoded: the five words of a request on the host side, or the bytes of a frame on the chip side (R70). -/
inductive Code where
  | request (r : ReqWords)
  | frame (tx : List Byte)
  deriving DecidableEq, Repr

end Sys2Proof
end

