-- ==== Sys2Proof/Config.lean ====
section
/-! DEFINITION. What an implementation fixes (spec/00_scope.md R6: the opcode bytes, `FILL`, the geometry ROM) and the values the
spec leaves free. A free value is an opaque constant: it has no body, so no proof can say what it is. -/

namespace Sys2Proof

/-- One value of the transport's opaque error type (R194, U4). The block copies it and never looks inside; the number
only tells two tokens apart (log entry 8). -/
structure TransportErr where
  token : Nat
  deriving DecidableEq, Repr, Inhabited

/-- One row of `GEOM_ROM` (R6, R100). -/
structure GeomRow where
  chipIdentifier : Half
  pagesPerSector : Half
  sectorsPerBlock : Half
  blockCount : Half
  deriving DecidableEq, Repr

/-- The test variant `T64` (R6). -/
def GeomRow.t64 : GeomRow := ⟨0x0000#16, 16#16, 16#16, 64#16⟩

/-- The bytes a row describes: 256 bytes a page, and the three counts (R101). -/
def GeomRow.bytes (r : GeomRow) : Nat :=
  256 * r.pagesPerSector.toNat * r.sectorsPerBlock.toNat * r.blockCount.toNat

/-- R103: every count is at least 1 and the capacity is at most 2^24. -/
def GeomRow.wf (r : GeomRow) : Bool :=
  decide (1 ≤ r.pagesPerSector.toNat) && decide (1 ≤ r.sectorsPerBlock.toNat) &&
    decide (1 ≤ r.blockCount.toNat) && decide (r.bytes ≤ 2 ^ 24)

/-- The parameters of a built instance (R6, R7). `N_VARIANTS` is the length of `geomRom`. -/
structure Params where
  opcWren : Byte
  opcRdsr : Byte
  opcRead : Byte
  opcFastRead : Byte
  opcPp : Byte
  opcSe : Byte
  opcBe : Byte
  opcCe : Byte
  opcDp : Byte
  opcRes : Byte
  opcRdid : Byte
  fill : Byte
  geomRom : List GeomRow
  deriving DecidableEq, Repr

/-- The defaults of R6, the ones every test vector of the spec uses. The opcode bytes are no facts of the source
(R85, D10): a statement about every state holds for every other choice too (log entry 2). -/
def Params.default : Params where
  opcWren := 0x06#8
  opcRdsr := 0x05#8
  opcRead := 0x03#8
  opcFastRead := 0x0B#8
  opcPp := 0x02#8
  opcSe := 0x20#8
  opcBe := 0xD8#8
  opcCe := 0xC7#8
  opcDp := 0xB9#8
  opcRes := 0xAB#8
  opcRdid := 0x9F#8
  fill := 0x00#8
  geomRom := [GeomRow.t64]

/-- The one-byte opcode of a command (R85). -/
def Params.opcode (p : Params) : Command → Byte
  | .wren => p.opcWren
  | .rdsr => p.opcRdsr
  | .read => p.opcRead
  | .fastRead => p.opcFastRead
  | .pp => p.opcPp
  | .se => p.opcSe
  | .be => p.opcBe
  | .ce => p.opcCe
  | .dp => p.opcDp
  | .res => p.opcRes
  | .rdid => p.opcRdid

/-- `N_VARIANTS` (R6). -/
def Params.nVariants (p : Params) : Nat := p.geomRom.length

/-- What R6, R85 and R103 require of the parameters: the eleven opcodes are pairwise distinct, there are 1 to 256
variants, and every row of the ROM is well-formed. -/
def Params.wf (p : Params) : Bool :=
  decide ((Command.all.map p.opcode).Nodup) && decide (1 ≤ p.nVariants) && decide (p.nVariants ≤ 256) &&
    p.geomRom.all GeomRow.wf

/-- The registers whose contents the spec leaves unspecified at some time (R13, R17, R26). -/
inductive Hole where
  | op | argA | argB | argOff | bufPresent | bufLen
  | curAddr | stride | nLeft | bufIdx | bytesLeft
  | respCode
  | chipIdentifier | log2PageSize | pagesPerSector | sectorsPerBlock | blockCount
  | pageSize | sectorSize | blockSize | capacity
  deriving DecidableEq, Repr

/-- Free value: the unspecified contents of a register of `w` bits (R17, R26; log entries 4, 5, 6). -/
opaque Config.freeBits (w : Nat) (h : Hole) (n : Nat) : BitVec w

/-- Free value: the unspecified contents of `RESP_DATA` before the first response (R26; log entry 6). -/
opaque Config.freeData (n : Nat) : List Byte

/-- Free value: the unspecified contents of `RESP_ERR` (R26; log entry 6). -/
opaque Config.freeErr (n : Nat) : TransportErr

/-- Free value: whether transport call `n` of an unconstrained oracle fails, and with which error (R121; log entry 7). -/
opaque Config.freeFailure (n : Nat) : Option TransportErr

/-- Free value: byte `i` received in transport call `n`, where nothing says what it is (R121, U5, U6, U9; log entry 9). -/
opaque Config.freeByte (n i : Nat) : Byte

/-- Free value: byte `i` of a frame as the reference chip takes it, where the frame of transport call `n` ends before that byte (R65, R84; log entry
16). The block sends no such frame. -/
opaque Config.freeFrameByte (n i : Nat) : Byte

end Sys2Proof
end

