-- ==== Sys2Proof/WellFormed.lean ====
section
/-! DEFINITION. Which instructions an encoding can carry. A command's address fits the 24-bit field (spec/20_memory.md R41),
a read moves at least one byte (R128, R129) and a page-program carries 1 to 256 bytes (R77, R130). Every value of a
request's fields can be encoded (R71): whether the block accepts it is the validator's affair, not the encoding's. -/

namespace Sys2Proof

/-- The address fits the 24-bit field of a frame (R6 `ADDR_W`, R41). -/
def addressFits (a : Word) : Bool := decide (a.toNat < 2 ^ 24)

/-- The instruction can be encoded without losing anything. -/
def WellFormed : Instr → Bool
  | .spiWren => true
  | .spiRdsr => true
  | .spiRead a len => addressFits a && decide (1 ≤ len)
  | .spiFastRead a len => addressFits a && decide (1 ≤ len)
  | .spiPp a data => addressFits a && decide (1 ≤ data.length) && decide (data.length ≤ 256)
  | .spiSe a => addressFits a
  | .spiBe a => addressFits a
  | .spiCe => true
  | .spiDp => true
  | .spiRes => true
  | .spiRdid => true
  | .identify => true
  | .eraseChip => true
  | .eraseBlock _ _ => true
  | .eraseSector _ _ => true
  | .write _ _ _ _ _ => true
  | .read _ _ => true
  | .readFast _ _ => true
  | .suspend => true
  | .resume => true
  | .writeEnable => true
  | .isWriteInProgress => true

end Sys2Proof
end

