-- ==== Sys2Proof/Decode.lean ====
section
/-! DEFINITION. Decoding a request (spec/30_encoding.md R71 to R74) and a frame (R77, R84, R85), and the encoder written from the same
tables. The block itself decodes requests only; frames are decoded by the chip side (R70) and by readers of the trace. -/

namespace Sys2Proof

/-- Why a code is refused. -/
inductive DecodeError where
  /-- `OP` is 11 to 15 (R74) -/
  | reservedOp (op : BitVec 4)
  /-- a bit of `W0[7:4]` or `W0[31:9]` is set (R74) -/
  | reservedBits
  /-- a frame of no byte: no such frame exists (R77) -/
  | emptyFrame
  /-- the first byte is none of the eleven opcodes (R84, R86) -/
  | unknownOpcode (b : Byte)
  /-- the frame's length does not fit the command's format (R77, R82) -/
  | badLength (c : Command)
  deriving DecidableEq, Repr

/-- The operation codes of R72. -/
def OpCode.identify : BitVec 4 := 0#4
def OpCode.eraseChip : BitVec 4 := 1#4
def OpCode.eraseBlock : BitVec 4 := 2#4
def OpCode.eraseSector : BitVec 4 := 3#4
def OpCode.write : BitVec 4 := 4#4
def OpCode.read : BitVec 4 := 5#4
def OpCode.readFast : BitVec 4 := 6#4
def OpCode.suspend : BitVec 4 := 7#4
def OpCode.resume : BitVec 4 := 8#4
def OpCode.writeEnable : BitVec 4 := 9#4
def OpCode.isWriteInProgress : BitVec 4 := 10#4

/-- The fields of `W0` (R71). -/
def ReqWords.op (r : ReqWords) : BitVec 4 := r.w0.extractLsb' 0 4
def ReqWords.bufPresent (r : ReqWords) : Bool := r.w0.getLsbD 8
def ReqWords.reservedLow (r : ReqWords) : BitVec 4 := r.w0.extractLsb' 4 4
def ReqWords.reservedHigh (r : ReqWords) : BitVec 23 := r.w0.extractLsb' 9 23

/-- The operation an operation code names, with the request fields it reads (R72, R73). -/
def operationOf (r : ReqWords) : Except DecodeError Instr :=
  match r.op.toNat with
  | 0 => .ok .identify
  | 1 => .ok .eraseChip
  | 2 => .ok (.eraseBlock r.w1 r.w2)
  | 3 => .ok (.eraseSector r.w1 r.w2)
  | 4 => .ok (.write r.w1 r.w2 r.w3 r.bufPresent r.w4)
  | 5 => .ok (.read r.w1 r.w2)
  | 6 => .ok (.readFast r.w1 r.w2)
  | 7 => .ok .suspend
  | 8 => .ok .resume
  | 9 => .ok .writeEnable
  | 10 => .ok .isWriteInProgress
  | _ => .error (.reservedOp r.op)

/-- A request is refused when a reserved bit of `W0` is set or `OP` is reserved (R74). -/
def decodeRequest (r : ReqWords) : Except DecodeError Instr :=
  if r.reservedLow = 0#4 ∧ r.reservedHigh = 0#23 then operationOf r else .error .reservedBits

/-- The command whose opcode is the byte `b` (R84). -/
def commandOf (p : Params) (b : Byte) : Option Command :=
  Command.all.find? (fun c => p.opcode c == b)

/-- The address field of a frame, bytes 1 to 3, most significant first (R45); bits 31:24 of the value read are 0. -/
def addressOf (b1 b2 b3 : Byte) : Word := 0#8 ++ b1 ++ b2 ++ b3

/-- The body of a frame that is the opcode alone (R77 `FC`). -/
def decodeEmpty (c : Command) (i : Instr) : List Byte → Except DecodeError Instr
  | [] => .ok i
  | _ :: _ => .error (.badLength c)

/-- The body of a frame with an address and nothing else (R77 `FCA`). -/
def decodeAddress (c : Command) (mk : Word → Instr) : List Byte → Except DecodeError Instr
  | [b1, b2, b3] => .ok (mk (addressOf b1 b2 b3))
  | _ => .error (.badLength c)

/-- The body of a frame with an address and more bytes behind it (R77 `FCAD`, `FCAR`, `FCAXR`). -/
def decodeAddressed (c : Command) (mk : Word → List Byte → Except DecodeError Instr) :
    List Byte → Except DecodeError Instr
  | b1 :: b2 :: b3 :: more => mk (addressOf b1 b2 b3) more
  | _ => .error (.badLength c)

/-- The body of a frame of `n` bytes whose values are not looked at (R77 `FCS`, `FCI`). -/
def decodeFill (c : Command) (n : Nat) (i : Instr) (body : List Byte) : Except DecodeError Instr :=
  if body.length = n then .ok i else .error (.badLength c)

/-- The bytes after the opcode, by the command's format (R77, R84): `len = |tx| - 4` for READ, `|tx| - 6` for FAST_READ. -/
def decodeBody (c : Command) (body : List Byte) : Except DecodeError Instr :=
  match c with
  | .wren => decodeEmpty .wren .spiWren body
  | .rdsr => decodeFill .rdsr 1 .spiRdsr body
  | .read => decodeAddressed .read (fun a more =>
      if 1 ≤ more.length then .ok (.spiRead a more.length) else .error (.badLength .read)) body
  | .fastRead => decodeAddressed .fastRead (fun a more =>
      if 3 ≤ more.length then .ok (.spiFastRead a (more.length - 2)) else .error (.badLength .fastRead)) body
  | .pp => decodeAddressed .pp (fun a more =>
      if 1 ≤ more.length ∧ more.length ≤ 256 then .ok (.spiPp a more) else .error (.badLength .pp)) body
  | .se => decodeAddress .se .spiSe body
  | .be => decodeAddress .be .spiBe body
  | .ce => decodeEmpty .ce .spiCe body
  | .dp => decodeEmpty .dp .spiDp body
  | .res => decodeEmpty .res .spiRes body
  | .rdid => decodeFill .rdid 3 .spiRdid body

/-- Decoding a frame: the first byte names the command, its format reads the rest (R84). -/
def decodeFrame (p : Params) : List Byte → Except DecodeError Instr
  | [] => .error .emptyFrame
  | b :: body =>
    match commandOf p b with
    | none => .error (.unknownOpcode b)
    | some c => decodeBody c body

/-- Decoding either level (R70). -/
def decode (p : Params) : Code → Except DecodeError Instr
  | .request r => decodeRequest r
  | .frame tx => decodeFrame p tx

/-- `W0` of a request: the operation code, and `BUF_PRESENT` in bit 8; every other bit 0 (R71). -/
def requestWord0 (op : BitVec 4) (bufPresent : Bool) : Word :=
  0#23 ++ BitVec.ofBool bufPresent ++ 0#4 ++ op

/-- The three address bytes of a frame, `a[23:16]`, `a[15:8]`, `a[7:0]` (R77). -/
def addressField (a : Word) : List Byte :=
  [a.extractLsb' 16 8, a.extractLsb' 8 8, a.extractLsb' 0 8]

/-- The words of a request, ignored fields written as 0 (R89), and the bytes of a frame (R77). -/
def encode (p : Params) : Instr → Code
  | .spiWren => .frame [p.opcode .wren]
  | .spiRdsr => .frame [p.opcode .rdsr, p.fill]
  | .spiRead a len => .frame (p.opcode .read :: (addressField a ++ List.replicate len p.fill))
  | .spiFastRead a len => .frame (p.opcode .fastRead :: (addressField a ++ List.replicate (2 + len) p.fill))
  | .spiPp a data => .frame (p.opcode .pp :: (addressField a ++ data))
  | .spiSe a => .frame (p.opcode .se :: addressField a)
  | .spiBe a => .frame (p.opcode .be :: addressField a)
  | .spiCe => .frame [p.opcode .ce]
  | .spiDp => .frame [p.opcode .dp]
  | .spiRes => .frame [p.opcode .res]
  | .spiRdid => .frame [p.opcode .rdid, p.fill, p.fill, p.fill]
  | .identify => .request ⟨requestWord0 OpCode.identify false, 0, 0, 0, 0⟩
  | .eraseChip => .request ⟨requestWord0 OpCode.eraseChip false, 0, 0, 0, 0⟩
  | .eraseBlock b n => .request ⟨requestWord0 OpCode.eraseBlock false, b, n, 0, 0⟩
  | .eraseSector x n => .request ⟨requestWord0 OpCode.eraseSector false, x, n, 0, 0⟩
  | .write a n off bp bl => .request ⟨requestWord0 OpCode.write bp, a, n, off, bl⟩
  | .read a n => .request ⟨requestWord0 OpCode.read false, a, n, 0, 0⟩
  | .readFast a n => .request ⟨requestWord0 OpCode.readFast false, a, n, 0, 0⟩
  | .suspend => .request ⟨requestWord0 OpCode.suspend false, 0, 0, 0, 0⟩
  | .resume => .request ⟨requestWord0 OpCode.resume false, 0, 0, 0, 0⟩
  | .writeEnable => .request ⟨requestWord0 OpCode.writeEnable false, 0, 0, 0, 0⟩
  | .isWriteInProgress => .request ⟨requestWord0 OpCode.isWriteInProgress false, 0, 0, 0, 0⟩

/-- The fewest bytes that follow the opcode in a frame of the command (R77). -/
def bodyBytes : Command → Nat
  | .wren => 0
  | .rdsr => 1
  | .read => 4
  | .fastRead => 6
  | .pp => 4
  | .se => 3
  | .be => 3
  | .ce => 0
  | .dp => 0
  | .res => 0
  | .rdid => 3

/-- The five request words of a number whose bits 31..0 are `W0`, 63..32 `W1` and so on (R71). -/
def ReqWords.ofNat (w : Nat) : ReqWords :=
  ⟨BitVec.ofNat 32 w, BitVec.ofNat 32 (w >>> 32), BitVec.ofNat 32 (w >>> 64), BitVec.ofNat 32 (w >>> 96),
    BitVec.ofNat 32 (w >>> 128)⟩

/-- The frame a row of the opcode table stands for: the opcode byte, then zero bytes up to the shortest frame of that
command's format (log entry 19). -/
def tableFrame (p : Params) (b : Byte) : List Byte :=
  match commandOf p b with
  | none => [b]
  | some c => b :: List.replicate (bodyBytes c) 0#8

/-- The instruction read from the bits `w` of a row of spec/opcode_table.json: a frame row has 8 bits (its first byte), a
request row 32 (its word `W0`, the other words 0). The opcodes are the table's, the defaults of R6. -/
def decodeTableWord (nbits w : Nat) : Option Instr :=
  if nbits ≤ 8 then
    match decodeFrame Params.default (tableFrame Params.default (BitVec.ofNat 8 w)) with
    | .ok i => some i
    | .error _ => none
  else
    match decodeRequest (ReqWords.ofNat w) with
    | .ok i => some i
    | .error _ => none

end Sys2Proof
end

