-- ==== Sys2Proof/Machine/Geometry.lean ====
section
/-! DEFINITION. The geometry ROM (spec/40_geometry_validator.md R100 to R104) and the configuration status (spec/10_state.md R12). -/

namespace Sys2Proof.Machine

/-- The geometry record `GEOM` (R13): five fields of the ROM and four derived sizes, exact integers. -/
structure Geom where
  chipIdentifier : Half
  log2PageSize : Byte
  pagesPerSector : Half
  sectorsPerBlock : Half
  blockCount : Half
  pageSize : Nat
  sectorSize : Nat
  blockSize : Nat
  capacity : Nat
  deriving DecidableEq, Repr

/-- The configuration status (R12, R76). -/
inductive CfgStatus where
  | cfgOk | nullTransport | unsupportedChipVariant
  deriving DecidableEq, Repr

/-- Its encoding on the two-bit output (R76); 3 is never produced. -/
def CfgStatus.code : CfgStatus → BitVec 2
  | .cfgOk => 0#2
  | .nullTransport => 1#2
  | .unsupportedChipVariant => 2#2

/-- `log2PageSize` is 8 for every variant (R100, R102). -/
def fixedLog2PageSize : Byte := 8#8

/-- The record looked up and the sizes derived from it, exactly (R100, R101). -/
def Geom.ofRow (r : GeomRow) : Geom where
  chipIdentifier := r.chipIdentifier
  log2PageSize := fixedLog2PageSize
  pagesPerSector := r.pagesPerSector
  sectorsPerBlock := r.sectorsPerBlock
  blockCount := r.blockCount
  pageSize := 2 ^ fixedLog2PageSize.toNat
  sectorSize := 2 ^ fixedLog2PageSize.toNat * r.pagesPerSector.toNat
  blockSize := 2 ^ fixedLog2PageSize.toNat * r.pagesPerSector.toNat * r.sectorsPerBlock.toNat
  capacity := 2 ^ fixedLog2PageSize.toNat * r.pagesPerSector.toNat * r.sectorsPerBlock.toNat * r.blockCount.toNat

/-- `GeomLookup` (R100): `none` is `UnsupportedChipVariant` (R104). -/
def geomLookup (p : Params) (variant : Byte) : Option Geom :=
  (p.geomRom[variant.toNat]?).map Geom.ofRow

/-- `CFG_STATUS`, computed once at reset; the transport is tested first (R12, R195, R196). -/
def cfgStatusOf (p : Params) (variant : Byte) (transportPresent : Bool) : CfgStatus :=
  if transportPresent = false then .nullTransport
  else if p.nVariants ≤ variant.toNat then .unsupportedChipVariant
  else .cfgOk

/-- The unspecified contents of `GEOM` in a bad configuration (R13, R26, U15; log entry 5). -/
def Geom.unspecified (n : Nat) : Geom where
  chipIdentifier := Config.freeBits 16 .chipIdentifier n
  log2PageSize := Config.freeBits 8 .log2PageSize n
  pagesPerSector := Config.freeBits 16 .pagesPerSector n
  sectorsPerBlock := Config.freeBits 16 .sectorsPerBlock n
  blockCount := Config.freeBits 16 .blockCount n
  pageSize := (Config.freeBits 9 .pageSize n).toNat
  sectorSize := (Config.freeBits 25 .sectorSize n).toNat
  blockSize := (Config.freeBits 25 .blockSize n).toNat
  capacity := (Config.freeBits 25 .capacity n).toNat

/-- `GEOM` after a reset that samples `variant` (R13, R220). -/
def geomAtReset (p : Params) (variant : Byte) (transportPresent : Bool) (n : Nat) : Geom :=
  match transportPresent, geomLookup p variant with
  | true, some g => g
  | _, _ => Geom.unspecified n

end Sys2Proof.Machine
end

