-- ==== Sys2Proof/Machine/Memory.lean ====
section
/-! DEFINITION. Byte spaces (spec/20_memory.md R40): the host's payload buffer and the flash array of the reference chip. A memory is a
list of (address, byte) cells in one canonical form: addresses strictly rising, no cell equal to what an unlisted
address reads as. -/

namespace Sys2Proof.Machine

/-- A byte space: its listed cells. -/
abbrev Memory := List Host.Cell

/-- What an unlisted address reads as: the erased byte of R66 (log entries 14 and 16). -/
def Memory.unlisted : Byte := 0xFF#8

/-- The byte at address `a` (R42 `BufRead`, R8 `MemRead`). -/
def Memory.read : Memory → Nat → Byte
  | [], _ => Memory.unlisted
  | cell :: rest, a => if cell.1 = a then cell.2 else Memory.read rest a

/-- A cell for `b` at `a`, or nothing when `a` would read as `b` without it. -/
def Memory.cell (a : Nat) (b : Byte) : Memory := if b = Memory.unlisted then [] else [(a, b)]

/-- Storing `b` at `a`; the canonical form is kept. -/
def Memory.write : Memory → Nat → Byte → Memory
  | [], a, b => Memory.cell a b
  | c :: rest, a, b =>
    if a < c.1 then Memory.cell a b ++ (c :: rest)
    else if a = c.1 then Memory.cell a b ++ rest
    else c :: Memory.write rest a b

/-- The `n` bytes from address `a` on. -/
def Memory.readRange (m : Memory) (a n : Nat) : List Byte :=
  (List.range n).map (fun j => m.read (a + j))

/-- Setting every byte of `lo .. hi - 1` to the unlisted (erased) value. -/
def Memory.eraseRange (m : Memory) (lo hi : Nat) : Memory :=
  m.filter (fun c => decide (c.1 < lo) || decide (hi ≤ c.1))

/-- A memory that holds the bytes `bs` from address `a` on and nothing else. -/
def Memory.ofBytes : Nat → List Byte → Memory
  | _, [] => []
  | a, b :: bs => Memory.cell a b ++ Memory.ofBytes (a + 1) bs

/-- The canonical form. -/
def Memory.wf (m : Memory) : Bool :=
  decide (m.Pairwise (fun c d => c.1 < d.1)) && m.all (fun c => decide (c.2 ≠ Memory.unlisted))

end Sys2Proof.Machine
end

