-- ==== Sys2Proof/Machine/Chip.lean ====
section
/-! DEFINITION. The informative reference chip (spec/20_memory.md R64 to R66, D26): one oracle among all, under which the programs of the
spec have an end state. It is no part of the block; log entry 16 says what it fixes. -/

namespace Sys2Proof.Machine

/-- The effect of a mutating command in flight (R64 `pending`, R66). -/
inductive ChipEffect where
  | program (a : Nat) (data : List Byte)
  | eraseSector (a : Nat)
  | eraseBlock (a : Nat)
  | eraseAll
  deriving DecidableEq, Repr

/-- The state of the reference chip (R64). Its geometry is its own: the block never checks that the two agree (R54). -/
structure Chip where
  geom : Geom
  mem : Memory
  wel : Bool
  busy : Bool
  pending : Option ChipEffect
  busyReadsLeft : Nat
  dpd : Bool
  d : Nat
  id0 : Byte
  id1 : Byte
  id2 : Byte
  deriving DecidableEq, Repr

/-- Where byte `j` of a page-program at `a` lands: inside the page that holds `a` (R66). -/
def Chip.programAddress (g : Geom) (a j : Nat) : Nat :=
  a - a % g.pageSize + (a + j) % g.pageSize

/-- Storing the bytes of a page-program, from position `j` on, later bytes over earlier ones (R66). -/
def Chip.programBytes (g : Geom) (a : Nat) : Nat → List Byte → Memory → Memory
  | _, [], m => m
  | j, b :: bs, m => Chip.programBytes g a (j + 1) bs (m.write (Chip.programAddress g a j) b)

/-- The effects on the array (R66). -/
def Chip.apply (g : Geom) (m : Memory) : ChipEffect → Memory
  | .program a data => Chip.programBytes g a 0 data m
  | .eraseSector a => m.eraseRange (a - a % g.sectorSize) (a - a % g.sectorSize + g.sectorSize)
  | .eraseBlock a => m.eraseRange (a - a % g.blockSize) (a - a % g.blockSize + g.blockSize)
  | .eraseAll => m.eraseRange 0 g.capacity

/-- `complete()` (R65). -/
def Chip.complete (c : Chip) : Chip :=
  { c with
    mem := match c.pending with
      | some e => Chip.apply c.geom c.mem e
      | none => c.mem
    pending := none, busy := false, wel := false }

/-- What a status read does before bit 0 is sampled (R65). -/
def Chip.tick (c : Chip) : Chip :=
  if c.busy && c.busyReadsLeft == 0 then c.complete
  else if c.busy then { c with busyReadsLeft := c.busyReadsLeft - 1 }
  else c

/-- A mutating command: ignored when busy or without the write-enable latch (R65). -/
def Chip.start (e : ChipEffect) (c : Chip) : Chip :=
  if c.busy || !c.wel then c
  else { c with busy := true, busyReadsLeft := c.d, pending := some e }

/-- Received bytes made as many as were sent (R121 `|rx| = |tx|`): a byte nothing is said about is a free value, a byte beyond the frame is dropped
(log entries 9 and 16). -/
def fitBytes (call n : Nat) (rx : List Byte) : List Byte :=
  (List.range n).map (fun i => rx.getD i (Config.freeByte call i))

/-- `n` received bytes nothing is said about (R65 "arbitrary"). -/
def freeBytes (call n : Nat) : List Byte := (List.range n).map (Config.freeByte call)

/-- A status byte: bits 7:1 arbitrary, bit 0 the busy bit (R65). -/
def Chip.statusByte (call : Nat) (busy : Bool) : Byte :=
  (Config.freeByte call 1).extractLsb' 1 7 ++ BitVec.ofBool busy

/-- The bytes a data read answers with (R65). -/
def Chip.dataBytes (c : Chip) (a n : Nat) : List Byte :=
  (List.range n).map (fun j => c.mem.read ((a + j) % c.geom.capacity))

/-- Byte `i` of a frame as the chip takes it. -/
def Chip.frameByte (call : Nat) (tx : List Byte) (i : Nat) : Byte := tx.getD i (Config.freeFrameByte call i)

/-- The 24-bit address in bytes 1 to 3 of a frame (R65, R84). -/
def Chip.frameAddress (call : Nat) (tx : List Byte) : Nat :=
  (addressOf (Chip.frameByte call tx 1) (Chip.frameByte call tx 2) (Chip.frameByte call tx 3)).toNat

/-- The effect of a transport call that transmits `tx`, whose first byte is the opcode of the command, on a chip that hears it (R65): the received bytes
R65 says something about with those before them, and the chip afterwards. A frame of any length has it: the address is in bytes 1 to 3, the data
of a page-program is every byte from index 4 on (R84). -/
def Chip.perform (call : Nat) (tx : List Byte) (c : Chip) : Command → List Byte × Chip
  | .wren => ([], if c.busy then c else { c with wel := true })
  | .rdsr => (freeBytes call 1 ++ [Chip.statusByte call c.tick.busy], c.tick)
  | .read => (freeBytes call 4 ++ c.dataBytes (Chip.frameAddress call tx) (tx.length - 4), c)
  | .fastRead => (freeBytes call 6 ++ c.dataBytes (Chip.frameAddress call tx) (tx.length - 6), c)
  | .pp => ([], c.start (.program (Chip.frameAddress call tx) (tx.drop 4)))
  | .se => ([], c.start (.eraseSector (Chip.frameAddress call tx)))
  | .be => ([], c.start (.eraseBlock (Chip.frameAddress call tx)))
  | .ce => ([], c.start .eraseAll)
  | .dp => ([], { c with dpd := true })
  | .res => ([], { c with dpd := false })
  | .rdid => (freeBytes call 1 ++ [c.id0, c.id1, c.id2], c)

/-- The command a chip hears in a frame, by its first byte alone (R65, R84): none when that is no opcode, and none but the release in deep power-down. -/
def Chip.hears (p : Params) (c : Chip) (tx : List Byte) : Option Command :=
  match tx.head?.bind (commandOf p) with
  | none => none
  | some cmd => if c.dpd && cmd != .res then none else some cmd

/-- The reference chip's answer to a transport call (R65). What it does not hear has no effect and is answered arbitrarily. -/
def Chip.answer (p : Params) (call : Nat) (tx : List Byte) (c : Chip) : List Byte × Chip :=
  match c.hears p tx with
  | none => (freeBytes call tx.length, c)
  | some cmd => (fitBytes call tx.length (c.perform call tx cmd).1, (c.perform call tx cmd).2)

end Sys2Proof.Machine
end

