-- ==== Sys2Proof/Machine/Transport.lean ====
section
/-! DEFINITION. The transport's two primitives as the block sees them (spec/41_framer_transport_poll.md R120 to R122), the trace events
they leave (spec/10_state.md R25), and the oracle that answers them (R9, R11). -/

namespace Sys2Proof.Machine

/-- Which primitive carries a frame (R83): `Send` or `Xchg`. -/
inductive CallKind where
  | send | xchg
  deriving DecidableEq, Repr

/-- The answer to a transport call (R120, R121). The bytes of `ok` are lost when the call is a `Send`. -/
inductive Reply where
  | ok (rx : List Byte)
  | err (e : TransportErr)
  deriving DecidableEq, Repr

/-- A transport event of the trace (R25). -/
inductive Event where
  | sendOnly (tx : List Byte)
  | sendOnlyErr (tx : List Byte) (e : TransportErr)
  | exchange (tx rx : List Byte)
  | exchangeErr (tx : List Byte) (e : TransportErr)
  deriving DecidableEq, Repr

/-- The event a call leaves in the trace (R120, R121). -/
def Event.ofCall (k : CallKind) (tx : List Byte) : Reply → Event
  | .ok rx => match k with
    | .send => .sendOnly tx
    | .xchg => .exchange tx rx
  | .err e => match k with
    | .send => .sendOnlyErr tx e
    | .xchg => .exchangeErr tx e

/-- A planned failure of a call to the reference chip: the error, and the state the chip is left in, which can be any
(U3); `none` means the call did not reach the chip. -/
structure Failure where
  err : TransportErr
  left : Option Chip
  deriving DecidableEq, Repr

/-- What answers the transport calls (R9 "oracle"). -/
inductive Oracle where
  /-- the answers to the next calls; when they run out, every answer is a free value -/
  | script (answers : List Reply)
  /-- the reference chip; `plan` says which of the next calls fail, and when it runs out every call succeeds -/
  | chip (c : Chip) (plan : List (Option Failure))
  deriving DecidableEq, Repr

/-- The answer of an unconstrained oracle (R121). -/
def freeReply (call : Nat) (tx : List Byte) : Reply :=
  match Config.freeFailure call with
  | some e => .err e
  | none => .ok (freeBytes call tx.length)

/-- A scripted answer with as many received bytes as were sent (R121 `|rx| = |tx|`): a byte the script does not give is a
free value, a byte beyond the frame is dropped (log entry 9). -/
def Reply.fit (call : Nat) (tx : List Byte) : Reply → Reply
  | .ok rx => .ok (fitBytes call tx.length rx)
  | .err e => .err e

/-- The oracle's answer to call number `call`, which transmits `tx`, and the oracle afterwards. -/
def Oracle.answer (p : Params) (call : Nat) (tx : List Byte) : Oracle → Reply × Oracle
  | .script [] => (freeReply call tx, .script [])
  | .script (a :: rest) => (a.fit call tx, .script rest)
  | .chip c [] => (.ok (c.answer p call tx).1, .chip (c.answer p call tx).2 [])
  | .chip c (none :: plan) => (.ok (c.answer p call tx).1, .chip (c.answer p call tx).2 plan)
  | .chip c (some f :: plan) => (.err f.err, .chip (f.left.getD c) plan)

/-- The flash array behind the oracle, where the oracle is the reference chip. -/
def Oracle.flash : Oracle → Memory
  | .script _ => []
  | .chip c _ => c.mem

end Sys2Proof.Machine
end

