-- ==== Sys2Proof/Machine/State.lean ====
section
/-! DEFINITION. The state of the machine (spec/10_state.md): the block's registers, and as plain data the world it acts on: the host's
requests and payload buffer, the oracle, the reset input. INVENTORY.md lists every field with its rule. -/

namespace Sys2Proof.Machine

/-- Where the operation in flight stands (R18). -/
inductive Phase where
  | idle | prePoll | wren | issue | postPoll | xfer
  deriving DecidableEq, Repr

/-- The three-bit value of `PHASE` (R18); 6 and 7 are never taken. -/
def Phase.code : Phase → BitVec 3
  | .idle => 0#3
  | .prePoll => 1#3
  | .wren => 2#3
  | .issue => 3#3
  | .postPoll => 4#3
  | .xfer => 5#3

/-- The request latch (R14). -/
structure Latch where
  op : BitVec 4
  argA : Word
  argB : Word
  argOff : Word
  bufPresent : Bool
  bufLen : Word
  deriving DecidableEq, Repr

/-- The sequencing registers (R15). -/
structure Seq where
  curAddr : Word
  stride : Word
  nLeft : Word
  bufIdx : Word
  bytesLeft : Word
  deriving DecidableEq, Repr

/-- The response registers `RESP_CODE`, `RESP_DATA`, `RESP_ERR` (R24). -/
structure Response where
  code : BitVec 3
  data : List Byte
  err : TransportErr
  deriving DecidableEq, Repr

/-- A request as the host presents it: the five words and the payload buffer attached (R42, R71). -/
structure Request where
  words : ReqWords
  payload : Memory
  deriving DecidableEq, Repr

/-- The two strap inputs a reset samples (R12, R220). -/
structure Straps where
  variant : Byte
  transportPresent : Bool
  deriving DecidableEq, Repr

/-- The machine. -/
structure State where
  /-- the configuration of the built instance (R6); no step writes it -/
  params : Params
  /-- `VARIANT` (R12) -/
  variant : Byte
  /-- `TRANSPORT_PRESENT` (R12) -/
  transportPresent : Bool
  /-- `CFG_STATUS` (R12) -/
  cfgStatus : CfgStatus
  /-- `GEOM` (R13) -/
  geom : Geom
  /-- `PHASE` (R18) -/
  phase : Phase
  /-- `OP`, `ARG_A`, `ARG_B`, `ARG_OFF`, `BUF_PRESENT`, `BUF_LEN` (R14) -/
  latch : Latch
  /-- `CUR_ADDR`, `STRIDE`, `N_LEFT`, `BUF_IDX`, `BYTES_LEFT` (R15) -/
  seq : Seq
  /-- `RESP_CODE`, `RESP_DATA`, `RESP_ERR` (R24) -/
  resp : Response
  /-- `TRACE` (R25), oldest event first -/
  trace : List Event
  /-- input: the requests the host has still to present, in order (R89) -/
  requests : List Request
  /-- input: the payload buffer the host attached to the request in flight (R42) -/
  payload : Memory
  /-- input: what answers the transport calls (R9, R11) -/
  oracle : Oracle
  /-- input: the reset line with its straps, when asserted (R220) -/
  resetIn : Option Straps
  /-- bookkeeping: how many requests were accepted since reset -/
  accepted : Nat
  /-- bookkeeping: the responses delivered since reset, oldest first (R24) -/
  responses : List Response
  /-- bookkeeping: the index of the next free value -/
  freeCtr : Nat
  deriving DecidableEq, Repr

/-- Why the machine stops. No error of the spec is here: those are responses, and next states (R190). -/
inductive Fault where
  /-- raised by the selection of the next command (Fetch.lean): `PHASE` and `OP` name no command (R19 gives the phase no
  step for that operation). Safe: no state that keeps the invariant raises it (log entry 13). -/
  | noCommandInPhase
  /-- raised by the selection of the next command (Fetch.lean): a payload index at or above `BUF_LEN`, which does not
  exist (R42). Safe: no state that keeps the invariant raises it (log entry 13). -/
  | payloadIndexOutOfRange
  deriving DecidableEq, Repr

/-- Why an instruction has no meaning. -/
inductive Refusal where
  /-- raised by exec's arm for an instruction not modelled yet; no arm does. Safe. -/
  | notModelled (mnemonic : String)
  deriving DecidableEq, Repr

/-- The unspecified contents of the request latch after a reset (R17, R26; log entry 4). -/
def Latch.unspecified (n : Nat) : Latch where
  op := Config.freeBits 4 .op n
  argA := Config.freeBits 32 .argA n
  argB := Config.freeBits 32 .argB n
  argOff := Config.freeBits 32 .argOff n
  bufPresent := (Config.freeBits 1 .bufPresent n).getLsbD 0
  bufLen := Config.freeBits 32 .bufLen n

/-- The unspecified contents of the sequencing registers after a reset (R17, R26; log entry 4). -/
def Seq.unspecified (n : Nat) : Seq where
  curAddr := Config.freeBits 32 .curAddr n
  stride := Config.freeBits 32 .stride n
  nLeft := Config.freeBits 32 .nLeft n
  bufIdx := Config.freeBits 32 .bufIdx n
  bytesLeft := Config.freeBits 32 .bytesLeft n

/-- The unspecified contents of the response registers after a reset (R26; log entry 6). -/
def Response.unspecified (n : Nat) : Response where
  code := Config.freeBits 3 .respCode n
  data := Config.freeData n
  err := Config.freeErr n

/-- The state after a reset that samples `straps` (R26, R220 to R222): no transport call is made, and the world outside
(requests, payload buffer, oracle) is as it was. `n` is the index of the next free value. -/
def State.boot (p : Params) (straps : Straps) (n : Nat) (requests : List Request) (payload : Memory)
    (oracle : Oracle) : State where
  params := p
  variant := straps.variant
  transportPresent := straps.transportPresent
  cfgStatus := cfgStatusOf p straps.variant straps.transportPresent
  geom := geomAtReset p straps.variant straps.transportPresent n
  phase := .idle
  latch := Latch.unspecified n
  seq := Seq.unspecified n
  resp := Response.unspecified n
  trace := []
  requests := requests
  payload := payload
  oracle := oracle
  resetIn := none
  accepted := 0
  responses := []
  freeCtr := n + 1

/-- The machine right after reset, with the default parameters of R6, the straps `VARIANT` = 0 and `TRANSPORT_PRESENT` = 1
(log entry 3), no request presented and an unconstrained oracle. -/
def State.reset : State :=
  State.boot Params.default ⟨0#8, true⟩ 0 [] [] (.script [])

def State.setPhase (s : State) (ph : Phase) : State := { s with phase := ph }
def State.setLatch (s : State) (l : Latch) : State := { s with latch := l }
def State.setSeq (s : State) (q : Seq) : State := { s with seq := q }
def State.setRequests (s : State) (rs : List Request) : State := { s with requests := rs }
def State.setPayload (s : State) (m : Memory) : State := { s with payload := m }
def State.setResetIn (s : State) (r : Option Straps) : State := { s with resetIn := r }

/-- One more request has been accepted. -/
def State.countAccept (s : State) : State := { s with accepted := s.accepted + 1 }

/-- A transport call has left `ev` in the trace and the oracle as `o` (R25). -/
def State.recordCall (s : State) (o : Oracle) (ev : Event) : State :=
  { s with oracle := o, trace := s.trace ++ [ev], freeCtr := s.freeCtr + 1 }

/-- The response `r` is delivered: the response registers hold it (R24, D27). -/
def State.recordResponse (s : State) (r : Response) : State :=
  { s with resp := r, responses := s.responses ++ [r], freeCtr := s.freeCtr + 1 }

end Sys2Proof.Machine
end

