-- ==== Sys2Proof/Machine/Operands.lean ====
section
/-! DEFINITION. Operand forms: the two readings of a 32-bit argument (spec/00_scope.md R8, spec/30_encoding.md R71), the framer
(spec/41_framer_transport_poll.md R124, R125) and the frames of the seven formats (spec/30_encoding.md R77), the bytes a command takes
from an exchange (R81), and the payload chunk of a page-program (spec/44_ops_write.md R170, R171). -/

namespace Sys2Proof.Machine

/-- `sext_32` (R8): a 32-bit argument read as two's complement. -/
def sext (w : Word) : Int := w.toInt

/-- `zext_32` (R8): a 32-bit word read as unsigned. -/
def zext (w : Word) : Nat := w.toNat

/-- `Frame1` (R124). -/
def frame1 (opc : Byte) : List Byte := [opc]

/-- `Frame4` (R125): the opcode, then the address bytes at bit offsets 16, 8, 0; bits 31:24 are dropped (R78). -/
def frame4 (opc : Byte) (a : Word) : List Byte :=
  [opc, (a >>> 16).setWidth 8, (a >>> 8).setWidth 8, a.setWidth 8]

/-- `rep(FILL, n)` (R80). -/
def fillBytes (p : Params) (n : Nat) : List Byte := List.replicate n p.fill

/-- The frames the eleven commands transmit (R126 to R136). -/
def frameWren (p : Params) : List Byte := frame1 p.opcWren
def frameRdsr (p : Params) : List Byte := frame1 p.opcRdsr ++ fillBytes p 1
def frameRead (p : Params) (a : Word) (len : Nat) : List Byte := frame4 p.opcRead a ++ fillBytes p len
def frameFastRead (p : Params) (a : Word) (len : Nat) : List Byte :=
  frame4 p.opcFastRead a ++ fillBytes p 2 ++ fillBytes p len
def framePp (p : Params) (a : Word) (data : List Byte) : List Byte := frame4 p.opcPp a ++ data
def frameSe (p : Params) (a : Word) : List Byte := frame4 p.opcSe a
def frameBe (p : Params) (a : Word) : List Byte := frame4 p.opcBe a
def frameCe (p : Params) : List Byte := frame1 p.opcCe
def frameDp (p : Params) : List Byte := frame1 p.opcDp
def frameRes (p : Params) : List Byte := frame1 p.opcRes
def frameRdid (p : Params) : List Byte := frame1 p.opcRdid ++ fillBytes p 3

/-- `rx[i ..< i+n]`: the bytes received after the don't-care positions (R81). -/
def received (rx : List Byte) (i n : Nat) : List Byte := (rx.drop i).take n

/-- The status byte of a status read, `rx[1]` (R127, R137). An exchange has it: `|rx| = |tx| = 2` (R121). -/
def statusOf (rx : List Byte) : Byte := rx.getD 1 0#8

/-- `n = min(BYTES_LEFT, pageSize)` (R170). -/
def chunkLength (s : State) : Nat := min (zext s.seq.bytesLeft) s.geom.pageSize

/-- `[BufRead(BUF_IDX), ..., BufRead(BUF_IDX+n-1)]` (R170). -/
def chunkData (s : State) : List Byte := s.payload.readRange (zext s.seq.bufIdx) (chunkLength s)

end Sys2Proof.Machine
end

