-- ==== Sys2Proof/Machine/Flags.lean ====
section
/-! DEFINITION. The one-bit conditions of the block: `REQ_READY` (spec/10_state.md R21), the busy predicate (spec/41_framer_transport_poll.md R138), the
checks of the validator (spec/40_geometry_validator.md R105 to R111), and what the host may read at any time (spec/10_state.md R27).
No flag is stored (R22). -/

namespace Sys2Proof.Machine

/-- `REQ_READY` (R21). -/
def reqReady (s : State) : Bool := decide (s.phase = .idle) && decide (s.cfgStatus = .cfgOk)

/-- `Busy(s) = (s[0] = 1)`; bits 7:1 are not looked at (R138). -/
def busy (status : Byte) : Bool := status.getLsbD 0

/-- `[zext_8(s[0])]`, the answer of `isWriteInProgress` (R151). -/
def busyByte (status : Byte) : Byte := (status.extractLsb' 0 1).setWidth 8

/-- The range check of `read` and `readFast`, on exact integers (R106, R107). -/
def readInRange (g : Geom) (address length : Word) : Bool :=
  decide (0 ≤ sext address) && decide (0 < sext length) && decide (sext address + sext length ≤ g.capacity)

/-- The range check of `write` (R108), after the buffer is known to be present. -/
def writeInRange (g : Geom) (address length offset bufLen : Word) : Bool :=
  decide (0 ≤ sext address) && decide (0 ≤ sext offset) && decide (0 < sext length) &&
    decide (sext address + sext length ≤ g.capacity) && decide (sext offset + sext length ≤ zext bufLen)

/-- The range check of `eraseBlock` (R109). -/
def eraseBlockInRange (g : Geom) (block count : Word) : Bool :=
  decide (0 ≤ sext block) && decide (0 < sext count) && decide (sext block + sext count ≤ (g.blockCount.toNat : Int))

/-- The range check of `eraseSector` (R110). -/
def eraseSectorInRange (g : Geom) (sector count : Word) : Bool :=
  decide (0 ≤ sext sector) && decide (0 < sext count) &&
    decide ((sext sector + sext count) * g.sectorSize ≤ g.capacity)

/-- What the host reads as `CFG_STATUS`, at any time and without a request (R27). -/
def hostReadStatus (s : State) : BitVec 2 := s.cfgStatus.code

/-- What the host reads as `GEOM`: every field when the configuration is good, nothing otherwise (R27). -/
def hostReadGeom (s : State) : Option Geom := if s.cfgStatus = .cfgOk then some s.geom else none

end Sys2Proof.Machine
end

