-- ==== Sys2Proof/Machine/Ops.lean ====
section
/-! DEFINITION. The shared operations: delivering a response, raising an error (the analogue of taking an exception, spec/60_exceptions.md R190 to
R200), accepting a request (spec/10_state.md R19 step ACCEPT) and making a transport call (spec/41_framer_transport_poll.md R120, R121). -/

namespace Sys2Proof.Machine

/-- What a step of the machine answers. -/
abbrev Result := Host.Outcome State Fault Refusal

/-- The response codes of R75; 5 to 7 are never produced. -/
inductive RespCode where
  | ok | invalidRange | nullBuffer | transportError | illegalRequest
  deriving DecidableEq, Repr

/-- Their numbers (R75). -/
def RespCode.code : RespCode → BitVec 3
  | .ok => 0#3
  | .invalidRange => 1#3
  | .nullBuffer => 2#3
  | .transportError => 3#3
  | .illegalRequest => 4#3

/-- The response registers after a response that is no `TransportError`: `RESP_ERR` is unspecified (R26; log entry 6). -/
def plainResponse (code : RespCode) (data : List Byte) (s : State) : Response :=
  ⟨code.code, data, Config.freeErr s.freeCtr⟩

/-- Delivering a response ends the operation: `PHASE <- IDLE` (R24, R199). -/
def deliver (r : Response) (s : State) : State := (s.recordResponse r).setPhase .idle

/-- `respond OK(data)` (R8). -/
def respondOk (data : List Byte) (s : State) : State := deliver (plainResponse .ok data s) s

/-- `raise E` for an error found at ACCEPT: no data, nothing saved, no vector (R190, R199). There is no return from it: the next
request is treated like a first one (R201). -/
def raise (code : RespCode) (s : State) : State := deliver (plainResponse code [] s) s

/-- `raise TransportError(e)`: `RESP_ERR` holds `e` unchanged (R194). -/
def raiseTransport (e : TransportErr) (s : State) : State :=
  deliver ⟨RespCode.transportError.code, [], e⟩ s

/-- One transport call: the oracle's answer, and the event in the trace (R120, R121). -/
def transportCall (k : CallKind) (tx : List Byte) (s : State) : Reply × State :=
  ((s.oracle.answer s.params s.freeCtr tx).1,
    s.recordCall (s.oracle.answer s.params s.freeCtr tx).2
      (Event.ofCall k tx (s.oracle.answer s.params s.freeCtr tx).1))

/-- What follows a transport call: the command's own continuation, or `TransportError` and nothing more (R19, R194). -/
def afterCall (onOk : List Byte → State → State) (r : Reply × State) : State :=
  match r.1 with
  | .ok rx => onOk rx r.2
  | .err e => raiseTransport e r.2

/-- A command: one transport call and its continuation (R19, R126 to R136). -/
def command (k : CallKind) (tx : List Byte) (onOk : List Byte → State → State) (s : State) : Result :=
  .next (afterCall onOk (transportCall k tx s))

/-- The ACCEPT step of an operation (R19): the operands go to the request latch, then `go` validates and initialises. A
request presented while `REQ_READY` is 0 changes nothing (R230). -/
def accept (operands : Latch → Latch) (go : State → State) (s : State) : Result :=
  .next (if reqReady s then go (s.countAccept.setLatch (operands s.latch)) else s)

/-- A check of the validator: `InvalidRange` and no transport call, or on with the operation (R105, R191). -/
def requireRange (inRange : Bool) (go : State → State) (s : State) : State :=
  if inRange then go s else raise .invalidRange s

end Sys2Proof.Machine
end

