-- ==== Sys2Proof/Machine/Route.lean ====
section
/-! DEFINITION. The phase transitions of spec/10_state.md R19: what follows each kind of command in the phase it was issued in. A command
issued in a phase that issues no such command leaves the phase as it is (log entry 12): `step` never does that. -/

namespace Sys2Proof.Machine

/-- The route classes of R19; `none` for the reserved operation codes. -/
inductive RouteClass where
  | q | e | w
  deriving DecidableEq, Repr

/-- The class of an operation code (R19, R72). -/
def routeClass (op : BitVec 4) : Option RouteClass :=
  match op.toNat with
  | 0 => some .q
  | 1 => some .e
  | 2 => some .e
  | 3 => some .e
  | 4 => some .w
  | 5 => some .q
  | 6 => some .q
  | 7 => some .q
  | 8 => some .q
  | 9 => some .q
  | 10 => some .q
  | _ => none

/-- After WREN (R19 steps WREN and XFER). -/
def afterWren (s : State) : State :=
  match s.phase with
  | .wren =>
    match routeClass s.latch.op with
    | some .e => s.setPhase .issue
    | some .w => s.setPhase .prePoll
    | some .q => s
    | none => s
  | .xfer => respondOk [] s
  | .idle => s
  | .prePoll => s
  | .issue => s
  | .postPoll => s

/-- After a mutating command (R19 step ISSUE). -/
def afterMutating (s : State) : State :=
  match s.phase with
  | .issue => s.setPhase .postPoll
  | .idle => s
  | .prePoll => s
  | .wren => s
  | .postPoll => s
  | .xfer => s

/-- The sequencing registers of an erase after one command: one command fewer, and (but for `eraseChip`, R161) the next
address (R162, R163). -/
def eraseAdvance (op : BitVec 4) (q : Seq) : Seq :=
  if op = OpCode.eraseChip then { q with nLeft := BitVec.ofNat 32 (zext q.nLeft - 1) }
  else { q with
    curAddr := BitVec.ofNat 32 (zext q.curAddr + zext q.stride)
    nLeft := BitVec.ofNat 32 (zext q.nLeft - 1) }

/-- The sequencing registers of a write after a chunk of `n` bytes (R170). -/
def writeAdvance (n : Nat) (q : Seq) : Seq :=
  { q with
    curAddr := BitVec.ofNat 32 (zext q.curAddr + n)
    bufIdx := BitVec.ofNat 32 (zext q.bufIdx + n)
    bytesLeft := BitVec.ofNat 32 (zext q.bytesLeft - n) }

/-- The next command of the operation, or its response (R19 step POST_POLL). -/
def continueOrRespond (more : Bool) (s : State) : State :=
  if more then s.setPhase .issue else respondOk [] s

/-- After the chip has been seen not busy behind a mutating command (R19 step POST_POLL). -/
def advance (s : State) : State :=
  match routeClass s.latch.op with
  | some .e =>
    continueOrRespond (decide (0 < zext (eraseAdvance s.latch.op s.seq).nLeft))
      (s.setSeq (eraseAdvance s.latch.op s.seq))
  | some .w =>
    continueOrRespond (decide (0 < zext (writeAdvance (chunkLength s) s.seq).bytesLeft))
      (s.setSeq (writeAdvance (chunkLength s) s.seq))
  | some .q => s
  | none => s

/-- After a status read that answered `status` (R19 steps PRE_POLL, POST_POLL, XFER; R139, R151). -/
def afterStatus (status : Byte) (s : State) : State :=
  match s.phase with
  | .prePoll =>
    if busy status then s
    else
      match routeClass s.latch.op with
      | some .e => s.setPhase .wren
      | some .w => s.setPhase .issue
      | some .q => s
      | none => s
  | .postPoll => if busy status then s else advance s
  | .xfer => respondOk [busyByte status] s
  | .idle => s
  | .wren => s
  | .issue => s

/-- After the single transport call of a class Q operation (R19 step XFER). -/
def afterTransfer (data : List Byte) (s : State) : State :=
  match s.phase with
  | .xfer => respondOk data s
  | .idle => s
  | .prePoll => s
  | .wren => s
  | .issue => s
  | .postPoll => s

end Sys2Proof.Machine
end

