-- ==== Sys2Proof/Machine/Commands.lean ====
section
/-! DEFINITION. The eleven SPI commands (spec/41_framer_transport_poll.md R126 to R136): the frame, the primitive that carries it (spec/30_encoding.md R77,
R83), and what the block does with the answer. -/

namespace Sys2Proof.Machine

/-- `WREN` (R126). -/
def execSpiWren (s : State) : Result :=
  command .send (frameWren s.params) (fun _ t => afterWren t) s

/-- `RDSR` (R127): the result is `rx[1]`, used at once and not kept (R22). -/
def execSpiRdsr (s : State) : Result :=
  command .xchg (frameRdsr s.params) (fun rx t => afterStatus (statusOf rx) t) s

/-- `READ` (R128): the result is `rx[4 ..< 4+len]`. -/
def execSpiRead (a : Word) (len : Nat) (s : State) : Result :=
  command .xchg (frameRead s.params a len) (fun rx t => afterTransfer (received rx 4 len) t) s

/-- `FAST_READ` (R129): the result is `rx[6 ..< 6+len]`. -/
def execSpiFastRead (a : Word) (len : Nat) (s : State) : Result :=
  command .xchg (frameFastRead s.params a len) (fun rx t => afterTransfer (received rx 6 len) t) s

/-- `PP` (R130). -/
def execSpiPp (a : Word) (data : List Byte) (s : State) : Result :=
  command .send (framePp s.params a data) (fun _ t => afterMutating t) s

/-- `SE` (R131). -/
def execSpiSe (a : Word) (s : State) : Result :=
  command .send (frameSe s.params a) (fun _ t => afterMutating t) s

/-- `BE` (R132). -/
def execSpiBe (a : Word) (s : State) : Result :=
  command .send (frameBe s.params a) (fun _ t => afterMutating t) s

/-- `CE` (R133). -/
def execSpiCe (s : State) : Result :=
  command .send (frameCe s.params) (fun _ t => afterMutating t) s

/-- `DP` (R134). -/
def execSpiDp (s : State) : Result :=
  command .send (frameDp s.params) (fun _ t => afterTransfer [] t) s

/-- `RES` (R135). -/
def execSpiRes (s : State) : Result :=
  command .send (frameRes s.params) (fun _ t => afterTransfer [] t) s

/-- `RDID` (R136): the result is `rx[1 ..< 4]`. -/
def execSpiRdid (s : State) : Result :=
  command .xchg (frameRdid s.params) (fun rx t => afterTransfer (received rx 1 3) t) s

end Sys2Proof.Machine
end

