-- ==== Sys2Proof/Machine/Control.lean ====
section
/-! DEFINITION. The ACCEPT step of the control operations (spec/45_ops_control.md R180 to R182): no check, one command of one byte to follow.
The block remembers nothing of them (R209). -/

namespace Sys2Proof.Machine

/-- `suspend()` (R180). -/
def execSuspend (s : State) : Result :=
  accept (fun l => { l with op := OpCode.suspend }) (fun t => t.setPhase .xfer) s

/-- `resume()` (R181). -/
def execResume (s : State) : Result :=
  accept (fun l => { l with op := OpCode.resume }) (fun t => t.setPhase .xfer) s

/-- `writeEnable()` (R182). -/
def execWriteEnable (s : State) : Result :=
  accept (fun l => { l with op := OpCode.writeEnable }) (fun t => t.setPhase .xfer) s

end Sys2Proof.Machine
end

