-- ==== Sys2Proof/Machine/Erase.lean ====
section
/-! DEFINITION. The ACCEPT step of the erase operations (spec/43_ops_erase.md R160 to R163); the rest of the operation is the route of
class E (spec/10_state.md R19). -/

namespace Sys2Proof.Machine

/-- The sequencing registers of an erase of `count` units of `size` bytes from unit `first` on (R162, R163). The product is
exact; after validation it fits the register (R112). -/
def eraseStart (size : Nat) (first count : Word) (q : Seq) : Seq :=
  { q with
    curAddr := BitVec.ofInt 32 (sext first * size)
    stride := BitVec.ofNat 32 size
    nLeft := count }

/-- `eraseChip()` (R161). -/
def execEraseChip (s : State) : Result :=
  accept (fun l => { l with op := OpCode.eraseChip })
    (fun t => (t.setSeq { t.seq with nLeft := 1#32 }).setPhase .prePoll) s

/-- `eraseBlock(block, count)` (R162). -/
def execEraseBlock (block count : Word) (s : State) : Result :=
  accept (fun l => { l with op := OpCode.eraseBlock, argA := block, argB := count })
    (requireRange (eraseBlockInRange s.geom block count)
      (fun t => (t.setSeq (eraseStart t.geom.blockSize block count t.seq)).setPhase .prePoll)) s

/-- `eraseSector(sector, count)` (R163). -/
def execEraseSector (sector count : Word) (s : State) : Result :=
  accept (fun l => { l with op := OpCode.eraseSector, argA := sector, argB := count })
    (requireRange (eraseSectorInRange s.geom sector count)
      (fun t => (t.setSeq (eraseStart t.geom.sectorSize sector count t.seq)).setPhase .prePoll)) s

end Sys2Proof.Machine
end

