-- ==== Sys2Proof/Machine/Query.lean ====
section
/-! DEFINITION. The ACCEPT step of the operations that return data (spec/42_ops_query_read.md R150 to R153); their transport call is the
XFER step, a command of Commands.lean. -/

namespace Sys2Proof.Machine

/-- `identify()` (R150). -/
def execIdentify (s : State) : Result :=
  accept (fun l => { l with op := OpCode.identify }) (fun t => t.setPhase .xfer) s

/-- `isWriteInProgress()` (R151). -/
def execIsWriteInProgress (s : State) : Result :=
  accept (fun l => { l with op := OpCode.isWriteInProgress }) (fun t => t.setPhase .xfer) s

/-- `read(address, length)` (R152). -/
def execRead (address length : Word) (s : State) : Result :=
  accept (fun l => { l with op := OpCode.read, argA := address, argB := length })
    (requireRange (readInRange s.geom address length) (fun t => t.setPhase .xfer)) s

/-- `readFast(address, length)` (R153). -/
def execReadFast (address length : Word) (s : State) : Result :=
  accept (fun l => { l with op := OpCode.readFast, argA := address, argB := length })
    (requireRange (readInRange s.geom address length) (fun t => t.setPhase .xfer)) s

end Sys2Proof.Machine
end

