-- ==== Sys2Proof/Machine/Write.lean ====
section
/-! DEFINITION. The ACCEPT step of `write` (spec/44_ops_write.md R170); the splitter is the route of class W (spec/10_state.md R19) with the
chunk of Operands.lean. -/

namespace Sys2Proof.Machine

/-- The sequencing registers of a write (R170). -/
def writeStart (address length offset : Word) (q : Seq) : Seq :=
  { q with curAddr := address, bufIdx := offset, bytesLeft := length }

/-- `NullBuffer` comes before the range check (R108, R192). -/
def requireBuffer (present : Bool) (go : State → State) (s : State) : State :=
  if present then go s else raise .nullBuffer s

/-- `write(address, buffer, offset, length)` (R170). -/
def execWrite (address length offset : Word) (bufPresent : Bool) (bufLen : Word) (s : State) : Result :=
  accept
    (fun l => { l with
      op := OpCode.write, argA := address, argB := length, argOff := offset, bufPresent := bufPresent, bufLen := bufLen })
    (requireBuffer bufPresent
      (requireRange (writeInRange s.geom address length offset bufLen)
        (fun t => (t.setSeq (writeStart address length offset t.seq)).setPhase .wren))) s

end Sys2Proof.Machine
end

