-- ==== Sys2Proof/Machine/Dispatch.lean ====
section
/-! DEFINITION. The dispatch: one arm per row of spec/opcode_table.json. -/

namespace Sys2Proof.Machine

def exec (i : Instr) (s : State) : Host.Outcome State Fault Refusal :=
  match i with
  | .spiWren => Sys2Proof.Machine.execSpiWren s
  | .spiRdsr => Sys2Proof.Machine.execSpiRdsr s
  | .spiRead a len => Sys2Proof.Machine.execSpiRead a len s
  | .spiFastRead a len => Sys2Proof.Machine.execSpiFastRead a len s
  | .spiPp a data => Sys2Proof.Machine.execSpiPp a data s
  | .spiSe a => Sys2Proof.Machine.execSpiSe a s
  | .spiBe a => Sys2Proof.Machine.execSpiBe a s
  | .spiCe => Sys2Proof.Machine.execSpiCe s
  | .spiDp => Sys2Proof.Machine.execSpiDp s
  | .spiRes => Sys2Proof.Machine.execSpiRes s
  | .spiRdid => Sys2Proof.Machine.execSpiRdid s
  | .identify => Sys2Proof.Machine.execIdentify s
  | .eraseChip => Sys2Proof.Machine.execEraseChip s
  | .eraseBlock block count => Sys2Proof.Machine.execEraseBlock block count s
  | .eraseSector sector count => Sys2Proof.Machine.execEraseSector sector count s
  | .write address length offset bufPresent bufLen => Sys2Proof.Machine.execWrite address length offset bufPresent bufLen s
  | .read address length => Sys2Proof.Machine.execRead address length s
  | .readFast address length => Sys2Proof.Machine.execReadFast address length s
  | .suspend => Sys2Proof.Machine.execSuspend s
  | .resume => Sys2Proof.Machine.execResume s
  | .writeEnable => Sys2Proof.Machine.execWriteEnable s
  | .isWriteInProgress => Sys2Proof.Machine.execIsWriteInProgress s

end Sys2Proof.Machine
end

