-- ==== Sys2Proof/Machine/Fetch.lean ====
section
/-! DEFINITION. What takes the place of fetching an instruction (spec/10_state.md R18, R19): in IDLE the host's next request is latched and decoded;
in any other phase the phase and the latched operation select the next command. -/

namespace Sys2Proof.Machine

/-- The six request registers hold the words presented (R14, R71). -/
def latchOf (r : ReqWords) : Latch where
  op := r.op
  argA := r.w1
  argB := r.w2
  argOff := r.w3
  bufPresent := r.bufPresent
  bufLen := r.w4

/-- The request `r` is taken from the host: the queue goes on with `rest`, the registers hold its words and the buffer attached
to it is the payload buffer (R19 step ACCEPT, R42). -/
def takeRequest (r : Request) (rest : List Request) (s : State) : State :=
  ((s.setRequests rest).setPayload r.payload).setLatch (latchOf r.words)

/-- A request that cannot be decoded is accepted and refused with `IllegalRequest` (R74, R193). -/
def refuseRequest (s : State) : State := raise .illegalRequest s.countAccept

/-- The command of the XFER step of a class Q operation (R150 to R153, R180 to R182). -/
def transferCommand (s : State) : Except Fault Instr :=
  match s.latch.op.toNat with
  | 0 => .ok .spiRdid
  | 5 => .ok (.spiRead s.latch.argA (sext s.latch.argB).toNat)
  | 6 => .ok (.spiFastRead s.latch.argA (sext s.latch.argB).toNat)
  | 7 => .ok .spiDp
  | 8 => .ok .spiRes
  | 9 => .ok .spiWren
  | 10 => .ok .spiRdsr
  | _ => .error .noCommandInPhase

/-- The next mutating command of the operation (R161 to R163, R170). A payload index at or above `BUF_LEN` does not exist
(R42). -/
def mutatingCommand (s : State) : Except Fault Instr :=
  match s.latch.op.toNat with
  | 1 => .ok .spiCe
  | 2 => .ok (.spiBe s.seq.curAddr)
  | 3 => .ok (.spiSe s.seq.curAddr)
  | 4 =>
    if zext s.seq.bufIdx + chunkLength s ≤ zext s.latch.bufLen then .ok (.spiPp s.seq.curAddr (chunkData s))
    else .error .payloadIndexOutOfRange
  | _ => .error .noCommandInPhase

/-- Whether the latched operation passes through the polling and write-enable phases (R19: classes E and W). -/
def mutatingClass (s : State) : Bool :=
  match routeClass s.latch.op with
  | some .e => true
  | some .w => true
  | some .q => false
  | none => false

/-- The command the current phase issues (R19). -/
def selectCommand (s : State) : Except Fault Instr :=
  match s.phase with
  | .idle => .error .noCommandInPhase
  | .prePoll => if mutatingClass s then .ok .spiRdsr else .error .noCommandInPhase
  | .wren => if mutatingClass s then .ok .spiWren else .error .noCommandInPhase
  | .issue => mutatingCommand s
  | .postPoll => if mutatingClass s then .ok .spiRdsr else .error .noCommandInPhase
  | .xfer => transferCommand s

/-- The reset input acts (R220): the straps are sampled, the operation in flight is abandoned without a response, the
trace starts anew, and no transport call is made (R221). -/
def applyReset (straps : Straps) (s : State) : State :=
  State.boot s.params straps s.freeCtr s.requests s.payload s.oracle

/-- A good configuration, left alone where there is one already: for placing an instruction (log entry 18). -/
def ensureConfigured (s : State) : State :=
  if s.cfgStatus = .cfgOk then s
  else { s with
    variant := 0#8, transportPresent := true, cfgStatus := cfgStatusOf s.params 0#8 true,
    geom := geomAtReset s.params 0#8 true s.freeCtr }

/-- The state in which the command `i` is the next one to run: the phase and the registers that select it (log entry 18). A
host operation is placed by `placeWords`. -/
def placeCommand (i : Instr) (s : State) : State :=
  match i with
  | .spiWren => (s.setLatch { s.latch with op := OpCode.writeEnable }).setPhase .xfer
  | .spiRdsr => (s.setLatch { s.latch with op := OpCode.isWriteInProgress }).setPhase .xfer
  | .spiRead a len =>
    (s.setLatch { s.latch with op := OpCode.read, argA := a, argB := BitVec.ofNat 32 len }).setPhase .xfer
  | .spiFastRead a len =>
    (s.setLatch { s.latch with op := OpCode.readFast, argA := a, argB := BitVec.ofNat 32 len }).setPhase .xfer
  | .spiPp a data =>
    (((s.setLatch { s.latch with
        op := OpCode.write, bufPresent := true, bufLen := BitVec.ofNat 32 data.length }).setSeq { s.seq with
        curAddr := a, bufIdx := 0#32, bytesLeft := BitVec.ofNat 32 data.length }).setPayload
        (Memory.ofBytes 0 data)).setPhase .issue
  | .spiSe a =>
    ((s.setLatch { s.latch with op := OpCode.eraseSector }).setSeq { s.seq with
      curAddr := a, stride := BitVec.ofNat 32 s.geom.sectorSize, nLeft := 1#32 }).setPhase .issue
  | .spiBe a =>
    ((s.setLatch { s.latch with op := OpCode.eraseBlock }).setSeq { s.seq with
      curAddr := a, stride := BitVec.ofNat 32 s.geom.blockSize, nLeft := 1#32 }).setPhase .issue
  | .spiCe =>
    ((s.setLatch { s.latch with op := OpCode.eraseChip }).setSeq { s.seq with nLeft := 1#32 }).setPhase .issue
  | .spiDp => (s.setLatch { s.latch with op := OpCode.suspend }).setPhase .xfer
  | .spiRes => (s.setLatch { s.latch with op := OpCode.resume }).setPhase .xfer
  | .spiRdid => (s.setLatch { s.latch with op := OpCode.identify }).setPhase .xfer
  | .identify => s
  | .eraseChip => s
  | .eraseBlock _ _ => s
  | .eraseSector _ _ => s
  | .write _ _ _ _ _ => s
  | .read _ _ => s
  | .readFast _ _ => s
  | .suspend => s
  | .resume => s
  | .writeEnable => s
  | .isWriteInProgress => s

/-- The five words of the number `w` presented as the next request, decodable or not (log entry 18). -/
def placeWords (w : Nat) (s : State) : State :=
  (s.setRequests (⟨ReqWords.ofNat w, []⟩ :: s.requests)).setPhase .idle

/-- The instruction of a row of spec/opcode_table.json with the bits `w`, placed where the next step runs it (log entry 18). -/
def placeTableWord (nbits w : Nat) (s : State) : State :=
  if nbits ≤ 8 then
    match decodeTableWord nbits w with
    | some i => placeCommand i ((ensureConfigured s).setResetIn none)
    | none => s
  else placeWords w ((ensureConfigured s).setResetIn none)

end Sys2Proof.Machine
end

