-- ==== Sys2Proof/Machine/Advance.lean ====
section
/-! DEFINITION. The two halves of a step (spec/10_state.md R19): in IDLE the ACCEPT of a request, in any other phase the command it issues. -/

namespace Sys2Proof.Machine

/-- A request presented in IDLE (R19 step ACCEPT): taken, decoded, and run or refused. -/
def acceptRequest (r : Request) (rest : List Request) (s : State) : Host.Outcome State Fault Refusal :=
  match decodeRequest r.words with
  | .ok i => exec i (takeRequest r rest s)
  | .error _ => .next (refuseRequest (takeRequest r rest s))

/-- In IDLE: the next request of the host is accepted when `REQ_READY` is 1; with none presented, or with a bad
configuration, the block waits (R21, R222). -/
def stepIdle (s : State) : Host.Outcome State Fault Refusal :=
  match s.requests with
  | [] => .next s
  | r :: rest => if reqReady s then acceptRequest r rest s else .next s

/-- In any other phase: the command the phase issues (R19). -/
def stepBusy (s : State) : Host.Outcome State Fault Refusal :=
  match selectCommand s with
  | .ok i => exec i s
  | .error f => .fault f

end Sys2Proof.Machine
end

