-- ==== Sys2Proof/Machine/Step.lean ====
section
/-! DEFINITION. One step of the machine (spec/00_scope.md R5, spec/10_state.md R19): a reset, an ACCEPT, or one transport call. -/

namespace Sys2Proof.Machine

/-- One step. -/
def step (s : State) : Host.Outcome State Fault Refusal :=
  match s.resetIn with
  | some straps => .next (applyReset straps s)
  | none => if s.phase = .idle then stepIdle s else stepBusy s

/-- The state whose next step runs the instruction of a row of spec/opcode_table.json with the bits `w` (log entry 18). -/
def State.withFetchWord (s : State) (nbits w : Nat) : State := placeTableWord nbits w s

end Sys2Proof.Machine
end

