-- ==== Sys2Proof/Safety.lean ====
section
/-! DEFINITION. What counts as a safe run: the invariant every state of a run keeps, the runs themselves, and the few relations
between states that the statements are written with. -/

namespace Sys2Proof

open Sys2Proof.Machine

/-- The memories inside an oracle are in the canonical form. -/
def Machine.Oracle.wf : Oracle → Bool
  | .script _ => true
  | .chip c plan =>
    c.mem.wf && plan.all (fun f => match f with
      | some ⟨_, some left⟩ => left.mem.wf
      | some ⟨_, none⟩ => true
      | none => true)

/-- The size of the unit an erase operation works in (R162, R163). -/
def eraseUnit (s : State) : Nat :=
  if s.latch.op = OpCode.eraseBlock then s.geom.blockSize else s.geom.sectorSize

/-- The arguments of `eraseBlock` or `eraseSector` in the latch passed their check (R109, R110). -/
def EraseArgsOk (s : State) : Prop :=
  (s.latch.op = OpCode.eraseBlock ∧ eraseBlockInRange s.geom s.latch.argA s.latch.argB = true) ∨
  (s.latch.op = OpCode.eraseSector ∧ eraseSectorInRange s.geom s.latch.argA s.latch.argB = true)

/-- Where an erase stands: `N_LEFT` commands to issue from `CUR_ADDR` on, up to the end of the range asked for (R162, R163). -/
def EraseProgress (s : State) : Prop :=
  (s.latch.op = OpCode.eraseChip ∧ zext s.seq.nLeft = 1) ∨
  (EraseArgsOk s ∧ 1 ≤ zext s.seq.nLeft ∧ zext s.seq.nLeft ≤ zext s.latch.argB ∧
    zext s.seq.stride = eraseUnit s ∧
    zext s.seq.curAddr + zext s.seq.nLeft * eraseUnit s =
      (zext s.latch.argA + zext s.latch.argB) * eraseUnit s)

/-- Where a write stands: `BYTES_LEFT` bytes to send, from `BUF_IDX` in the buffer and `CUR_ADDR` in the flash, whole pages behind
it (R170, R171). -/
def WriteProgress (s : State) : Prop :=
  s.latch.op = OpCode.write ∧ s.latch.bufPresent = true ∧
  writeInRange s.geom s.latch.argA s.latch.argB s.latch.argOff s.latch.bufLen = true ∧
  1 ≤ zext s.seq.bytesLeft ∧
  zext s.seq.curAddr + zext s.seq.bytesLeft = zext s.latch.argA + zext s.latch.argB ∧
  zext s.seq.bufIdx + zext s.seq.bytesLeft = zext s.latch.argOff + zext s.latch.argB ∧
  ∃ i, zext s.seq.bytesLeft + i * 256 = zext s.latch.argB

/-- The arguments of the class Q operation in the latch passed their check (R107). -/
def TransferArgsOk (s : State) : Prop :=
  routeClass s.latch.op = some .q ∧
  (s.latch.op = OpCode.read ∨ s.latch.op = OpCode.readFast →
    readInRange s.geom s.latch.argA s.latch.argB = true)

/-- The operation in flight is on its route (R19, R20). -/
def OnRoute (s : State) : Prop :=
  match s.phase with
  | .idle => True
  | .xfer => TransferArgsOk s
  | .prePoll => EraseProgress s ∨ WriteProgress s
  | .wren => EraseProgress s ∨ WriteProgress s
  | .issue => EraseProgress s ∨ WriteProgress s
  | .postPoll => EraseProgress s ∨ WriteProgress s

/-- The invariant of the machine. -/
structure Inv (s : State) : Prop where
  /-- the parameters are those of R6, R85 and R103 -/
  params : s.params.wf = true
  /-- `CFG_STATUS` is what R12 computes -/
  status : s.cfgStatus = cfgStatusOf s.params s.variant s.transportPresent
  /-- `GEOM` is the ROM's record and its derived sizes (R13, R100, R101) -/
  geometry : s.cfgStatus = .cfgOk → geomLookup s.params s.variant = some s.geom
  /-- in a bad configuration no operation is ever in flight (R21) -/
  closed : s.cfgStatus ≠ .cfgOk → s.phase = .idle
  /-- the payload buffer is in the canonical form -/
  payload : s.payload.wf = true
  /-- so are the buffers of the requests to come -/
  requests : ∀ r ∈ s.requests, r.payload.wf = true
  /-- so are the memories of the oracle -/
  oracle : s.oracle.wf = true
  /-- the operation in flight is on its route -/
  route : OnRoute s
  /-- every accepted request but the one in flight has had its one response (R24) -/
  answered : s.accepted = s.responses.length + (if s.phase = .idle then 0 else 1)
  /-- the response registers hold the last response (R24, D27) -/
  lastResponse : ∀ r, s.responses.getLast? = some r → s.resp = r

/-- `k` steps, up to the first fault or refusal. -/
def run : Nat → State → Host.Outcome State Fault Refusal
  | 0, s => .next s
  | k + 1, s =>
    match step s with
    | .next t => run k t
    | .fault f => .fault f
    | .refused r => .refused r

/-- A step from `s` completes. -/
def Runs (s : State) : Prop := ∃ t, step s = .next t

/-- The states a machine can come to: from any reset of a well-formed instance, by its own steps and by the moves of the world outside (R10, R42, R220): the
host presents a request or changes its buffer, or reset is asserted, perhaps in the middle of a transport call, which leaves the oracle as it may (R200). -/
inductive Reachable : State → Prop where
  | boot (p : Params) (straps : Straps) (n : Nat) (requests : List Request) (payload : Memory) (oracle : Oracle)
      (hp : p.wf = true) (hr : ∀ r ∈ requests, r.payload.wf = true) (hm : payload.wf = true)
      (ho : oracle.wf = true) : Reachable (State.boot p straps n requests payload oracle)
  | step {s t : State} (hs : Reachable s) (h : step s = .next t) : Reachable t
  | present {s : State} (r : Request) (hs : Reachable s) (hr : r.payload.wf = true) :
      Reachable (s.setRequests (s.requests ++ [r]))
  | changeBuffer {s : State} (m : Memory) (hs : Reachable s) (hm : m.wf = true) : Reachable (s.setPayload m)
  | assertReset {s : State} (straps : Straps) (oracle : Oracle) (hs : Reachable s) (ho : oracle.wf = true) :
      Reachable { s with resetIn := some straps, oracle := oracle }

/-- The configuration registers and parameters are the same (R7, R12, R13). -/
def SameConfig (s t : State) : Prop :=
  t.params = s.params ∧ t.variant = s.variant ∧ t.transportPresent = s.transportPresent ∧
  t.cfgStatus = s.cfgStatus ∧ t.geom = s.geom

/-- `t` is `s` with the response `code`, `data` delivered and the machine back in IDLE (R24, R199); nothing else differs, and
`RESP_ERR` is not said. -/
def Responded (code : BitVec 3) (data : List Byte) (s t : State) : Prop :=
  t.resp.code = code ∧ t.resp.data = data ∧
  t = { s with
    phase := .idle, resp := t.resp, responses := s.responses ++ [t.resp], freeCtr := s.freeCtr + 1 }

/-- The state with the operation's code and operands latched and one request more accepted (R19 step ACCEPT). -/
def acceptedAs (l : Latch) (s : State) : State := { s with accepted := s.accepted + 1, latch := l }

/-- The sequencing registers the latched operation reads (R15): all the others are set to 0. -/
def usedSeq (op : BitVec 4) (q : Seq) : Seq :=
  match routeClass op with
  | some .e =>
    if op = OpCode.eraseChip then ⟨0, 0, q.nLeft, 0, 0⟩ else ⟨q.curAddr, q.stride, q.nLeft, 0, 0⟩
  | some .w => ⟨q.curAddr, 0, 0, q.bufIdx, q.bytesLeft⟩
  | some .q => ⟨0, 0, 0, 0, 0⟩
  | none => ⟨0, 0, 0, 0, 0⟩

/-- Two states that only differ in what an earlier operation may have left behind (R16): the response registers, and in IDLE the request latch
and the sequencing registers, otherwise the sequencing registers the operation in flight does not read. -/
def Alike (s t : State) : Prop :=
  t = { s with latch := t.latch, seq := t.seq, resp := t.resp } ∧
  (s.phase ≠ .idle → t.latch = s.latch ∧ usedSeq s.latch.op t.seq = usedSeq s.latch.op s.seq)

/-- The same outcome, up to what an earlier operation left behind. -/
def AlikeOutcome : Host.Outcome State Fault Refusal → Host.Outcome State Fault Refusal → Prop
  | .next s, .next t => Alike s t
  | .fault f, .fault g => f = g
  | .refused r, .refused q => r = q
  | _, _ => False

/-- One `BusyPoll` as the oracle answers it (R139): the pairs of bytes received while the chip was busy, and the pair
that ended the poll. -/
structure Poll where
  whileBusy : List (Byte × Byte)
  last : Byte × Byte

/-- Bit 0 of the status byte is set in every answer but the last (R138, R139). -/
def Poll.ok (x : Poll) : Prop := (∀ a ∈ x.whileBusy, a.2.getLsbD 0 = true) ∧ x.last.2.getLsbD 0 = false

/-- The answers of a poll, as an oracle's script. -/
def Poll.replies (x : Poll) : List Reply := (x.whileBusy ++ [x.last]).map (fun a => .ok [a.1, a.2])

/-- The events of a poll: status reads and nothing else (R137). -/
def Poll.events (p : Params) (x : Poll) : List Event :=
  (x.whileBusy ++ [x.last]).map (fun a => .exchange [p.opcRdsr, p.fill] [a.1, a.2])

/-- The answers to a sequence of mutating commands, each followed by its poll (R19). -/
def unitReplies (polls : List Poll) : List Reply := polls.flatMap (fun x => .ok [] :: x.replies)

/-- The events of a sequence of mutating commands, the frame of command `k + i` being `frame (k + i)`, each followed by its poll (R19). -/
def unitEvents (p : Params) (frame : Nat → List Byte) : Nat → List Poll → List Event
  | _, [] => []
  | k, x :: rest => .sendOnly (frame k) :: (x.events p ++ unitEvents p frame (k + 1) rest)

/-- The chip address the bytes of a page-program land on, as far as the effect in flight reaches (R66). -/
def touches (g : Geom) (x : Nat) : ChipEffect → Prop
  | .program a data => ∃ j, j < data.length ∧ x = Chip.programAddress g a j
  | .eraseSector a => a - a % g.sectorSize ≤ x ∧ x < a - a % g.sectorSize + g.sectorSize
  | .eraseBlock a => a - a % g.blockSize ≤ x ∧ x < a - a % g.blockSize + g.blockSize
  | .eraseAll => x < g.capacity

end Sys2Proof
end

