-- ==== Sys2Proof/Certificates/Slice0/Obligations.lean ====
section
/-! DEFINITION. The statements for the provers. Opcode bytes, `FILL` and the geometry ROM are parameters (R6): but for the tables of words and for State.reset, every
statement holds for all of them. -/

open Sys2Proof Sys2Proof.Machine

/-! ### Encoding -/

/-- R71 to R73, R77, R84, R89: decoding what was encoded gives the instruction back, every operand at every value its encoding
admits. -/
def Obligations.DecodeInvertsEncode : Prop :=
  ∀ (p : Params) (i : Instr), p.wf = true → WellFormed i = true → decode p (encode p i) = .ok i

/-- R84: what decodes is well-formed, and encoding it gives the frame again, but for fill bytes: the same length, the same
opcode and address bytes, and for PP the same data. -/
def Obligations.DecodedFrameIsWellFormed : Prop :=
  ∀ (p : Params) (tx : List Byte) (i : Instr), decodeFrame p tx = .ok i →
    WellFormed i = true ∧
    ∃ tx', encode p i = .frame tx' ∧ tx'.length = tx.length ∧ tx'.head? = tx.head? ∧
      (i.command = some .read ∨ i.command = some .fastRead ∨ i.command = some .pp ∨ i.command = some .se ∨
        i.command = some .be → tx'.take 4 = tx.take 4) ∧
      (i.command = some .pp → tx' = tx)

/-- R72: with the reserved bits 0, the operation code selects the operation, with the fields R73 gives it. -/
def Obligations.OperationCodesSelectOperations : Prop :=
  ∀ r : ReqWords, r.w0.extractLsb' 4 4 = 0#4 → r.w0.extractLsb' 9 23 = 0#23 →
    (r.w0.extractLsb' 0 4 = 0#4 → decodeRequest r = .ok .identify) ∧
    (r.w0.extractLsb' 0 4 = 1#4 → decodeRequest r = .ok .eraseChip) ∧
    (r.w0.extractLsb' 0 4 = 2#4 → decodeRequest r = .ok (.eraseBlock r.w1 r.w2)) ∧
    (r.w0.extractLsb' 0 4 = 3#4 → decodeRequest r = .ok (.eraseSector r.w1 r.w2)) ∧
    (r.w0.extractLsb' 0 4 = 4#4 → decodeRequest r = .ok (.write r.w1 r.w2 r.w3 (r.w0.getLsbD 8) r.w4)) ∧
    (r.w0.extractLsb' 0 4 = 5#4 → decodeRequest r = .ok (.read r.w1 r.w2)) ∧
    (r.w0.extractLsb' 0 4 = 6#4 → decodeRequest r = .ok (.readFast r.w1 r.w2)) ∧
    (r.w0.extractLsb' 0 4 = 7#4 → decodeRequest r = .ok .suspend) ∧
    (r.w0.extractLsb' 0 4 = 8#4 → decodeRequest r = .ok .resume) ∧
    (r.w0.extractLsb' 0 4 = 9#4 → decodeRequest r = .ok .writeEnable) ∧
    (r.w0.extractLsb' 0 4 = 10#4 → decodeRequest r = .ok .isWriteInProgress)

/-- R74, R193: a request with a reserved operation code or a reserved bit of `W0` set is answered with `IllegalRequest`; no transport call is made
and `PHASE` stays IDLE. That it is taken off the host's list and counted as accepted before it is refused is the model's reading of R19 and R24 (log
entry 20, DEDUCED). -/
def Obligations.ReservedRequestIsRefused : Prop :=
  ∀ (s : State) (r : Request) (rest : List Request),
    s.resetIn = none → s.phase = .idle → s.cfgStatus = .cfgOk → s.requests = r :: rest →
    (11 ≤ (r.words.w0.extractLsb' 0 4).toNat ∨ r.words.w0.extractLsb' 4 4 ≠ 0#4 ∨ r.words.w0.extractLsb' 9 23 ≠ 0#23) →
    ∃ t, step s = .next t ∧ t.phase = .idle ∧ t.resp.code = 4#3 ∧ t.resp.data = [] ∧ t.trace = s.trace ∧
      t.oracle = s.oracle ∧ t.requests = rest ∧ t.responses = s.responses ++ [t.resp] ∧ t.accepted = s.accepted + 1 ∧
      t.seq = s.seq ∧ SameConfig s t

/-- Words written out from R71, R72, R77 and the default opcodes of R85 decode to what they stand for (test vectors V3, V6). -/
def Obligations.WrittenOutWordsDecode : Prop :=
  decodeRequest ⟨0x00000005#32, 0x00001000#32, 0x00000002#32, 0#32, 0#32⟩ = .ok (.read 0x1000#32 2#32) ∧
  decodeRequest ⟨0x00000104#32, 0x00000100#32, 3#32, 0#32, 3#32⟩ = .ok (.write 0x100#32 3#32 0#32 true 3#32) ∧
  decodeRequest ⟨0x00000002#32, 0x0000003F#32, 1#32, 0#32, 0#32⟩ = .ok (.eraseBlock 63#32 1#32) ∧
  decodeRequest ⟨0x00000009#32, 0#32, 0#32, 0#32, 0#32⟩ = .ok .writeEnable ∧
  decodeFrame Params.default [0x20#8, 0x00#8, 0x10#8, 0x00#8] = .ok (.spiSe 0x001000#32) ∧
  decodeFrame Params.default [0x02#8, 0x00#8, 0x01#8, 0x00#8, 0x11#8, 0x22#8, 0x33#8] =
    .ok (.spiPp 0x000100#32 [0x11#8, 0x22#8, 0x33#8]) ∧
  decodeFrame Params.default [0x0B#8, 0x00#8, 0x10#8, 0x00#8, 0#8, 0#8, 0#8, 0#8] = .ok (.spiFastRead 0x001000#32 2)

/-- R124, R125: the framer's two builders, with the address bytes at bit offsets 16, 8 and 0 and bits 31:24 dropped. -/
def Obligations.FramerIsBigEndian : Prop :=
  (∀ opc : Byte, frame1 opc = [opc]) ∧
  (∀ (opc : Byte) (a : Word),
    frame4 opc a = [opc, a.extractLsb' 16 8, a.extractLsb' 8 8, a.extractLsb' 0 8]) ∧
  (∀ opc : Byte, frame4 opc 0x01234567#32 = [opc, 0x23#8, 0x45#8, 0x67#8])

/-! ### Geometry and configuration -/

/-- R100, R101, R102, R116: the record of a variant, and the sizes derived from it. -/
def Obligations.GeometryIsDerivedFromRom : Prop :=
  ∀ (p : Params) (v : Byte) (r : GeomRow), p.wf = true → p.geomRom[v.toNat]? = some r →
    ∃ g, geomLookup p v = some g ∧
      g.chipIdentifier = r.chipIdentifier ∧ g.log2PageSize = 8#8 ∧ g.pagesPerSector = r.pagesPerSector ∧
      g.sectorsPerBlock = r.sectorsPerBlock ∧ g.blockCount = r.blockCount ∧
      g.pageSize = 256 ∧ g.sectorSize = g.pageSize * r.pagesPerSector.toNat ∧
      g.blockSize = g.sectorSize * r.sectorsPerBlock.toNat ∧
      g.capacity = g.pageSize * r.pagesPerSector.toNat * r.sectorsPerBlock.toNat * r.blockCount.toNat ∧
      g.capacity % g.pageSize = 0 ∧ g.capacity = g.blockSize * r.blockCount.toNat ∧
      g.capacity = g.sectorSize * (r.sectorsPerBlock.toNat * r.blockCount.toNat)

/-- R103: what a well-formed ROM implies for every variant: nothing is empty and nothing exceeds 2^24 bytes. -/
def Obligations.RomBoundsEverySize : Prop :=
  ∀ (p : Params) (v : Byte) (g : Geom), p.wf = true → geomLookup p v = some g →
    256 ≤ g.sectorSize ∧ g.sectorSize ≤ g.blockSize ∧ g.blockSize ≤ g.capacity ∧ g.capacity ≤ 2 ^ 24 ∧
    g.sectorsPerBlock.toNat * g.blockCount.toNat ≤ 65536

/-- R12, R26, R220, R221, R222: what a reset leaves, from any straps: the status, the geometry, IDLE, an empty trace, no transport call, and
`REQ_READY` exactly when the configuration is good. -/
def Obligations.ResetLeavesTheBlockIdle : Prop :=
  ∀ (p : Params) (straps : Straps) (n : Nat) (rs : List Request) (m : Memory) (o : Oracle) (s : State),
    s = State.boot p straps n rs m o →
    s.variant = straps.variant ∧ s.transportPresent = straps.transportPresent ∧ s.phase = .idle ∧ s.trace = [] ∧
    s.oracle = o ∧ s.requests = rs ∧ s.params = p ∧
    (straps.transportPresent = false → s.cfgStatus.code = 1#2) ∧
    (straps.transportPresent = true → p.geomRom.length ≤ straps.variant.toNat → s.cfgStatus.code = 2#2) ∧
    (straps.transportPresent = true → straps.variant.toNat < p.geomRom.length →
      s.cfgStatus.code = 0#2 ∧ some s.geom = geomLookup p straps.variant) ∧
    (reqReady s = true ↔ straps.transportPresent = true ∧ straps.variant.toNat < p.geomRom.length)

/-- R26 with the defaults of R6 and the straps log entry 3 chooses: `State.reset` is ready, with the geometry of `T64`. -/
def Obligations.ResetStateIsReady : Prop :=
  State.reset.phase = .idle ∧ State.reset.cfgStatus = .cfgOk ∧ reqReady State.reset = true ∧
  State.reset.trace = [] ∧ State.reset.requests = [] ∧ State.reset.responses = [] ∧
  State.reset.geom.sectorSize = 0x1000 ∧ State.reset.geom.blockSize = 0x10000 ∧ State.reset.geom.capacity = 0x400000

/-- R27, R76: what the host reads of the configuration at any time: the status in its encoding and, when it is good, the record the ROM
gives the strapped variant. -/
def Obligations.HostReadsTheConfiguration : Prop :=
  ∀ s : State, Inv s →
    (hostReadStatus s = 0#2 ∨ hostReadStatus s = 1#2 ∨ hostReadStatus s = 2#2) ∧
    (hostReadStatus s = 0#2 ↔ s.transportPresent = true ∧ s.variant.toNat < s.params.geomRom.length) ∧
    (hostReadStatus s = 1#2 ↔ s.transportPresent = false) ∧
    (hostReadStatus s = 0#2 → hostReadGeom s = geomLookup s.params s.variant ∧ hostReadGeom s ≠ none) ∧
    (hostReadStatus s ≠ 0#2 → hostReadGeom s = none)

/-- R220: reset asserted in any state, also in the middle of an operation, abandons it without a response and without a transport call, and
samples the straps. That the world outside, the host's requests still to present, the buffer attached and the oracle, stays as it was is the model's choice,
no rule's (log entry 15, DESIGN CHOICE). -/
def Obligations.AssertedResetAbandonsOperation : Prop :=
  ∀ (s : State) (straps : Straps), s.resetIn = some straps →
    ∃ t, step s = .next t ∧ t.phase = .idle ∧ t.trace = [] ∧ t.responses = [] ∧ t.oracle = s.oracle ∧
      t.requests = s.requests ∧ t.payload = s.payload ∧ t.resetIn = none ∧ t.params = s.params ∧
      t.variant = straps.variant ∧ t.transportPresent = straps.transportPresent ∧
      t.cfgStatus = cfgStatusOf s.params straps.variant straps.transportPresent

/-! ### The validator -/

/-- R114: on exact integers the product form of the sector check (R110) and the count form agree, so the check the block makes is the count
check. -/
def Obligations.SectorCheckIsCountCheck : Prop :=
  ∀ (p : Params) (v : Byte) (g : Geom) (sector count : Word), p.wf = true → geomLookup p v = some g →
    ((sector.toInt + count.toInt) * g.sectorSize ≤ g.capacity ↔
      sector.toInt + count.toInt ≤ g.sectorsPerBlock.toNat * g.blockCount.toNat) ∧
    (eraseSectorInRange g sector count = true ↔
      0 ≤ sector.toInt ∧ 0 < count.toInt ∧
        sector.toInt + count.toInt ≤ g.sectorsPerBlock.toNat * g.blockCount.toNat)

/-- R113: what a passed check guarantees to the rest of the block. Below 2^24 the 24 bits of a frame's address field lose nothing (R78). -/
def Obligations.ValidationBoundsEveryAddress : Prop :=
  ∀ (p : Params) (v : Byte) (g : Geom), p.wf = true → geomLookup p v = some g →
    g.capacity ≤ 2 ^ 24 ∧
    (∀ address length : Word, readInRange g address length = true →
      0 ≤ address.toInt ∧ address.toInt + length.toInt ≤ g.capacity ∧ (address.setWidth 24).toNat = address.toNat ∧
      ∀ j : Nat, (j : Int) < length.toInt → address.toInt + j < g.capacity ∧ address.toNat + j < 2 ^ 24) ∧
    (∀ address length offset bufLen : Word, writeInRange g address length offset bufLen = true →
      0 ≤ address.toInt ∧ address.toInt + length.toInt ≤ g.capacity ∧ (address.setWidth 24).toNat = address.toNat ∧
      ∀ j : Nat, (j : Int) < length.toInt →
        address.toInt + j < g.capacity ∧ address.toNat + j < 2 ^ 24 ∧ offset.toInt + j < bufLen.toNat) ∧
    (∀ block count : Word, eraseBlockInRange g block count = true →
      ∀ i : Nat, (i : Int) < count.toInt →
        (block.toInt + i) * g.blockSize ≤ g.capacity - g.blockSize ∧ (block.toInt + i) * g.blockSize < 2 ^ 24) ∧
    (∀ sector count : Word, eraseSectorInRange g sector count = true →
      ∀ i : Nat, (i : Int) < count.toInt →
        (sector.toInt + i) * g.sectorSize ≤ g.capacity - g.sectorSize ∧ (sector.toInt + i) * g.sectorSize < 2 ^ 24)

/-! ### Accepting a request -/

/-- R111, R150, R151, R180 to R182 (ACCEPT): the operations with no argument check go straight to XFER. That exec by itself leaves the
latch registers ARG_A, ARG_B, ARG_OFF, BUF_PRESENT and BUF_LEN as they were is the model's choice, no rule's (log entry 21, DESIGN CHOICE): R19 latches all
six, and step does so before exec (StepRunsTheDecodedRequest). -/
def Obligations.UncheckedOperationsGoToTransfer : Prop :=
  ∀ s : State, s.phase = .idle → s.cfgStatus = .cfgOk →
    exec .identify s = .next { acceptedAs { s.latch with op := 0#4 } s with phase := .xfer } ∧
    exec .suspend s = .next { acceptedAs { s.latch with op := 7#4 } s with phase := .xfer } ∧
    exec .resume s = .next { acceptedAs { s.latch with op := 8#4 } s with phase := .xfer } ∧
    exec .writeEnable s = .next { acceptedAs { s.latch with op := 9#4 } s with phase := .xfer } ∧
    exec .isWriteInProgress s = .next { acceptedAs { s.latch with op := 10#4 } s with phase := .xfer }

/-- R161 (ACCEPT): `eraseChip` is not checked; one command to issue, the poll first. That exec by itself leaves the latch registers ARG_A, ARG_B, ARG_OFF,
BUF_PRESENT and BUF_LEN as they were is the model's choice, no rule's (log entry 21, DESIGN CHOICE): R19 latches all six, and step does so before exec. -/
def Obligations.EraseChipStartsPolling : Prop :=
  ∀ s : State, s.phase = .idle → s.cfgStatus = .cfgOk →
    exec .eraseChip s = .next { acceptedAs { s.latch with op := 1#4 } s with
      phase := .prePoll, seq := { s.seq with nLeft := 1#32 } }

/-- R107, R152, R153 (ACCEPT): `read` and `readFast` are accepted exactly on the range R107 gives, on exact integers; otherwise `InvalidRange`,
with no transport call. That exec by itself leaves the latch registers ARG_OFF, BUF_PRESENT and BUF_LEN as they were, accepted or refused, is the
model's choice, no rule's (log entry 21, DESIGN CHOICE): R19 latches all six, and step does so before exec. -/
def Obligations.ReadsAreRangeChecked : Prop :=
  ∀ (s : State) (address length : Word), s.phase = .idle → s.cfgStatus = .cfgOk →
    (0 ≤ address.toInt ∧ 0 < length.toInt ∧ address.toInt + length.toInt ≤ s.geom.capacity →
      exec (.read address length) s = .next { acceptedAs { s.latch with
        op := 5#4, argA := address, argB := length } s with phase := .xfer } ∧
      exec (.readFast address length) s = .next { acceptedAs { s.latch with
        op := 6#4, argA := address, argB := length } s with phase := .xfer }) ∧
    (¬(0 ≤ address.toInt ∧ 0 < length.toInt ∧ address.toInt + length.toInt ≤ s.geom.capacity) →
      (∃ t, exec (.read address length) s = .next t ∧
        Responded 1#3 [] (acceptedAs { s.latch with op := 5#4, argA := address, argB := length } s) t) ∧
      (∃ t, exec (.readFast address length) s = .next t ∧
        Responded 1#3 [] (acceptedAs { s.latch with op := 6#4, argA := address, argB := length } s) t))

/-- R109, R162 (ACCEPT): `eraseBlock` starts at `block * blockSize` with stride `blockSize` and `count` commands to issue, exactly on the range R109
gives; otherwise `InvalidRange` with no transport call. That exec by itself leaves the latch registers ARG_OFF, BUF_PRESENT and BUF_LEN as they were, accepted or refused, is the
model's choice, no rule's (log entry 21, DESIGN CHOICE): R19 latches all six, and step does so before exec. -/
def Obligations.EraseBlockIsRangeChecked : Prop :=
  ∀ (s : State) (g : Geom) (block count : Word), s.phase = .idle → s.cfgStatus = .cfgOk → s.params.wf = true →
    geomLookup s.params s.variant = some g → s.geom = g →
    (0 ≤ block.toInt ∧ 0 < count.toInt ∧ block.toInt + count.toInt ≤ g.blockCount.toNat →
      ∃ t, exec (.eraseBlock block count) s = .next t ∧
        t = { acceptedAs { s.latch with op := 2#4, argA := block, argB := count } s with
          phase := .prePoll, seq := { s.seq with
            curAddr := t.seq.curAddr, stride := t.seq.stride, nLeft := count } } ∧
        t.seq.curAddr.toNat = block.toNat * g.blockSize ∧ t.seq.stride.toNat = g.blockSize) ∧
    (¬(0 ≤ block.toInt ∧ 0 < count.toInt ∧ block.toInt + count.toInt ≤ g.blockCount.toNat) →
      ∃ t, exec (.eraseBlock block count) s = .next t ∧
        Responded 1#3 [] (acceptedAs { s.latch with op := 2#4, argA := block, argB := count } s) t)

/-- R110, R163 (ACCEPT): `eraseSector` likewise, with `sectorSize`. That exec by itself leaves the latch registers ARG_OFF, BUF_PRESENT and BUF_LEN as they were, accepted or refused, is the
model's choice, no rule's (log entry 21, DESIGN CHOICE): R19 latches all six, and step does so before exec. -/
def Obligations.EraseSectorIsRangeChecked : Prop :=
  ∀ (s : State) (g : Geom) (sector count : Word), s.phase = .idle → s.cfgStatus = .cfgOk → s.params.wf = true →
    geomLookup s.params s.variant = some g → s.geom = g →
    (0 ≤ sector.toInt ∧ 0 < count.toInt ∧ (sector.toInt + count.toInt) * g.sectorSize ≤ g.capacity →
      ∃ t, exec (.eraseSector sector count) s = .next t ∧
        t = { acceptedAs { s.latch with op := 3#4, argA := sector, argB := count } s with
          phase := .prePoll, seq := { s.seq with
            curAddr := t.seq.curAddr, stride := t.seq.stride, nLeft := count } } ∧
        t.seq.curAddr.toNat = sector.toNat * g.sectorSize ∧ t.seq.stride.toNat = g.sectorSize) ∧
    (¬(0 ≤ sector.toInt ∧ 0 < count.toInt ∧ (sector.toInt + count.toInt) * g.sectorSize ≤ g.capacity) →
      ∃ t, exec (.eraseSector sector count) s = .next t ∧
        Responded 1#3 [] (acceptedAs { s.latch with op := 3#4, argA := sector, argB := count } s) t)

/-- R108, R198, R170 (ACCEPT): `write` is checked for its buffer first, then for its ranges; a valid one starts with the write-enable. -/
def Obligations.WriteIsChecked : Prop :=
  ∀ (s : State) (address length offset bufLen : Word) (present : Bool), s.phase = .idle → s.cfgStatus = .cfgOk →
    let a := acceptedAs { s.latch with
      op := 4#4, argA := address, argB := length, argOff := offset, bufPresent := present, bufLen := bufLen } s
    let valid := 0 ≤ address.toInt ∧ 0 ≤ offset.toInt ∧ 0 < length.toInt ∧
      address.toInt + length.toInt ≤ s.geom.capacity ∧ offset.toInt + length.toInt ≤ bufLen.toNat
    (present = false →
      ∃ t, exec (.write address length offset present bufLen) s = .next t ∧ Responded 2#3 [] a t) ∧
    (present = true → ¬valid →
      ∃ t, exec (.write address length offset present bufLen) s = .next t ∧ Responded 1#3 [] a t) ∧
    (present = true → valid →
      exec (.write address length offset present bufLen) s = .next { a with
        phase := .wren, seq := { s.seq with curAddr := address, bufIdx := offset, bytesLeft := length } })

/-- R21, R230: a host operation presented while `REQ_READY` is 0 changes nothing. That exec is total there, and so answers the same state, is the model's
reading (log entry 11, DEDUCED): step never runs one then (NoRequestIsTakenWhileNotReady). -/
def Obligations.RequestsWhileNotReadyAreIgnored : Prop :=
  ∀ (s : State) (i : Instr), i.command = none → (s.phase ≠ .idle ∨ s.cfgStatus ≠ .cfgOk) → exec i s = .next s

/-- R59, R230: no step takes a request of the host while an operation is in flight or the configuration is bad. -/
def Obligations.NoRequestIsTakenWhileNotReady : Prop :=
  ∀ s t : State, s.resetIn = none → (s.phase ≠ .idle ∨ s.cfgStatus ≠ .cfgOk) → step s = .next t →
    t.requests = s.requests ∧ t.accepted = s.accepted ∧ t.payload = s.payload ∧ t.latch = s.latch

/-- R105, R191 to R193, R200: accepting a request never makes a transport call, whatever comes of it; and it leaves the configuration,
every byte of the payload buffer and of the chip's array, and the inputs as they were. Of the sequencing registers (R15, R161 to R163, R170) only
those of the operation's rule change. The clause on the latch is about exec alone and is the model's choice, no rule's (log entry 21, DESIGN CHOICE): exec
writes only the operation code and the operation's own fields, and it is step that latches all six registers before it, as R19 says
(StepRunsTheDecodedRequest). -/
def Obligations.AcceptFrame : Prop :=
  ∀ (i : Instr) (s t : State), i.command = none → exec i s = .next t →
    t.trace = s.trace ∧ t.oracle = s.oracle ∧ SameConfig s t ∧ t.requests = s.requests ∧ t.resetIn = s.resetIn ∧
    (∀ a, t.payload.read a = s.payload.read a) ∧ (∀ a, t.oracle.flash.read a = s.oracle.flash.read a) ∧
    ((t.responses = s.responses ∧ t.resp = s.resp) ∨ t.responses = s.responses ++ [t.resp]) ∧
    ((i = .identify ∨ i = .suspend ∨ i = .resume ∨ i = .writeEnable ∨ i = .isWriteInProgress) →
      t.latch = { s.latch with op := t.latch.op } ∧ t.seq = s.seq) ∧
    ((∃ a n, i = .read a n ∨ i = .readFast a n) →
      t.latch = { s.latch with op := t.latch.op, argA := t.latch.argA, argB := t.latch.argB } ∧ t.seq = s.seq) ∧
    (i = .eraseChip →
      t.latch = { s.latch with op := t.latch.op } ∧ t.seq = { s.seq with nLeft := t.seq.nLeft }) ∧
    ((∃ a n, i = .eraseBlock a n ∨ i = .eraseSector a n) →
      t.latch = { s.latch with op := t.latch.op, argA := t.latch.argA, argB := t.latch.argB } ∧
      t.seq = { s.seq with curAddr := t.seq.curAddr, stride := t.seq.stride, nLeft := t.seq.nLeft }) ∧
    ((∃ a n off bp bl, i = .write a n off bp bl) →
      t.seq = { s.seq with curAddr := t.seq.curAddr, bufIdx := t.seq.bufIdx, bytesLeft := t.seq.bytesLeft })

/-! ### The commands -/

/-- R77, R126 to R136: the frame each command transmits, built by the framer, is the one its format gives. -/
def Obligations.TransmittedFramesAreTheEncodings : Prop :=
  ∀ (p : Params) (a : Word) (len : Nat) (data : List Byte),
    encode p .spiWren = .frame (frameWren p) ∧ encode p .spiRdsr = .frame (frameRdsr p) ∧
    encode p (.spiRead a len) = .frame (frameRead p a len) ∧
    encode p (.spiFastRead a len) = .frame (frameFastRead p a len) ∧
    encode p (.spiPp a data) = .frame (framePp p a data) ∧
    encode p (.spiSe a) = .frame (frameSe p a) ∧ encode p (.spiBe a) = .frame (frameBe p a) ∧
    encode p .spiCe = .frame (frameCe p) ∧ encode p .spiDp = .frame (frameDp p) ∧
    encode p .spiRes = .frame (frameRes p) ∧ encode p .spiRdid = .frame (frameRdid p)

/-- R130 to R133, R19 (ISSUE): CE, SE, BE and PP, issued in ISSUE, are one `Send` of their frame; the poll follows. -/
def Obligations.MutatingCommandsSendAndPoll : Prop :=
  ∀ (s : State) (i : Instr) (tx rx : List Byte) (o : Oracle),
    (i = .spiCe ∨ (∃ a, i = .spiSe a) ∨ (∃ a, i = .spiBe a) ∨ (∃ a d, i = .spiPp a d)) →
    encode s.params i = .frame tx → s.phase = .issue →
    s.oracle.answer s.params s.freeCtr tx = (.ok rx, o) →
    exec i s = .next { s.recordCall o (.sendOnly tx) with phase := .postPoll }

/-- R126, R19 (WREN, XFER): WREN is one `Send` of its one byte; an erase goes on to its first command, a write to its poll, and
`writeEnable()` responds. -/
def Obligations.WrenSendsAndGoesOn : Prop :=
  ∀ (s : State) (rx : List Byte) (o : Oracle),
    s.oracle.answer s.params s.freeCtr [s.params.opcWren] = (.ok rx, o) →
    (s.phase = .wren → (s.latch.op = 1#4 ∨ s.latch.op = 2#4 ∨ s.latch.op = 3#4) →
      exec .spiWren s = .next { s.recordCall o (.sendOnly [s.params.opcWren]) with phase := .issue }) ∧
    (s.phase = .wren → s.latch.op = 4#4 →
      exec .spiWren s = .next { s.recordCall o (.sendOnly [s.params.opcWren]) with phase := .prePoll }) ∧
    (s.phase = .xfer → ∃ t, exec .spiWren s = .next t ∧
      Responded 0#3 [] (s.recordCall o (.sendOnly [s.params.opcWren])) t)

/-- R134, R135, R180, R181 (XFER): DP and RES are one `Send` of their one byte, and the operation responds with no data. -/
def Obligations.PowerCommandsSendAndRespond : Prop :=
  ∀ (s : State) (rx : List Byte) (o : Oracle), s.phase = .xfer →
    (s.oracle.answer s.params s.freeCtr [s.params.opcDp] = (.ok rx, o) →
      ∃ t, exec .spiDp s = .next t ∧ Responded 0#3 [] (s.recordCall o (.sendOnly [s.params.opcDp])) t) ∧
    (s.oracle.answer s.params s.freeCtr [s.params.opcRes] = (.ok rx, o) →
      ∃ t, exec .spiRes s = .next t ∧ Responded 0#3 [] (s.recordCall o (.sendOnly [s.params.opcRes])) t)

/-- R128, R129, R136, R43, R81 (XFER): READ, FAST_READ and RDID are one exchange; the response is exactly the bytes received after
the first 4, 6 and 1, as many as were asked for. -/
def Obligations.ReadCommandsRespondWithReceivedBytes : Prop :=
  ∀ (s : State) (tx rx : List Byte) (o : Oracle), s.phase = .xfer →
    s.oracle.answer s.params s.freeCtr tx = (.ok rx, o) →
    (∀ a len, encode s.params (.spiRead a len) = .frame tx →
      ∃ t, exec (.spiRead a len) s = .next t ∧ Responded 0#3 (rx.drop 4) (s.recordCall o (.exchange tx rx)) t ∧
        t.resp.data.length = len) ∧
    (∀ a len, encode s.params (.spiFastRead a len) = .frame tx →
      ∃ t, exec (.spiFastRead a len) s = .next t ∧ Responded 0#3 (rx.drop 6) (s.recordCall o (.exchange tx rx)) t ∧
        t.resp.data.length = len) ∧
    (encode s.params .spiRdid = .frame tx →
      ∃ t, exec .spiRdid s = .next t ∧ Responded 0#3 (rx.drop 1) (s.recordCall o (.exchange tx rx)) t ∧
        t.resp.data.length = 3)

/-- R127, R137 to R139, R151, R19 (PRE_POLL, XFER): a status read in PRE_POLL stays there while bit 0 is 1 and otherwise goes on, an erase to WREN
and a write to its first chunk; in XFER the response is bit 0 as one byte. -/
def Obligations.StatusReadDecidesOnBitZero : Prop :=
  ∀ (s : State) (r0 r1 : Byte) (o : Oracle),
    s.oracle.answer s.params s.freeCtr [s.params.opcRdsr, s.params.fill] = (.ok [r0, r1], o) →
    let c := s.recordCall o (.exchange [s.params.opcRdsr, s.params.fill] [r0, r1])
    (s.phase = .prePoll → r1.getLsbD 0 = true → exec .spiRdsr s = .next c) ∧
    (s.phase = .prePoll → r1.getLsbD 0 = false → (s.latch.op = 1#4 ∨ s.latch.op = 2#4 ∨ s.latch.op = 3#4) →
      exec .spiRdsr s = .next { c with phase := .wren }) ∧
    (s.phase = .prePoll → r1.getLsbD 0 = false → s.latch.op = 4#4 → exec .spiRdsr s = .next { c with phase := .issue }) ∧
    (s.phase = .xfer → r1.getLsbD 0 = true → ∃ t, exec .spiRdsr s = .next t ∧ Responded 0#3 [0x01#8] c t) ∧
    (s.phase = .xfer → r1.getLsbD 0 = false → ∃ t, exec .spiRdsr s = .next t ∧ Responded 0#3 [0x00#8] c t)

/-- R161 to R163, R170, R19 (POST_POLL): behind a mutating command a busy answer changes nothing but the trace; a not-busy one moves the sequencing
registers on, to the next command or to the response. -/
def Obligations.StatusReadAdvancesTheOperation : Prop :=
  ∀ (s : State) (r0 r1 : Byte) (o : Oracle),
    Inv s → s.phase = .postPoll →
    s.oracle.answer s.params s.freeCtr [s.params.opcRdsr, s.params.fill] = (.ok [r0, r1], o) →
    let c := s.recordCall o (.exchange [s.params.opcRdsr, s.params.fill] [r0, r1])
    let n := min s.seq.bytesLeft.toNat 256
    (r1.getLsbD 0 = true → exec .spiRdsr s = .next c) ∧
    (r1.getLsbD 0 = false → s.latch.op = 1#4 →
      ∃ t, exec .spiRdsr s = .next t ∧ Responded 0#3 [] { c with seq := { s.seq with nLeft := 0#32 } } t) ∧
    (r1.getLsbD 0 = false → (s.latch.op = 2#4 ∨ s.latch.op = 3#4) →
      ∃ t, exec .spiRdsr s = .next t ∧
        t.seq.curAddr.toNat = s.seq.curAddr.toNat + s.seq.stride.toNat ∧
        t.seq.nLeft.toNat = s.seq.nLeft.toNat - 1 ∧
        (1 < s.seq.nLeft.toNat → t = { c with phase := .issue, seq := { s.seq with
          curAddr := t.seq.curAddr, nLeft := t.seq.nLeft } }) ∧
        (s.seq.nLeft.toNat = 1 → Responded 0#3 [] { c with seq := { s.seq with
          curAddr := t.seq.curAddr, nLeft := t.seq.nLeft } } t)) ∧
    (r1.getLsbD 0 = false → s.latch.op = 4#4 →
      ∃ t, exec .spiRdsr s = .next t ∧
        t.seq.curAddr.toNat = s.seq.curAddr.toNat + n ∧ t.seq.bufIdx.toNat = s.seq.bufIdx.toNat + n ∧
        t.seq.bytesLeft.toNat = s.seq.bytesLeft.toNat - n ∧
        (n < s.seq.bytesLeft.toNat → t = { c with phase := .issue, seq := { s.seq with
          curAddr := t.seq.curAddr, bufIdx := t.seq.bufIdx, bytesLeft := t.seq.bytesLeft } }) ∧
        (s.seq.bytesLeft.toNat = n → Responded 0#3 [] { c with seq := { s.seq with
          curAddr := t.seq.curAddr, bufIdx := t.seq.bufIdx, bytesLeft := t.seq.bytesLeft } } t))

/-- R194, R199, R200: a transport call that fails ends the operation there: `RESP_ERR` holds the error unchanged, no data, IDLE; the failed call
is in the trace, and latch and sequencing registers keep what they held. That exec does the same with a command outside the phase that issues it is the
model's choice, no rule's (log entry 12, DESIGN CHOICE): step never runs one (StepRunsTheSelectedCommand). -/
def Obligations.TransportErrorEndsTheOperation : Prop :=
  ∀ (s : State) (i : Instr) (tx : List Byte) (e : TransportErr) (o : Oracle),
    i.command ≠ none → encode s.params i = .frame tx →
    s.oracle.answer s.params s.freeCtr tx = (.err e, o) →
    ∃ ev t, exec i s = .next t ∧ Responded 3#3 [] (s.recordCall o ev) t ∧ t.resp.err = e ∧
      (i.command = some .rdsr ∨ i.command = some .read ∨ i.command = some .fastRead ∨ i.command = some .rdid →
        ev = .exchangeErr tx e) ∧
      (i.command ≠ some .rdsr → i.command ≠ some .read → i.command ≠ some .fastRead → i.command ≠ some .rdid →
        ev = .sendOnlyErr tx e)

/-- R126 to R136 ("block state written: none beyond PHASE"): what a command leaves unchanged; the response registers change only by
delivering a response, and only a status read that finds the chip not busy behind a
mutating command moves the sequencing registers. What exec does with a command outside the phase that issues it is the model's choice (log entry 12, DESIGN
CHOICE): step never runs one (StepRunsTheSelectedCommand). -/
def Obligations.CommandFrame : Prop :=
  ∀ (i : Instr) (s t : State), i.command ≠ none → exec i s = .next t →
    SameConfig s t ∧ t.latch = s.latch ∧ t.requests = s.requests ∧ t.payload = s.payload ∧ t.resetIn = s.resetIn ∧
    t.accepted = s.accepted ∧ (∃ ev, t.trace = s.trace ++ [ev]) ∧
    ((t.responses = s.responses ∧ t.resp = s.resp) ∨ (t.phase = .idle ∧ t.responses = s.responses ++ [t.resp])) ∧
    (i.command ≠ some .rdsr ∨ s.phase ≠ .postPoll → t.seq = s.seq)

/-- R65, R66: behind the reference chip, a command that succeeds changes no byte of the array, but for the status read that completes the effect in
flight, which changes only the bytes that effect touches. That no other frame is heard as a status read needs the opcodes distinct (R85).
That exec makes the call of a command outside the phase that issues it is the model's choice (log entry 12, DESIGN CHOICE). -/
def Obligations.ChipArrayFrame : Prop :=
  ∀ (i : Instr) (s t : State) (c : Chip) (plan : List (Option Failure)),
    i.command ≠ none → s.oracle = .chip c plan → (plan = [] ∨ plan.head? = some none) → c.mem.wf = true →
    exec i s = .next t →
    (∀ x, (∀ e, c.pending = some e → ¬ touches c.geom x e) → t.oracle.flash.read x = c.mem.read x) ∧
    (s.params.wf = true → i.command ≠ some .rdsr → t.oracle.flash = c.mem)

/-! ### Steps -/

/-- R19 (ACCEPT), R70: a request that decodes is run by the step that takes it, in the state with the request taken off the
host's list, its words in the latch (R14) and its buffer attached (R42). -/
def Obligations.StepRunsTheDecodedRequest : Prop :=
  ∀ (s : State) (r : Request) (rest : List Request) (i : Instr),
    s.resetIn = none → s.phase = .idle → s.cfgStatus = .cfgOk → s.requests = r :: rest →
    decodeRequest r.words = .ok i →
    step s = exec i { s with
      requests := rest, payload := r.payload,
      latch := ⟨r.words.w0.extractLsb' 0 4, r.words.w1, r.words.w2, r.words.w3, r.words.w0.getLsbD 8, r.words.w4⟩ }

/-- R21, R222: with no request presented, or in a bad configuration, the block waits in IDLE. -/
def Obligations.IdleBlockWaits : Prop :=
  ∀ s : State, s.resetIn = none → s.phase = .idle → (s.requests = [] ∨ s.cfgStatus ≠ .cfgOk) → step s = .next s

/-- R19, R126 to R136, R150 to R182: outside IDLE the phase and the latched operation select the command a step runs. -/
def Obligations.StepRunsTheSelectedCommand : Prop :=
  ∀ s : State, s.resetIn = none →
    (s.phase = .prePoll ∨ s.phase = .postPoll → 1 ≤ s.latch.op.toNat → s.latch.op.toNat ≤ 4 →
      step s = exec .spiRdsr s) ∧
    (s.phase = .wren → 1 ≤ s.latch.op.toNat → s.latch.op.toNat ≤ 4 → step s = exec .spiWren s) ∧
    (s.phase = .issue →
      (s.latch.op = 1#4 → step s = exec .spiCe s) ∧
      (s.latch.op = 2#4 → step s = exec (.spiBe s.seq.curAddr) s) ∧
      (s.latch.op = 3#4 → step s = exec (.spiSe s.seq.curAddr) s) ∧
      (s.latch.op = 4#4 → s.seq.bufIdx.toNat + min s.seq.bytesLeft.toNat s.geom.pageSize ≤ s.latch.bufLen.toNat →
        step s = exec (.spiPp s.seq.curAddr
          ((List.range (min s.seq.bytesLeft.toNat s.geom.pageSize)).map
            (fun j => s.payload.read (s.seq.bufIdx.toNat + j)))) s)) ∧
    (s.phase = .xfer →
      (s.latch.op = 0#4 → step s = exec .spiRdid s) ∧
      (s.latch.op = 5#4 → step s = exec (.spiRead s.latch.argA s.latch.argB.toInt.toNat) s) ∧
      (s.latch.op = 6#4 → step s = exec (.spiFastRead s.latch.argA s.latch.argB.toInt.toNat) s) ∧
      (s.latch.op = 7#4 → step s = exec .spiDp s) ∧
      (s.latch.op = 8#4 → step s = exec .spiRes s) ∧
      (s.latch.op = 9#4 → step s = exec .spiWren s) ∧
      (s.latch.op = 10#4 → step s = exec .spiRdsr s))

/-- R7, R12, R13 ("never mutated"): no step but a reset changes the parameters, the straps sampled, the status or the geometry. -/
def Obligations.ConfigurationNeverChanges : Prop :=
  ∀ s t : State, s.resetIn = none → step s = .next t → SameConfig s t

/-- R51, R56, R83, R86: a step makes at most one transport call, and what it sends is the frame of one of the eleven commands, carried by that command's
primitive. -/
def Obligations.OnlyTheElevenCommandsAreSent : Prop :=
  ∀ s t : State, Inv s → s.resetIn = none → step s = .next t →
    t.trace = s.trace ∨
    ∃ i tx ev, WellFormed i = true ∧ encode s.params i = .frame tx ∧ t.trace = s.trace ++ [ev] ∧
      ((i.command = some .rdsr ∨ i.command = some .read ∨ i.command = some .fastRead ∨ i.command = some .rdid) ∧
          ((∃ rx, rx.length = tx.length ∧ ev = .exchange tx rx) ∨ ∃ e, ev = .exchangeErr tx e) ∨
        (i.command = some .wren ∨ i.command = some .pp ∨ i.command = some .se ∨ i.command = some .be ∨
          i.command = some .ce ∨ i.command = some .dp ∨ i.command = some .res) ∧
          (ev = .sendOnly tx ∨ ∃ e, ev = .sendOnlyErr tx e))

/-- R18 to R20: a phase is left only for the next one of the operation's route, for itself (a poll that saw busy), or for IDLE with the
response; the operation in flight does not change meanwhile. -/
def Obligations.PhasesFollowTheRoute : Prop :=
  ∀ s t : State, Inv s → s.resetIn = none → step s = .next t →
    (s.phase = .idle → t.phase ≠ .idle →
      (t.phase = .xfer ∧ routeClass t.latch.op = some .q) ∨ (t.phase = .prePoll ∧ routeClass t.latch.op = some .e) ∨
      (t.phase = .wren ∧ routeClass t.latch.op = some .w)) ∧
    (s.phase ≠ .idle → t.latch = s.latch ∧
      ((t.phase = .idle ∧ t.resp.code = 3#3) ∨
        (s.phase = .prePoll ∧ t.phase = .prePoll ∧ t.seq = s.seq) ∨
        (s.phase = .prePoll ∧ t.phase = (if s.latch.op = 4#4 then .issue else .wren)) ∨
        (s.phase = .wren ∧ t.phase = (if s.latch.op = 4#4 then .prePoll else .issue)) ∨
        (s.phase = .issue ∧ t.phase = .postPoll) ∨
        (s.phase = .postPoll ∧ t.phase = .postPoll ∧ t.seq = s.seq) ∨
        (s.phase = .postPoll ∧ t.phase = .issue) ∨
        (s.phase = .postPoll ∧ t.phase = .idle ∧ t.resp.code = 0#3) ∨
        (s.phase = .xfer ∧ t.phase = .idle ∧ t.resp.code = 0#3)))

/-- R75, R190: the codes a response can have, which of them an accept and which a transport call gives, and the data of each: none but for
`OK`, and there as much as the operation returns. -/
def Obligations.ResponsesFitTheOperation : Prop :=
  ∀ s t : State, Inv s → s.resetIn = none → step s = .next t → t.responses ≠ s.responses →
    t.resp.code.toNat ≤ 4 ∧ (t.resp.code ≠ 0#3 → t.resp.data = []) ∧
    (t.resp.code = 0#3 ∨ t.resp.code = 3#3 → s.phase ≠ .idle) ∧
    (t.resp.code = 1#3 ∨ t.resp.code = 2#3 ∨ t.resp.code = 4#3 → s.phase = .idle) ∧
    (t.resp.code = 0#3 →
      (s.latch.op = 0#4 → t.resp.data.length = 3) ∧
      (s.latch.op = 10#4 → t.resp.data = [0x00#8] ∨ t.resp.data = [0x01#8]) ∧
      (s.latch.op = 5#4 ∨ s.latch.op = 6#4 → t.resp.data.length = s.latch.argB.toNat) ∧
      (s.latch.op ≠ 0#4 → s.latch.op ≠ 10#4 → s.latch.op ≠ 5#4 → s.latch.op ≠ 6#4 → t.resp.data = []))

/-- R24, R199, R201: a step that returns the machine to IDLE delivers exactly one response, a step that does not delivers none. -/
def Obligations.OneResponsePerOperation : Prop :=
  ∀ s t : State, Inv s → s.resetIn = none → step s = .next t →
    (t.responses = s.responses ∧ t.resp = s.resp ∧ (t.phase = .idle → t = s)) ∨
    (t.phase = .idle ∧ t.responses = s.responses ++ [t.resp] ∧
      (s.phase = .idle → t.accepted = s.accepted + 1) ∧ (s.phase ≠ .idle → t.accepted = s.accepted))

/-- R57: a mutating operation that responds `OK` does so on a status read, made by that step, whose bit 0 was 0. -/
def Obligations.OkMeansTheChipWasSeenNotBusy : Prop :=
  ∀ s t : State, Inv s → s.resetIn = none → s.phase ≠ .idle → 1 ≤ s.latch.op.toNat → s.latch.op.toNat ≤ 4 →
    step s = .next t → t.phase = .idle → t.resp.code = 0#3 →
    s.phase = .postPoll ∧ ∃ r0 r1, r1.getLsbD 0 = false ∧
      t.trace = s.trace ++ [.exchange [s.params.opcRdsr, s.params.fill] [r0, r1]]

/-! ### The invariant -/

/-- What a reset of a well-formed instance leaves meets the invariant, and `State.reset` is such a state. -/
def Obligations.ResetMeetsTheInvariant : Prop :=
  (∀ (p : Params) (straps : Straps) (n : Nat) (rs : List Request) (m : Memory) (o : Oracle),
    p.wf = true → (∀ r ∈ rs, r.payload.wf = true) → m.wf = true → o.wf = true →
    Inv (State.boot p straps n rs m o)) ∧
  Inv State.reset

/-- R19, R20: from every state that meets the invariant a step completes, with no fault and no refusal, in a state that meets it. -/
def Obligations.StepKeepsTheInvariant : Prop :=
  ∀ s : State, Inv s → ∃ t, step s = .next t ∧ Inv t

/-- Every state a machine can come to, by its own steps, by requests, changes of the buffer and resets, meets the invariant, and its next step completes. -/
def Obligations.EveryReachableStateRuns : Prop :=
  ∀ s : State, Reachable s → Inv s ∧ Runs s

/-- R11, R16, R22, R62, R201: nothing an earlier operation left in the latch, the sequencing registers or the response registers can be told from what the
machine does next: two states that differ in nothing else stay so, step by step. -/
def Obligations.EarlierOperationsLeaveNoTrace : Prop :=
  ∀ s t : State, Alike s t → AlikeOutcome (step s) (step t)

/-! ### Polling -/

/-- R139, R140, R210: as long as every status read answers busy, the machine stays in its poll, however long: no response, no error, only status reads. -/
def Obligations.BusyChipHoldsThePoll : Prop :=
  ∀ (s : State) (busyAnswers : List (Byte × Byte)) (rest : List Reply),
    s.resetIn = none → (s.phase = .prePoll ∨ s.phase = .postPoll) → 1 ≤ s.latch.op.toNat → s.latch.op.toNat ≤ 4 →
    (∀ a ∈ busyAnswers, a.2.getLsbD 0 = true) →
    s.oracle = .script (busyAnswers.map (fun a => .ok [a.1, a.2]) ++ rest) →
    run busyAnswers.length s = .next { s with
      oracle := .script rest, freeCtr := s.freeCtr + busyAnswers.length,
      trace := s.trace ++ busyAnswers.map (fun a => .exchange [s.params.opcRdsr, s.params.fill] [a.1, a.2]) }

/-- R139: a poll makes one status read for each busy answer and one more, and then the operation goes on. -/
def Obligations.PollEndsAtTheFirstNotBusy : Prop :=
  ∀ (s : State) (x : Poll) (rest : List Reply),
    s.resetIn = none → s.phase = .prePoll → 1 ≤ s.latch.op.toNat → s.latch.op.toNat ≤ 4 → x.ok →
    s.oracle = .script (x.replies ++ rest) →
    run (x.whileBusy.length + 1) s = .next { s with
      oracle := .script rest, freeCtr := s.freeCtr + (x.whileBusy.length + 1), trace := s.trace ++ x.events s.params,
      phase := if s.latch.op = 4#4 then .issue else .wren }

/-! ### Whole operations -/

/-- R150 to R153, R180 to R182: a valid class Q operation is two steps: the accept, and one transport call whose answer is the response. -/
def Obligations.TransferOperationsTakeTwoSteps : Prop :=
  ∀ (s : State) (r : Request) (rest : List Request) (i c : Instr) (tx rx : List Byte) (more : List Reply),
    Inv s → s.resetIn = none → s.phase = .idle → s.cfgStatus = .cfgOk → s.requests = r :: rest →
    decodeRequest r.words = .ok i →
    ((i = .identify ∧ c = .spiRdid) ∨ (i = .isWriteInProgress ∧ c = .spiRdsr) ∨ (i = .suspend ∧ c = .spiDp) ∨
      (i = .resume ∧ c = .spiRes) ∨ (i = .writeEnable ∧ c = .spiWren) ∨
      (∃ a n, i = .read a n ∧ c = .spiRead a n.toNat ∧ readInRange s.geom a n = true) ∨
      (∃ a n, i = .readFast a n ∧ c = .spiFastRead a n.toNat ∧ readInRange s.geom a n = true)) →
    encode s.params c = .frame tx → s.oracle = .script (.ok rx :: more) → rx.length = tx.length →
    ∃ t, run 2 s = .next t ∧ t.phase = .idle ∧ t.resp.code = 0#3 ∧ t.requests = rest ∧
      t.oracle = .script more ∧ t.responses = s.responses ++ [t.resp] ∧ t.seq = s.seq ∧
      t.resp.data = (if i = .isWriteInProgress then [if (rx.getD 1 0#8).getLsbD 0 then 0x01#8 else 0x00#8]
        else if c.command = some .rdid then rx.drop 1 else if c.command = some .read then rx.drop 4
        else if c.command = some .fastRead then rx.drop 6 else []) ∧
      t.trace = s.trace ++ [if c.command = some .wren ∨ c.command = some .dp ∨ c.command = some .res then .sendOnly tx
        else .exchange tx rx]

/-- R160, R162, R163: a valid `eraseBlock` or `eraseSector` makes exactly this sequence of calls, whatever the chip's answers to the status reads: one poll, one
WREN, and for each unit in ascending order one erase command at its address and one poll; then it responds `OK`. -/
def Obligations.EraseRunsUnitByUnit : Prop :=
  ∀ (s : State) (r : Request) (rest : List Request) (first count : Word) (opc : Byte) (size : Nat)
    (poll0 : Poll) (polls : List Poll) (more : List Reply),
    Inv s → s.resetIn = none → s.phase = .idle → s.cfgStatus = .cfgOk → s.requests = r :: rest →
    ((decodeRequest r.words = .ok (.eraseBlock first count) ∧ eraseBlockInRange s.geom first count = true ∧
        opc = s.params.opcBe ∧ size = s.geom.blockSize) ∨
      (decodeRequest r.words = .ok (.eraseSector first count) ∧ eraseSectorInRange s.geom first count = true ∧
        opc = s.params.opcSe ∧ size = s.geom.sectorSize)) →
    poll0.ok → (∀ x ∈ polls, x.ok) → polls.length = count.toNat →
    s.oracle = .script (poll0.replies ++ .ok [] :: (unitReplies polls ++ more)) →
    ∃ t, run (1 + poll0.replies.length + 1 + (unitReplies polls).length) s = .next t ∧
      t.phase = .idle ∧ t.resp.code = 0#3 ∧ t.resp.data = [] ∧ t.requests = rest ∧ t.oracle = .script more ∧
      t.responses = s.responses ++ [t.resp] ∧
      t.trace = s.trace ++ poll0.events s.params ++ .sendOnly [s.params.opcWren] ::
        unitEvents s.params (fun k => frame4 opc (BitVec.ofNat 32 ((first.toNat + k) * size))) 0 polls

/-- R161: `eraseChip`: poll, WREN, CE, poll, `OK`. -/
def Obligations.EraseChipRuns : Prop :=
  ∀ (s : State) (r : Request) (rest : List Request) (poll0 poll1 : Poll) (more : List Reply),
    Inv s → s.resetIn = none → s.phase = .idle → s.cfgStatus = .cfgOk → s.requests = r :: rest →
    decodeRequest r.words = .ok .eraseChip → poll0.ok → poll1.ok →
    s.oracle = .script (poll0.replies ++ .ok [] :: (.ok [] :: (poll1.replies ++ more))) →
    ∃ t, run (1 + poll0.replies.length + 2 + poll1.replies.length) s = .next t ∧
      t.phase = .idle ∧ t.resp.code = 0#3 ∧ t.resp.data = [] ∧ t.requests = rest ∧ t.oracle = .script more ∧
      t.responses = s.responses ++ [t.resp] ∧
      t.trace = s.trace ++ poll0.events s.params ++
        .sendOnly [s.params.opcWren] :: .sendOnly [s.params.opcCe] :: poll1.events s.params

/-- R170 to R175: a valid `write` makes exactly this sequence of calls, whatever the chip's answers to the status reads: one WREN, one poll, and for each
chunk of the payload, 256 bytes but the last, one page-program at `address + 256 * k` with the payload bytes from `offset + 256 * k` on, and
one poll; then it responds `OK`. The split is by payload position, not by the chip's pages (R173). -/
def Obligations.WriteSplitsThePayload : Prop :=
  ∀ (s : State) (r : Request) (rest : List Request) (address length offset bufLen : Word)
    (poll0 : Poll) (polls : List Poll) (more : List Reply),
    Inv s → s.resetIn = none → s.phase = .idle → s.cfgStatus = .cfgOk → s.requests = r :: rest →
    decodeRequest r.words = .ok (.write address length offset true bufLen) →
    writeInRange s.geom address length offset bufLen = true →
    poll0.ok → (∀ x ∈ polls, x.ok) → polls.length = (length.toNat + 255) / 256 →
    s.oracle = .script (.ok [] :: (poll0.replies ++ (unitReplies polls ++ more))) →
    ∃ t, run (1 + 1 + poll0.replies.length + (unitReplies polls).length) s = .next t ∧
      t.phase = .idle ∧ t.resp.code = 0#3 ∧ t.resp.data = [] ∧ t.requests = rest ∧ t.oracle = .script more ∧
      t.responses = s.responses ++ [t.resp] ∧
      t.trace = s.trace ++ .sendOnly [s.params.opcWren] :: (poll0.events s.params ++
        unitEvents s.params (fun k => frame4 s.params.opcPp (BitVec.ofNat 32 (address.toNat + 256 * k)) ++
          (List.range (min 256 (length.toNat - 256 * k))).map
            (fun j => r.payload.read (offset.toNat + 256 * k + j))) 0 polls)

/-! ### The reference chip (informative, R64 to R66) -/

/-- R66, R49: when a page-program of any length completes, each of its last `pageSize` bytes is at its wrapped place inside the page that holds `a`, later
bytes over earlier ones, and every byte of the array outside those places is as it was. -/
def Obligations.PageProgramWrapsInItsPage : Prop :=
  ∀ (c : Chip) (a : Nat) (data : List Byte), c.mem.wf = true → 0 < c.geom.pageSize → c.pending = some (.program a data) →
    (∀ j, j < data.length → data.length ≤ j + c.geom.pageSize →
      c.complete.mem.read (a - a % c.geom.pageSize + (a + j) % c.geom.pageSize) = data.getD j 0#8) ∧
    (∀ x, (∀ j, j < data.length → x ≠ a - a % c.geom.pageSize + (a + j) % c.geom.pageSize) →
      c.complete.mem.read x = c.mem.read x) ∧
    c.complete.wel = false ∧ c.complete.busy = false ∧ c.complete.pending = none

/-- R65, R226, R238: a mutating command finds the latch set or has no effect at all, and a write-enable sent to a busy chip is lost. -/
def Obligations.ChipIgnoresCommandsWithoutLatch : Prop :=
  ∀ (p : Params) (call : Nat) (c : Chip) (tx : List Byte) (i : Instr),
    p.wf = true → WellFormed i = true → encode p i = .frame tx → c.dpd = false →
    ((i = .spiCe ∨ (∃ a, i = .spiSe a) ∨ (∃ a, i = .spiBe a) ∨ (∃ a d, i = .spiPp a d)) →
      (c.wel = false ∨ c.busy = true → (c.answer p call tx).2 = c) ∧
      (c.wel = true → c.busy = false → (c.answer p call tx).2.busy = true ∧
        (c.answer p call tx).2.busyReadsLeft = c.d ∧ (c.answer p call tx).2.mem = c.mem)) ∧
    (i = .spiWren → (c.busy = true → (c.answer p call tx).2 = c) ∧
      (c.busy = false → (c.answer p call tx).2 = { c with wel := true }))

/-- R65 (deep power-down; test program P6): a chip in deep power-down hears nothing but the release, which takes it out; a deep-power-down command
takes an awake chip in. -/
def Obligations.ChipInDeepPowerDownHearsOnlyRelease : Prop :=
  ∀ (p : Params) (call : Nat) (c : Chip) (tx : List Byte) (i : Instr),
    p.wf = true → WellFormed i = true → encode p i = .frame tx →
    (c.dpd = true → i ≠ .spiRes → (c.answer p call tx).2 = c) ∧
    (i = .spiRes → (c.answer p call tx).2 = { c with dpd := false }) ∧
    (i = .spiDp → c.dpd = false → (c.answer p call tx).2 = { c with dpd := true })

/-- R65: what an awake chip answers. A data read gives the bytes of the array, without the effect in flight and modulo the capacity, and an identify the
three identify bytes, neither with any effect; a status read gives the busy bit in bit 0 after counting one busy read off, or after completing the effect. -/
def Obligations.ChipAnswersReadsAndStatus : Prop :=
  ∀ (p : Params) (call : Nat) (c : Chip), p.wf = true → c.dpd = false →
    (∀ a len tx, WellFormed (.spiRead a len) = true → encode p (.spiRead a len) = .frame tx →
      (c.answer p call tx).2 = c ∧ (c.answer p call tx).1.length = tx.length ∧
      ∀ j, j < len → (c.answer p call tx).1[4 + j]? = some (c.mem.read ((a.toNat + j) % c.geom.capacity))) ∧
    (∀ a len tx, WellFormed (.spiFastRead a len) = true → encode p (.spiFastRead a len) = .frame tx →
      (c.answer p call tx).2 = c ∧ (c.answer p call tx).1.length = tx.length ∧
      ∀ j, j < len → (c.answer p call tx).1[6 + j]? = some (c.mem.read ((a.toNat + j) % c.geom.capacity))) ∧
    (∀ tx, encode p .spiRdid = .frame tx →
      (c.answer p call tx).2 = c ∧ (c.answer p call tx).1.length = 4 ∧
      (c.answer p call tx).1.drop 1 = [c.id0, c.id1, c.id2]) ∧
    (∀ tx, encode p .spiRdsr = .frame tx →
      ∃ r0 r1, (c.answer p call tx).1 = [r0, r1] ∧
        (c.busy = false → r1.getLsbD 0 = false ∧ (c.answer p call tx).2 = c) ∧
        (c.busy = true → c.busyReadsLeft = 0 → r1.getLsbD 0 = false ∧ (c.answer p call tx).2 = c.complete) ∧
        (c.busy = true → 0 < c.busyReadsLeft → r1.getLsbD 0 = true ∧
          (c.answer p call tx).2 = { c with busyReadsLeft := c.busyReadsLeft - 1 }))

/-- Test vectors E2 and P1 of the spec, in general: behind the reference chip, a write that stays inside one page and then a read of the same range
return the bytes written, however long the chip is busy. -/
def Obligations.WriteThenReadReturnsTheBytes : Prop :=
  ∀ (s : State) (w r : Request) (address length offset bufLen : Word) (c : Chip),
    Inv s → s.resetIn = none → s.phase = .idle → s.cfgStatus = .cfgOk → s.requests = [w, r] →
    decodeRequest w.words = .ok (.write address length offset true bufLen) →
    decodeRequest r.words = .ok (.read address length) →
    writeInRange s.geom address length offset bufLen = true →
    address.toNat % 256 + length.toNat ≤ 256 →
    s.oracle = .chip c [] → c.geom = s.geom → c.dpd = false → c.busy = false →
    ∃ k t, run k s = .next t ∧ t.phase = .idle ∧ t.requests = [] ∧
      t.responses.length = s.responses.length + 2 ∧ t.resp.code = 0#3 ∧
      t.resp.data = (List.range length.toNat).map (fun j => w.payload.read (offset.toNat + j))

/-- R65, R84: an awake chip acts on the first byte of a frame alone, whatever the frame's length: bytes 1 to 3 are the address where the command has one,
every byte from index 4 on is a page-program's data, and as many bytes are answered as were sent. Any other first byte has no effect. The address of
a frame that ends before its byte 3 is left open (log entry 16). -/
def Obligations.ChipActsOnTheFirstByte : Prop :=
  ∀ (p : Params) (call : Nat) (c : Chip) (body : List Byte), p.wf = true → c.dpd = false →
    let after (cmd : Command) := (c.answer p call (p.opcode cmd :: body)).2
    let rx (cmd : Command) := (c.answer p call (p.opcode cmd :: body)).1
    let started (e : ChipEffect) := { c with busy := true, busyReadsLeft := c.d, pending := some e }
    (∀ cmd, (rx cmd).length = body.length + 1) ∧
    (∀ b, (∀ cmd, p.opcode cmd ≠ b) → (c.answer p call (b :: body)).2 = c) ∧
    after .dp = { c with dpd := true } ∧ after .res = c ∧ after .rdid = c ∧ after .read = c ∧ after .fastRead = c ∧
    after .wren = (if c.busy then c else { c with wel := true }) ∧
    (c.busy = false → after .rdsr = c) ∧
    (c.busy = true → c.busyReadsLeft = 0 → after .rdsr = c.complete) ∧
    (c.busy = true → 0 < c.busyReadsLeft → after .rdsr = { c with busyReadsLeft := c.busyReadsLeft - 1 }) ∧
    (∀ b, (rx .rdsr)[1]? = some b → b.getLsbD 0 = (after .rdsr).busy) ∧
    (∀ j b, j < 3 → (rx .rdid)[1 + j]? = some b → [c.id0, c.id1, c.id2][j]? = some b) ∧
    ((c.busy = true ∨ c.wel = false) → after .ce = c ∧ after .se = c ∧ after .be = c ∧ after .pp = c) ∧
    (c.busy = false → c.wel = true → after .ce = started .eraseAll ∧ (∃ a, after .se = started (.eraseSector a)) ∧
      (∃ a, after .be = started (.eraseBlock a)) ∧ (∃ a, after .pp = started (.program a (body.drop 3)))) ∧
    (∀ b1 b2 b3 more, body = b1 :: b2 :: b3 :: more →
      (c.busy = false → c.wel = true →
        after .se = started (.eraseSector (addressOf b1 b2 b3).toNat) ∧
        after .be = started (.eraseBlock (addressOf b1 b2 b3).toNat) ∧
        after .pp = started (.program (addressOf b1 b2 b3).toNat more)) ∧
      (∀ j, j < more.length →
        (rx .read)[4 + j]? = some (c.mem.read (((addressOf b1 b2 b3).toNat + j) % c.geom.capacity))) ∧
      (∀ j, j + 2 < more.length →
        (rx .fastRead)[6 + j]? = some (c.mem.read (((addressOf b1 b2 b3).toNat + j) % c.geom.capacity))))
end

