-- ==== Sys2Proof/Laws/Geometry.lean ====
section
/-! SUPPORT. The laws of the geometry record (spec/40_geometry_validator.md R101 to R103, R114) and of the checks made against it. -/

namespace Sys2Proof.Machine

section
variable (r : GeomRow)

@[simp] theorem Geom.ofRow_pageSize : (Geom.ofRow r).pageSize = 256 := rfl
theorem Geom.ofRow_sectorSize : (Geom.ofRow r).sectorSize = 256 * r.pagesPerSector.toNat := rfl
theorem Geom.ofRow_blockSize :
    (Geom.ofRow r).blockSize = (Geom.ofRow r).sectorSize * r.sectorsPerBlock.toNat := rfl
theorem Geom.ofRow_capacity : (Geom.ofRow r).capacity = (Geom.ofRow r).blockSize * r.blockCount.toNat := rfl
theorem Geom.ofRow_capacity_bytes : (Geom.ofRow r).capacity = r.bytes := rfl
theorem Geom.ofRow_capacity_sectors : (Geom.ofRow r).capacity =
    (Geom.ofRow r).sectorSize * (r.sectorsPerBlock.toNat * r.blockCount.toNat) := by
  rw [Geom.ofRow_capacity, Geom.ofRow_blockSize, Nat.mul_assoc]

end

/-- What R103 asks of a row. -/
theorem GeomRow.wf_iff (r : GeomRow) : r.wf = true ↔
    1 ≤ r.pagesPerSector.toNat ∧ 1 ≤ r.sectorsPerBlock.toNat ∧ 1 ≤ r.blockCount.toNat ∧ r.bytes ≤ 2 ^ 24 := by
  simp only [GeomRow.wf, Bool.and_eq_true, decide_eq_true_eq, and_assoc]

/-- A record that was looked up comes from a well-formed row (R100, R103). -/
theorem geomLookup_some (p : Params) (v : Byte) (g : Geom) (hp : p.wf = true) (h : geomLookup p v = some g) :
    ∃ r : GeomRow, p.geomRom[v.toNat]? = some r ∧ r.wf = true ∧ g = Geom.ofRow r := by
  simp only [geomLookup, Option.map_eq_some_iff] at h
  obtain ⟨r, hr, rfl⟩ := h
  simp only [Params.wf, Bool.and_eq_true, List.all_eq_true] at hp
  exact ⟨r, hr, hp.2 r (List.mem_of_getElem? hr), rfl⟩

/-- The sizes of a well-formed row (R103). -/
theorem Geom.sizes (r : GeomRow) (h : r.wf = true) :
    256 ≤ (Geom.ofRow r).sectorSize ∧ (Geom.ofRow r).sectorSize ≤ (Geom.ofRow r).blockSize ∧
    (Geom.ofRow r).blockSize ≤ (Geom.ofRow r).capacity ∧ (Geom.ofRow r).capacity ≤ 2 ^ 24 := by
  obtain ⟨h1, h2, h3, h4⟩ := (GeomRow.wf_iff r).1 h
  refine ⟨?_, ?_, ?_, h4⟩
  · rw [Geom.ofRow_sectorSize]; omega
  · rw [Geom.ofRow_blockSize]; exact Nat.le_mul_of_pos_right _ h2
  · rw [Geom.ofRow_capacity]; exact Nat.le_mul_of_pos_right _ h3

/-- A word read as a two's complement value that is not negative is the word itself (R8). -/
theorem sext_of_nonneg (w : Word) (h : 0 ≤ sext w) : sext w = zext w := by
  simp only [sext, zext] at *
  rw [BitVec.toInt_eq_toNat_cond] at *
  split at h
  · next hlt => rw [if_pos hlt]
  · next hlt => have := w.isLt; omega

theorem zext_lt (w : Word) : zext w < 2 ^ 32 := w.isLt

/-- A number that fits a register is read back from it. -/
theorem zext_ofNat (n : Nat) (h : n < 2 ^ 32) : zext (BitVec.ofNat 32 n) = n := by
  simp only [zext, BitVec.toNat_ofNat]
  exact Nat.mod_eq_of_lt h

/-- The check of R107, on natural numbers. -/
theorem readInRange_iff (g : Geom) (a n : Word) : readInRange g a n = true ↔
    0 ≤ sext a ∧ 0 < sext n ∧ sext a + sext n ≤ g.capacity := by
  simp [readInRange, and_assoc]

/-- The check of R108, on exact integers. -/
theorem writeInRange_iff (g : Geom) (a n off bl : Word) : writeInRange g a n off bl = true ↔
    0 ≤ sext a ∧ 0 ≤ sext off ∧ 0 < sext n ∧ sext a + sext n ≤ g.capacity ∧ sext off + sext n ≤ zext bl := by
  simp [writeInRange, and_assoc]

/-- The check of R109, on exact integers. -/
theorem eraseBlockInRange_iff (g : Geom) (b n : Word) : eraseBlockInRange g b n = true ↔
    0 ≤ sext b ∧ 0 < sext n ∧ sext b + sext n ≤ g.blockCount.toNat := by
  simp [eraseBlockInRange, and_assoc]

/-- The check of R110, on exact integers. -/
theorem eraseSectorInRange_iff (g : Geom) (x n : Word) : eraseSectorInRange g x n = true ↔
    0 ≤ sext x ∧ 0 < sext n ∧ (sext x + sext n) * g.sectorSize ≤ g.capacity := by
  simp [eraseSectorInRange, and_assoc]

/-- What a passed check of an erase says, on natural numbers: `first + count` units of `size` bytes fit the chip. -/
theorem erase_units_fit (g : Geom) (r : GeomRow) (hr : g = Geom.ofRow r) (first count : Word) (size : Nat)
    (h : (eraseBlockInRange g first count = true ∧ size = g.blockSize) ∨
      (eraseSectorInRange g first count = true ∧ size = g.sectorSize)) :
    sext first = zext first ∧ sext count = zext count ∧ 1 ≤ zext count ∧
    (zext first + zext count) * size ≤ g.capacity := by
  have main : ∀ bound : Nat, 0 ≤ sext first → 0 < sext count → sext first + sext count ≤ bound →
      sext first = zext first ∧ sext count = zext count ∧ 1 ≤ zext count ∧ zext first + zext count ≤ bound := by
    intro bound h1 h2 h3
    have e1 := sext_of_nonneg first h1
    have e2 := sext_of_nonneg count (by omega)
    omega
  rcases h with ⟨h, rfl⟩ | ⟨h, rfl⟩
  · obtain ⟨h1, h2, h3⟩ := (eraseBlockInRange_iff _ _ _).1 h
    obtain ⟨e1, e2, e3, e4⟩ := main _ h1 h2 h3
    refine ⟨e1, e2, e3, ?_⟩
    have : g.capacity = g.blockSize * g.blockCount.toNat := by rw [hr]; rfl
    rw [this, Nat.mul_comm g.blockSize]
    exact Nat.mul_le_mul_right _ e4
  · obtain ⟨h1, h2, h3⟩ := (eraseSectorInRange_iff _ _ _).1 h
    have e1 := sext_of_nonneg first h1
    have e2 := sext_of_nonneg count (by omega)
    refine ⟨e1, e2, by omega, ?_⟩
    rw [e1, e2] at h3
    exact_mod_cast h3

end Sys2Proof.Machine
end

