-- ==== Sys2Proof/Laws/Encoding.lean ====
section
/-! SUPPORT. The small laws of the encoding tables: opcodes, the address field, the fields of `W0`. -/

namespace Sys2Proof

theorem Command.mem_all (c : Command) : c ∈ Command.all := by cases c <;> decide

/-- Well-formed parameters give every command its own opcode (R85). -/
theorem Params.opcode_injective (p : Params) (h : p.wf = true) (c d : Command) (hcd : p.opcode c = p.opcode d) :
    c = d := by
  simp only [Params.wf, Bool.and_eq_true, decide_eq_true_eq] at h
  exact List.inj_on_of_nodup_map h.1.1.1 (Command.mem_all c) (Command.mem_all d) hcd

/-- The opcode of a command selects that command (R84). -/
theorem commandOf_opcode (p : Params) (h : p.wf = true) (c : Command) : commandOf p (p.opcode c) = some c := by
  unfold commandOf
  cases hf : Command.all.find? (fun d => p.opcode d == p.opcode c) with
  | none =>
    have := List.find?_eq_none.1 hf c (Command.mem_all c)
    simp at this
  | some d =>
    have := List.find?_some hf
    rw [Params.opcode_injective p h d c (by simpa using this)]

/-- What a first byte selects has that byte as its opcode (R84). -/
theorem opcode_of_commandOf (p : Params) (b : Byte) (c : Command) (h : commandOf p b = some c) : p.opcode c = b := by
  simpa using List.find?_some h

/-- An address that fits is read back from its field (R45). -/
theorem addressOf_addressField (a : Word) (h : addressFits a = true) :
    addressOf (a.extractLsb' 16 8) (a.extractLsb' 8 8) (a.extractLsb' 0 8) = a := by
  simp only [addressFits, decide_eq_true_eq] at h
  apply BitVec.eq_of_getLsbD_eq
  intro i hi
  simp only [addressOf, BitVec.getLsbD_append, BitVec.getLsbD_extractLsb']
  by_cases h8 : i < 8
  · simp [h8]
  · by_cases h16 : i < 16
    · simp [h8, show i - 8 < 8 by omega, show 8 + (i - 8) = i by omega]
    · by_cases h24 : i < 24
      · simp [h8, show ¬ (i - 8 < 8) by omega, show i - 8 - 8 < 8 by omega, show 16 + (i - 8 - 8) = i by omega]
      · have : a.getLsbD i = false := by
          exact Nat.testBit_lt_two_pow (Nat.lt_of_lt_of_le h (Nat.pow_le_pow_right (by decide) (by omega)))
        simp [h8, show ¬ (i - 8 < 8) by omega, show ¬ (i - 8 - 8 < 8) by omega, this]

/-- An address read from a frame fits. -/
theorem addressOf_fits (b1 b2 b3 : Byte) : addressFits (addressOf b1 b2 b3) = true := by
  refine decide_eq_true ?_
  simp only [addressOf]
  have h1 := b1.isLt
  have h2 := b2.isLt
  have h3 := b3.isLt
  simp only [BitVec.toNat_append, BitVec.toNat_ofNat, Nat.zero_mod, Nat.zero_shiftLeft, Nat.zero_or]
  have key : ∀ x y n : Nat, x < 2 ^ n → y < 2 ^ 8 → x <<< 8 ||| y < 2 ^ (n + 8) := by
    intro x y n hx hy
    refine Nat.or_lt_two_pow ?_ (Nat.lt_of_lt_of_le hy (Nat.pow_le_pow_right (by decide) (by omega)))
    rw [Nat.shiftLeft_eq, Nat.pow_add]
    exact Nat.mul_lt_mul_of_pos_right hx (by decide)
  exact key _ _ 16 (key _ _ 8 h1 h2) h3

/-- The bytes of an address read from a frame are the frame's. -/
theorem addressField_addressOf (b1 b2 b3 : Byte) : addressField (addressOf b1 b2 b3) = [b1, b2, b3] := by
  simp only [addressField, addressOf, List.cons.injEq, and_true]
  refine ⟨?_, ?_, ?_⟩ <;>
  · apply BitVec.eq_of_getLsbD_eq
    intro i hi
    simp only [BitVec.getLsbD_extractLsb', BitVec.getLsbD_append, hi, decide_true, Bool.true_and]
    first
    | rw [if_neg (by omega), if_neg (by omega), if_pos (by omega)]; congr 1; omega
    | rw [if_neg (by omega), if_pos (by omega)]; congr 1; omega
    | rw [if_pos (by omega)]; congr 1; omega

/-- What an opcode-only body decodes to. -/
theorem decodeEmpty_ok (c : Command) (i j : Instr) (body : List Byte) (h : decodeEmpty c i body = .ok j) :
    body = [] ∧ j = i := by
  cases body with
  | nil => simpa [decodeEmpty, eq_comm] using h
  | cons _ _ => simp [decodeEmpty] at h

/-- What an address body decodes to. -/
theorem decodeAddress_ok (c : Command) (mk : Word → Instr) (j : Instr) (body : List Byte)
    (h : decodeAddress c mk body = .ok j) : ∃ b1 b2 b3, body = [b1, b2, b3] ∧ j = mk (addressOf b1 b2 b3) := by
  unfold decodeAddress at h
  split at h
  · next b1 b2 b3 => exact ⟨b1, b2, b3, rfl, by simpa [eq_comm] using h⟩
  · simp at h

/-- What a body with an address and more behind it decodes to. -/
theorem decodeAddressed_ok (c : Command) (mk : Word → List Byte → Except DecodeError Instr) (j : Instr)
    (body : List Byte) (h : decodeAddressed c mk body = .ok j) :
    ∃ b1 b2 b3 more, body = b1 :: b2 :: b3 :: more ∧ mk (addressOf b1 b2 b3) more = .ok j := by
  unfold decodeAddressed at h
  split at h
  · next b1 b2 b3 more => exact ⟨b1, b2, b3, more, rfl, h⟩
  · simp at h

/-- What a body of fill bytes decodes to. -/
theorem decodeFill_ok (c : Command) (n : Nat) (i j : Instr) (body : List Byte)
    (h : decodeFill c n i body = .ok j) : body.length = n ∧ j = i := by
  unfold decodeFill at h
  split at h
  · next hn => exact ⟨hn, by simpa [eq_comm] using h⟩
  · simp at h

/-- Each command's frames, one by one: the instruction, and how the frame is made up of opcode, address and the rest (R77, R84). -/
theorem decodeBody_ok (c : Command) (body : List Byte) (i : Instr) (h : decodeBody c body = .ok i) :
    i.command = some c ∧ WellFormed i = true ∧
    ((i = .spiWren ∧ body = []) ∨ (i = .spiRdsr ∧ body.length = 1) ∨
      (∃ b1 b2 b3 more, i = .spiRead (addressOf b1 b2 b3) more.length ∧ body = b1 :: b2 :: b3 :: more) ∨
      (∃ b1 b2 b3 more, 3 ≤ more.length ∧ i = .spiFastRead (addressOf b1 b2 b3) (more.length - 2) ∧
        body = b1 :: b2 :: b3 :: more) ∨
      (∃ b1 b2 b3 more, i = .spiPp (addressOf b1 b2 b3) more ∧ body = b1 :: b2 :: b3 :: more) ∨
      (∃ b1 b2 b3, i = .spiSe (addressOf b1 b2 b3) ∧ body = [b1, b2, b3]) ∨
      (∃ b1 b2 b3, i = .spiBe (addressOf b1 b2 b3) ∧ body = [b1, b2, b3]) ∨
      (i = .spiCe ∧ body = []) ∨ (i = .spiDp ∧ body = []) ∨ (i = .spiRes ∧ body = []) ∨
      (i = .spiRdid ∧ body.length = 3)) := by
  cases c <;> simp only [decodeBody] at h
  case wren => obtain ⟨rfl, rfl⟩ := decodeEmpty_ok _ _ _ _ h; simp [Instr.command, WellFormed]
  case ce => obtain ⟨rfl, rfl⟩ := decodeEmpty_ok _ _ _ _ h; simp [Instr.command, WellFormed]
  case dp => obtain ⟨rfl, rfl⟩ := decodeEmpty_ok _ _ _ _ h; simp [Instr.command, WellFormed]
  case res => obtain ⟨rfl, rfl⟩ := decodeEmpty_ok _ _ _ _ h; simp [Instr.command, WellFormed]
  case rdsr => obtain ⟨hl, rfl⟩ := decodeFill_ok _ _ _ _ _ h; simp [Instr.command, WellFormed, hl]
  case rdid => obtain ⟨hl, rfl⟩ := decodeFill_ok _ _ _ _ _ h; simp [Instr.command, WellFormed, hl]
  case se =>
    obtain ⟨b1, b2, b3, rfl, rfl⟩ := decodeAddress_ok _ _ _ _ h
    simp [Instr.command, WellFormed, addressOf_fits]
  case be =>
    obtain ⟨b1, b2, b3, rfl, rfl⟩ := decodeAddress_ok _ _ _ _ h
    simp [Instr.command, WellFormed, addressOf_fits]
  case read =>
    obtain ⟨b1, b2, b3, more, rfl, hm⟩ := decodeAddressed_ok _ _ _ _ h
    split at hm
    · next hl =>
      simp only [Except.ok.injEq] at hm; subst hm
      exact ⟨rfl, by simp [WellFormed, addressOf_fits, hl], .inr (.inr (.inl ⟨b1, b2, b3, more, rfl, rfl⟩))⟩
    · simp at hm
  case fastRead =>
    obtain ⟨b1, b2, b3, more, rfl, hm⟩ := decodeAddressed_ok _ _ _ _ h
    split at hm
    · next hl =>
      simp only [Except.ok.injEq] at hm; subst hm
      refine ⟨rfl, ?_, .inr (.inr (.inr (.inl ⟨b1, b2, b3, more, hl, rfl, rfl⟩)))⟩
      simp only [WellFormed, addressOf_fits, Bool.true_and, decide_eq_true_eq]; omega
    · simp at hm
  case pp =>
    obtain ⟨b1, b2, b3, more, rfl, hm⟩ := decodeAddressed_ok _ _ _ _ h
    split at hm
    · next hl =>
      simp only [Except.ok.injEq] at hm; subst hm
      exact ⟨rfl, by simp [WellFormed, addressOf_fits, hl],
        .inr (.inr (.inr (.inr (.inl ⟨b1, b2, b3, more, rfl, rfl⟩))))⟩
    · simp at hm

/-- Every frame starts with the opcode of its command (R77). -/
theorem encode_head {p : Params} {i : Instr} {tx : List Byte} (h : encode p i = .frame tx) :
    ∃ c body, i.command = some c ∧ tx = p.opcode c :: body := by
  cases i <;> simp [encode] at h <;> subst h <;> exact ⟨_, _, rfl, rfl⟩

theorem requestWord0_fields (op : BitVec 4) (bp : Bool) :
    (requestWord0 op bp).extractLsb' 0 4 = op ∧ (requestWord0 op bp).extractLsb' 4 4 = 0#4 ∧
    (requestWord0 op bp).extractLsb' 9 23 = 0#23 ∧ (requestWord0 op bp).getLsbD 8 = bp := by
  revert op bp
  decide

namespace Machine

/-- The framer and the encoding table agree (R77, R125). -/
theorem frame4_eq (opc : Byte) (a : Word) : frame4 opc a = opc :: addressField a := by
  simp only [frame4, addressField, List.cons.injEq, true_and, and_true]
  refine ⟨?_, ?_, ?_⟩ <;>
  · apply BitVec.eq_of_getLsbD_eq
    intro i hi
    simp [BitVec.getLsbD_setWidth, BitVec.getLsbD_extractLsb', BitVec.getLsbD_ushiftRight]

@[simp] theorem frame4_length (opc : Byte) (a : Word) : (frame4 opc a).length = 4 := rfl

@[simp] theorem fillBytes_length (p : Params) (n : Nat) : (fillBytes p n).length = n := by simp [fillBytes]

end Machine

end Sys2Proof
end

