-- ==== Sys2Proof/Laws/State.lean ====
section
/-! SUPPORT. One lemma per field and update of State, and what a reset leaves in each field. -/

namespace Sys2Proof.Machine

@[simp] theorem State.setPhase_params (s : State) (ph : Phase) : (s.setPhase ph).params = s.params := rfl
@[simp] theorem State.setPhase_variant (s : State) (ph : Phase) : (s.setPhase ph).variant = s.variant := rfl
@[simp] theorem State.setPhase_transportPresent (s : State) (ph : Phase) : (s.setPhase ph).transportPresent = s.transportPresent := rfl
@[simp] theorem State.setPhase_cfgStatus (s : State) (ph : Phase) : (s.setPhase ph).cfgStatus = s.cfgStatus := rfl
@[simp] theorem State.setPhase_geom (s : State) (ph : Phase) : (s.setPhase ph).geom = s.geom := rfl
@[simp] theorem State.setPhase_phase (s : State) (ph : Phase) : (s.setPhase ph).phase = ph := rfl
@[simp] theorem State.setPhase_latch (s : State) (ph : Phase) : (s.setPhase ph).latch = s.latch := rfl
@[simp] theorem State.setPhase_seq (s : State) (ph : Phase) : (s.setPhase ph).seq = s.seq := rfl
@[simp] theorem State.setPhase_resp (s : State) (ph : Phase) : (s.setPhase ph).resp = s.resp := rfl
@[simp] theorem State.setPhase_trace (s : State) (ph : Phase) : (s.setPhase ph).trace = s.trace := rfl
@[simp] theorem State.setPhase_requests (s : State) (ph : Phase) : (s.setPhase ph).requests = s.requests := rfl
@[simp] theorem State.setPhase_payload (s : State) (ph : Phase) : (s.setPhase ph).payload = s.payload := rfl
@[simp] theorem State.setPhase_oracle (s : State) (ph : Phase) : (s.setPhase ph).oracle = s.oracle := rfl
@[simp] theorem State.setPhase_resetIn (s : State) (ph : Phase) : (s.setPhase ph).resetIn = s.resetIn := rfl
@[simp] theorem State.setPhase_accepted (s : State) (ph : Phase) : (s.setPhase ph).accepted = s.accepted := rfl
@[simp] theorem State.setPhase_responses (s : State) (ph : Phase) : (s.setPhase ph).responses = s.responses := rfl
@[simp] theorem State.setPhase_freeCtr (s : State) (ph : Phase) : (s.setPhase ph).freeCtr = s.freeCtr := rfl

@[simp] theorem State.setLatch_params (s : State) (l : Latch) : (s.setLatch l).params = s.params := rfl
@[simp] theorem State.setLatch_variant (s : State) (l : Latch) : (s.setLatch l).variant = s.variant := rfl
@[simp] theorem State.setLatch_transportPresent (s : State) (l : Latch) : (s.setLatch l).transportPresent = s.transportPresent := rfl
@[simp] theorem State.setLatch_cfgStatus (s : State) (l : Latch) : (s.setLatch l).cfgStatus = s.cfgStatus := rfl
@[simp] theorem State.setLatch_geom (s : State) (l : Latch) : (s.setLatch l).geom = s.geom := rfl
@[simp] theorem State.setLatch_phase (s : State) (l : Latch) : (s.setLatch l).phase = s.phase := rfl
@[simp] theorem State.setLatch_latch (s : State) (l : Latch) : (s.setLatch l).latch = l := rfl
@[simp] theorem State.setLatch_seq (s : State) (l : Latch) : (s.setLatch l).seq = s.seq := rfl
@[simp] theorem State.setLatch_resp (s : State) (l : Latch) : (s.setLatch l).resp = s.resp := rfl
@[simp] theorem State.setLatch_trace (s : State) (l : Latch) : (s.setLatch l).trace = s.trace := rfl
@[simp] theorem State.setLatch_requests (s : State) (l : Latch) : (s.setLatch l).requests = s.requests := rfl
@[simp] theorem State.setLatch_payload (s : State) (l : Latch) : (s.setLatch l).payload = s.payload := rfl
@[simp] theorem State.setLatch_oracle (s : State) (l : Latch) : (s.setLatch l).oracle = s.oracle := rfl
@[simp] theorem State.setLatch_resetIn (s : State) (l : Latch) : (s.setLatch l).resetIn = s.resetIn := rfl
@[simp] theorem State.setLatch_accepted (s : State) (l : Latch) : (s.setLatch l).accepted = s.accepted := rfl
@[simp] theorem State.setLatch_responses (s : State) (l : Latch) : (s.setLatch l).responses = s.responses := rfl
@[simp] theorem State.setLatch_freeCtr (s : State) (l : Latch) : (s.setLatch l).freeCtr = s.freeCtr := rfl

@[simp] theorem State.setSeq_params (s : State) (q : Seq) : (s.setSeq q).params = s.params := rfl
@[simp] theorem State.setSeq_variant (s : State) (q : Seq) : (s.setSeq q).variant = s.variant := rfl
@[simp] theorem State.setSeq_transportPresent (s : State) (q : Seq) : (s.setSeq q).transportPresent = s.transportPresent := rfl
@[simp] theorem State.setSeq_cfgStatus (s : State) (q : Seq) : (s.setSeq q).cfgStatus = s.cfgStatus := rfl
@[simp] theorem State.setSeq_geom (s : State) (q : Seq) : (s.setSeq q).geom = s.geom := rfl
@[simp] theorem State.setSeq_phase (s : State) (q : Seq) : (s.setSeq q).phase = s.phase := rfl
@[simp] theorem State.setSeq_latch (s : State) (q : Seq) : (s.setSeq q).latch = s.latch := rfl
@[simp] theorem State.setSeq_seq (s : State) (q : Seq) : (s.setSeq q).seq = q := rfl
@[simp] theorem State.setSeq_resp (s : State) (q : Seq) : (s.setSeq q).resp = s.resp := rfl
@[simp] theorem State.setSeq_trace (s : State) (q : Seq) : (s.setSeq q).trace = s.trace := rfl
@[simp] theorem State.setSeq_requests (s : State) (q : Seq) : (s.setSeq q).requests = s.requests := rfl
@[simp] theorem State.setSeq_payload (s : State) (q : Seq) : (s.setSeq q).payload = s.payload := rfl
@[simp] theorem State.setSeq_oracle (s : State) (q : Seq) : (s.setSeq q).oracle = s.oracle := rfl
@[simp] theorem State.setSeq_resetIn (s : State) (q : Seq) : (s.setSeq q).resetIn = s.resetIn := rfl
@[simp] theorem State.setSeq_accepted (s : State) (q : Seq) : (s.setSeq q).accepted = s.accepted := rfl
@[simp] theorem State.setSeq_responses (s : State) (q : Seq) : (s.setSeq q).responses = s.responses := rfl
@[simp] theorem State.setSeq_freeCtr (s : State) (q : Seq) : (s.setSeq q).freeCtr = s.freeCtr := rfl

@[simp] theorem State.setRequests_params (s : State) (rs : List Request) : (s.setRequests rs).params = s.params := rfl
@[simp] theorem State.setRequests_variant (s : State) (rs : List Request) : (s.setRequests rs).variant = s.variant := rfl
@[simp] theorem State.setRequests_transportPresent (s : State) (rs : List Request) : (s.setRequests rs).transportPresent = s.transportPresent := rfl
@[simp] theorem State.setRequests_cfgStatus (s : State) (rs : List Request) : (s.setRequests rs).cfgStatus = s.cfgStatus := rfl
@[simp] theorem State.setRequests_geom (s : State) (rs : List Request) : (s.setRequests rs).geom = s.geom := rfl
@[simp] theorem State.setRequests_phase (s : State) (rs : List Request) : (s.setRequests rs).phase = s.phase := rfl
@[simp] theorem State.setRequests_latch (s : State) (rs : List Request) : (s.setRequests rs).latch = s.latch := rfl
@[simp] theorem State.setRequests_seq (s : State) (rs : List Request) : (s.setRequests rs).seq = s.seq := rfl
@[simp] theorem State.setRequests_resp (s : State) (rs : List Request) : (s.setRequests rs).resp = s.resp := rfl
@[simp] theorem State.setRequests_trace (s : State) (rs : List Request) : (s.setRequests rs).trace = s.trace := rfl
@[simp] theorem State.setRequests_requests (s : State) (rs : List Request) : (s.setRequests rs).requests = rs := rfl
@[simp] theorem State.setRequests_payload (s : State) (rs : List Request) : (s.setRequests rs).payload = s.payload := rfl
@[simp] theorem State.setRequests_oracle (s : State) (rs : List Request) : (s.setRequests rs).oracle = s.oracle := rfl
@[simp] theorem State.setRequests_resetIn (s : State) (rs : List Request) : (s.setRequests rs).resetIn = s.resetIn := rfl
@[simp] theorem State.setRequests_accepted (s : State) (rs : List Request) : (s.setRequests rs).accepted = s.accepted := rfl
@[simp] theorem State.setRequests_responses (s : State) (rs : List Request) : (s.setRequests rs).responses = s.responses := rfl
@[simp] theorem State.setRequests_freeCtr (s : State) (rs : List Request) : (s.setRequests rs).freeCtr = s.freeCtr := rfl

@[simp] theorem State.setPayload_params (s : State) (m : Memory) : (s.setPayload m).params = s.params := rfl
@[simp] theorem State.setPayload_variant (s : State) (m : Memory) : (s.setPayload m).variant = s.variant := rfl
@[simp] theorem State.setPayload_transportPresent (s : State) (m : Memory) : (s.setPayload m).transportPresent = s.transportPresent := rfl
@[simp] theorem State.setPayload_cfgStatus (s : State) (m : Memory) : (s.setPayload m).cfgStatus = s.cfgStatus := rfl
@[simp] theorem State.setPayload_geom (s : State) (m : Memory) : (s.setPayload m).geom = s.geom := rfl
@[simp] theorem State.setPayload_phase (s : State) (m : Memory) : (s.setPayload m).phase = s.phase := rfl
@[simp] theorem State.setPayload_latch (s : State) (m : Memory) : (s.setPayload m).latch = s.latch := rfl
@[simp] theorem State.setPayload_seq (s : State) (m : Memory) : (s.setPayload m).seq = s.seq := rfl
@[simp] theorem State.setPayload_resp (s : State) (m : Memory) : (s.setPayload m).resp = s.resp := rfl
@[simp] theorem State.setPayload_trace (s : State) (m : Memory) : (s.setPayload m).trace = s.trace := rfl
@[simp] theorem State.setPayload_requests (s : State) (m : Memory) : (s.setPayload m).requests = s.requests := rfl
@[simp] theorem State.setPayload_payload (s : State) (m : Memory) : (s.setPayload m).payload = m := rfl
@[simp] theorem State.setPayload_oracle (s : State) (m : Memory) : (s.setPayload m).oracle = s.oracle := rfl
@[simp] theorem State.setPayload_resetIn (s : State) (m : Memory) : (s.setPayload m).resetIn = s.resetIn := rfl
@[simp] theorem State.setPayload_accepted (s : State) (m : Memory) : (s.setPayload m).accepted = s.accepted := rfl
@[simp] theorem State.setPayload_responses (s : State) (m : Memory) : (s.setPayload m).responses = s.responses := rfl
@[simp] theorem State.setPayload_freeCtr (s : State) (m : Memory) : (s.setPayload m).freeCtr = s.freeCtr := rfl

@[simp] theorem State.setResetIn_params (s : State) (r : Option Straps) : (s.setResetIn r).params = s.params := rfl
@[simp] theorem State.setResetIn_variant (s : State) (r : Option Straps) : (s.setResetIn r).variant = s.variant := rfl
@[simp] theorem State.setResetIn_transportPresent (s : State) (r : Option Straps) : (s.setResetIn r).transportPresent = s.transportPresent := rfl
@[simp] theorem State.setResetIn_cfgStatus (s : State) (r : Option Straps) : (s.setResetIn r).cfgStatus = s.cfgStatus := rfl
@[simp] theorem State.setResetIn_geom (s : State) (r : Option Straps) : (s.setResetIn r).geom = s.geom := rfl
@[simp] theorem State.setResetIn_phase (s : State) (r : Option Straps) : (s.setResetIn r).phase = s.phase := rfl
@[simp] theorem State.setResetIn_latch (s : State) (r : Option Straps) : (s.setResetIn r).latch = s.latch := rfl
@[simp] theorem State.setResetIn_seq (s : State) (r : Option Straps) : (s.setResetIn r).seq = s.seq := rfl
@[simp] theorem State.setResetIn_resp (s : State) (r : Option Straps) : (s.setResetIn r).resp = s.resp := rfl
@[simp] theorem State.setResetIn_trace (s : State) (r : Option Straps) : (s.setResetIn r).trace = s.trace := rfl
@[simp] theorem State.setResetIn_requests (s : State) (r : Option Straps) : (s.setResetIn r).requests = s.requests := rfl
@[simp] theorem State.setResetIn_payload (s : State) (r : Option Straps) : (s.setResetIn r).payload = s.payload := rfl
@[simp] theorem State.setResetIn_oracle (s : State) (r : Option Straps) : (s.setResetIn r).oracle = s.oracle := rfl
@[simp] theorem State.setResetIn_resetIn (s : State) (r : Option Straps) : (s.setResetIn r).resetIn = r := rfl
@[simp] theorem State.setResetIn_accepted (s : State) (r : Option Straps) : (s.setResetIn r).accepted = s.accepted := rfl
@[simp] theorem State.setResetIn_responses (s : State) (r : Option Straps) : (s.setResetIn r).responses = s.responses := rfl
@[simp] theorem State.setResetIn_freeCtr (s : State) (r : Option Straps) : (s.setResetIn r).freeCtr = s.freeCtr := rfl

@[simp] theorem State.countAccept_params (s : State) : (s.countAccept).params = s.params := rfl
@[simp] theorem State.countAccept_variant (s : State) : (s.countAccept).variant = s.variant := rfl
@[simp] theorem State.countAccept_transportPresent (s : State) : (s.countAccept).transportPresent = s.transportPresent := rfl
@[simp] theorem State.countAccept_cfgStatus (s : State) : (s.countAccept).cfgStatus = s.cfgStatus := rfl
@[simp] theorem State.countAccept_geom (s : State) : (s.countAccept).geom = s.geom := rfl
@[simp] theorem State.countAccept_phase (s : State) : (s.countAccept).phase = s.phase := rfl
@[simp] theorem State.countAccept_latch (s : State) : (s.countAccept).latch = s.latch := rfl
@[simp] theorem State.countAccept_seq (s : State) : (s.countAccept).seq = s.seq := rfl
@[simp] theorem State.countAccept_resp (s : State) : (s.countAccept).resp = s.resp := rfl
@[simp] theorem State.countAccept_trace (s : State) : (s.countAccept).trace = s.trace := rfl
@[simp] theorem State.countAccept_requests (s : State) : (s.countAccept).requests = s.requests := rfl
@[simp] theorem State.countAccept_payload (s : State) : (s.countAccept).payload = s.payload := rfl
@[simp] theorem State.countAccept_oracle (s : State) : (s.countAccept).oracle = s.oracle := rfl
@[simp] theorem State.countAccept_resetIn (s : State) : (s.countAccept).resetIn = s.resetIn := rfl
@[simp] theorem State.countAccept_accepted (s : State) : (s.countAccept).accepted = s.accepted + 1 := rfl
@[simp] theorem State.countAccept_responses (s : State) : (s.countAccept).responses = s.responses := rfl
@[simp] theorem State.countAccept_freeCtr (s : State) : (s.countAccept).freeCtr = s.freeCtr := rfl

@[simp] theorem State.recordCall_params (s : State) (o : Oracle) (ev : Event) : (s.recordCall o ev).params = s.params := rfl
@[simp] theorem State.recordCall_variant (s : State) (o : Oracle) (ev : Event) : (s.recordCall o ev).variant = s.variant := rfl
@[simp] theorem State.recordCall_transportPresent (s : State) (o : Oracle) (ev : Event) : (s.recordCall o ev).transportPresent = s.transportPresent := rfl
@[simp] theorem State.recordCall_cfgStatus (s : State) (o : Oracle) (ev : Event) : (s.recordCall o ev).cfgStatus = s.cfgStatus := rfl
@[simp] theorem State.recordCall_geom (s : State) (o : Oracle) (ev : Event) : (s.recordCall o ev).geom = s.geom := rfl
@[simp] theorem State.recordCall_phase (s : State) (o : Oracle) (ev : Event) : (s.recordCall o ev).phase = s.phase := rfl
@[simp] theorem State.recordCall_latch (s : State) (o : Oracle) (ev : Event) : (s.recordCall o ev).latch = s.latch := rfl
@[simp] theorem State.recordCall_seq (s : State) (o : Oracle) (ev : Event) : (s.recordCall o ev).seq = s.seq := rfl
@[simp] theorem State.recordCall_resp (s : State) (o : Oracle) (ev : Event) : (s.recordCall o ev).resp = s.resp := rfl
@[simp] theorem State.recordCall_trace (s : State) (o : Oracle) (ev : Event) : (s.recordCall o ev).trace = s.trace ++ [ev] := rfl
@[simp] theorem State.recordCall_requests (s : State) (o : Oracle) (ev : Event) : (s.recordCall o ev).requests = s.requests := rfl
@[simp] theorem State.recordCall_payload (s : State) (o : Oracle) (ev : Event) : (s.recordCall o ev).payload = s.payload := rfl
@[simp] theorem State.recordCall_oracle (s : State) (o : Oracle) (ev : Event) : (s.recordCall o ev).oracle = o := rfl
@[simp] theorem State.recordCall_resetIn (s : State) (o : Oracle) (ev : Event) : (s.recordCall o ev).resetIn = s.resetIn := rfl
@[simp] theorem State.recordCall_accepted (s : State) (o : Oracle) (ev : Event) : (s.recordCall o ev).accepted = s.accepted := rfl
@[simp] theorem State.recordCall_responses (s : State) (o : Oracle) (ev : Event) : (s.recordCall o ev).responses = s.responses := rfl
@[simp] theorem State.recordCall_freeCtr (s : State) (o : Oracle) (ev : Event) : (s.recordCall o ev).freeCtr = s.freeCtr + 1 := rfl

@[simp] theorem State.recordResponse_params (s : State) (r : Response) : (s.recordResponse r).params = s.params := rfl
@[simp] theorem State.recordResponse_variant (s : State) (r : Response) : (s.recordResponse r).variant = s.variant := rfl
@[simp] theorem State.recordResponse_transportPresent (s : State) (r : Response) : (s.recordResponse r).transportPresent = s.transportPresent := rfl
@[simp] theorem State.recordResponse_cfgStatus (s : State) (r : Response) : (s.recordResponse r).cfgStatus = s.cfgStatus := rfl
@[simp] theorem State.recordResponse_geom (s : State) (r : Response) : (s.recordResponse r).geom = s.geom := rfl
@[simp] theorem State.recordResponse_phase (s : State) (r : Response) : (s.recordResponse r).phase = s.phase := rfl
@[simp] theorem State.recordResponse_latch (s : State) (r : Response) : (s.recordResponse r).latch = s.latch := rfl
@[simp] theorem State.recordResponse_seq (s : State) (r : Response) : (s.recordResponse r).seq = s.seq := rfl
@[simp] theorem State.recordResponse_resp (s : State) (r : Response) : (s.recordResponse r).resp = r := rfl
@[simp] theorem State.recordResponse_trace (s : State) (r : Response) : (s.recordResponse r).trace = s.trace := rfl
@[simp] theorem State.recordResponse_requests (s : State) (r : Response) : (s.recordResponse r).requests = s.requests := rfl
@[simp] theorem State.recordResponse_payload (s : State) (r : Response) : (s.recordResponse r).payload = s.payload := rfl
@[simp] theorem State.recordResponse_oracle (s : State) (r : Response) : (s.recordResponse r).oracle = s.oracle := rfl
@[simp] theorem State.recordResponse_resetIn (s : State) (r : Response) : (s.recordResponse r).resetIn = s.resetIn := rfl
@[simp] theorem State.recordResponse_accepted (s : State) (r : Response) : (s.recordResponse r).accepted = s.accepted := rfl
@[simp] theorem State.recordResponse_responses (s : State) (r : Response) : (s.recordResponse r).responses = s.responses ++ [r] := rfl
@[simp] theorem State.recordResponse_freeCtr (s : State) (r : Response) : (s.recordResponse r).freeCtr = s.freeCtr + 1 := rfl

section
variable (p : Params) (st : Straps) (n : Nat) (rs : List Request) (m : Memory) (o : Oracle)

@[simp] theorem State.boot_params : (State.boot p st n rs m o).params = p := rfl
@[simp] theorem State.boot_variant : (State.boot p st n rs m o).variant = st.variant := rfl
@[simp] theorem State.boot_transportPresent : (State.boot p st n rs m o).transportPresent = st.transportPresent := rfl
@[simp] theorem State.boot_cfgStatus : (State.boot p st n rs m o).cfgStatus = cfgStatusOf p st.variant st.transportPresent := rfl
@[simp] theorem State.boot_geom : (State.boot p st n rs m o).geom = geomAtReset p st.variant st.transportPresent n := rfl
@[simp] theorem State.boot_phase : (State.boot p st n rs m o).phase = .idle := rfl
@[simp] theorem State.boot_latch : (State.boot p st n rs m o).latch = Latch.unspecified n := rfl
@[simp] theorem State.boot_seq : (State.boot p st n rs m o).seq = Seq.unspecified n := rfl
@[simp] theorem State.boot_resp : (State.boot p st n rs m o).resp = Response.unspecified n := rfl
@[simp] theorem State.boot_trace : (State.boot p st n rs m o).trace = [] := rfl
@[simp] theorem State.boot_requests : (State.boot p st n rs m o).requests = rs := rfl
@[simp] theorem State.boot_payload : (State.boot p st n rs m o).payload = m := rfl
@[simp] theorem State.boot_oracle : (State.boot p st n rs m o).oracle = o := rfl
@[simp] theorem State.boot_resetIn : (State.boot p st n rs m o).resetIn = none := rfl
@[simp] theorem State.boot_accepted : (State.boot p st n rs m o).accepted = 0 := rfl
@[simp] theorem State.boot_responses : (State.boot p st n rs m o).responses = [] := rfl
@[simp] theorem State.boot_freeCtr : (State.boot p st n rs m o).freeCtr = n + 1 := rfl

end

end Sys2Proof.Machine
end

