-- ==== Sys2Proof/Laws/Ops.lean ====
section
/-! SUPPORT. One law per shared operation: what a response, an accept and a transport call can do (spec/10_state.md R19, R24;
spec/60_exceptions.md R194, R199). Provers cite these and do not unfold the operations. -/

namespace Sys2Proof.Machine

theorem reqReady_iff (s : State) : reqReady s = true ↔ s.phase = .idle ∧ s.cfgStatus = .cfgOk := by
  simp [reqReady]

section
variable (r : Response) (s : State)

@[simp] theorem deliver_params : (deliver r s).params = s.params := rfl
@[simp] theorem deliver_variant : (deliver r s).variant = s.variant := rfl
@[simp] theorem deliver_transportPresent : (deliver r s).transportPresent = s.transportPresent := rfl
@[simp] theorem deliver_cfgStatus : (deliver r s).cfgStatus = s.cfgStatus := rfl
@[simp] theorem deliver_geom : (deliver r s).geom = s.geom := rfl
@[simp] theorem deliver_phase : (deliver r s).phase = .idle := rfl
@[simp] theorem deliver_latch : (deliver r s).latch = s.latch := rfl
@[simp] theorem deliver_seq : (deliver r s).seq = s.seq := rfl
@[simp] theorem deliver_resp : (deliver r s).resp = r := rfl
@[simp] theorem deliver_trace : (deliver r s).trace = s.trace := rfl
@[simp] theorem deliver_requests : (deliver r s).requests = s.requests := rfl
@[simp] theorem deliver_payload : (deliver r s).payload = s.payload := rfl
@[simp] theorem deliver_oracle : (deliver r s).oracle = s.oracle := rfl
@[simp] theorem deliver_resetIn : (deliver r s).resetIn = s.resetIn := rfl
@[simp] theorem deliver_accepted : (deliver r s).accepted = s.accepted := rfl
@[simp] theorem deliver_responses : (deliver r s).responses = s.responses ++ [r] := rfl

/-- A delivered response is all that `Responded` says. -/
theorem deliver_responded : Responded r.code r.data s (deliver r s) := ⟨rfl, rfl, rfl⟩

end

theorem respondOk_responded (data : List Byte) (s : State) : Responded 0#3 data s (respondOk data s) :=
  deliver_responded (plainResponse .ok data s) s

theorem raise_responded (code : RespCode) (s : State) : Responded code.code [] s (raise code s) :=
  deliver_responded (plainResponse code [] s) s

theorem raiseTransport_responded (e : TransportErr) (s : State) :
    Responded 3#3 [] s (raiseTransport e s) ∧ (raiseTransport e s).resp.err = e :=
  ⟨deliver_responded ⟨RespCode.transportError.code, [], e⟩ s, rfl⟩

/-- An accept while `REQ_READY` is 1 (R19). -/
theorem accept_ready (operands : Latch → Latch) (go : State → State) (s : State) (hp : s.phase = .idle)
    (hc : s.cfgStatus = .cfgOk) :
    accept operands go s = .next (go (acceptedAs (operands s.latch) s)) := by
  simp [accept, (reqReady_iff s).2 ⟨hp, hc⟩, acceptedAs, State.countAccept, State.setLatch]

/-- An accept while `REQ_READY` is 0 does nothing (R230). -/
theorem accept_notReady (operands : Latch → Latch) (go : State → State) (s : State)
    (h : s.phase ≠ .idle ∨ s.cfgStatus ≠ .cfgOk) : accept operands go s = .next s := by
  have : reqReady s = false := by
    cases hr : reqReady s with
    | false => rfl
    | true => obtain ⟨h1, h2⟩ := (reqReady_iff s).1 hr; simp [h1, h2] at h
  simp [accept, this]

/-- What an accept can do: nothing, or its continuation on the state with the operands latched. -/
theorem accept_cases {operands : Latch → Latch} {go : State → State} {s t : State}
    (h : accept operands go s = .next t) :
    (t = s ∧ (s.phase ≠ .idle ∨ s.cfgStatus ≠ .cfgOk)) ∨
    (t = go (acceptedAs (operands s.latch) s) ∧ s.phase = .idle ∧ s.cfgStatus = .cfgOk) := by
  by_cases hr : s.phase = .idle ∧ s.cfgStatus = .cfgOk
  · rw [accept_ready operands go s hr.1 hr.2] at h
    exact Or.inr ⟨(Host.Outcome.next.inj h).symm, hr⟩
  · have hr' : s.phase ≠ .idle ∨ s.cfgStatus ≠ .cfgOk := by tauto
    rw [accept_notReady operands go s hr'] at h
    exact Or.inl ⟨(Host.Outcome.next.inj h).symm, hr'⟩

theorem requireRange_true (go : State → State) (s : State) : requireRange true go s = go s := rfl
theorem requireRange_false (go : State → State) (s : State) :
    requireRange false go s = raise .invalidRange s := rfl

/-- A command whose call succeeds (R19). -/
theorem command_ok (k : CallKind) (tx rx : List Byte) (onOk : List Byte → State → State) (s : State) (o : Oracle)
    (h : s.oracle.answer s.params s.freeCtr tx = (.ok rx, o)) :
    command k tx onOk s = .next (onOk rx (s.recordCall o (Event.ofCall k tx (.ok rx)))) := by
  simp [command, transportCall, afterCall, h]

/-- A command whose call fails (R194). -/
theorem command_err (k : CallKind) (tx : List Byte) (e : TransportErr) (onOk : List Byte → State → State) (s : State)
    (o : Oracle) (h : s.oracle.answer s.params s.freeCtr tx = (.err e, o)) :
    command k tx onOk s = .next (raiseTransport e (s.recordCall o (Event.ofCall k tx (.err e)))) := by
  simp [command, transportCall, afterCall, h]

/-- What a command can do: its continuation, or the end of the operation (R19, R194). -/
theorem command_cases {k : CallKind} {tx : List Byte} {onOk : List Byte → State → State} {s t : State}
    (h : command k tx onOk s = .next t) :
    (∃ rx o, s.oracle.answer s.params s.freeCtr tx = (.ok rx, o) ∧
      t = onOk rx (s.recordCall o (Event.ofCall k tx (.ok rx)))) ∨
    (∃ e o, s.oracle.answer s.params s.freeCtr tx = (.err e, o) ∧
      t = raiseTransport e (s.recordCall o (Event.ofCall k tx (.err e)))) := by
  rcases ha : s.oracle.answer s.params s.freeCtr tx with ⟨reply, o⟩
  cases reply with
  | ok rx =>
    rw [command_ok k tx rx onOk s o ha] at h
    exact Or.inl ⟨rx, o, rfl, (Host.Outcome.next.inj h).symm⟩
  | err e =>
    rw [command_err k tx e onOk s o ha] at h
    exact Or.inr ⟨e, o, rfl, (Host.Outcome.next.inj h).symm⟩

/-- A command always completes. -/
theorem command_runs (k : CallKind) (tx : List Byte) (onOk : List Byte → State → State) (s : State) :
    ∃ t, command k tx onOk s = .next t := ⟨_, rfl⟩

/-- The instruction that carries a frame, its primitive and its continuation, for every command: one place to look up what exec does
with a command (R83, R126 to R136). -/
def commandParts (p : Params) : Instr → Option (CallKind × List Byte × (List Byte → State → State))
  | .spiWren => some (.send, frameWren p, fun _ t => afterWren t)
  | .spiRdsr => some (.xchg, frameRdsr p, fun rx t => afterStatus (statusOf rx) t)
  | .spiRead a len => some (.xchg, frameRead p a len, fun rx t => afterTransfer (received rx 4 len) t)
  | .spiFastRead a len => some (.xchg, frameFastRead p a len, fun rx t => afterTransfer (received rx 6 len) t)
  | .spiPp a data => some (.send, framePp p a data, fun _ t => afterMutating t)
  | .spiSe a => some (.send, frameSe p a, fun _ t => afterMutating t)
  | .spiBe a => some (.send, frameBe p a, fun _ t => afterMutating t)
  | .spiCe => some (.send, frameCe p, fun _ t => afterMutating t)
  | .spiDp => some (.send, frameDp p, fun _ t => afterTransfer [] t)
  | .spiRes => some (.send, frameRes p, fun _ t => afterTransfer [] t)
  | .spiRdid => some (.xchg, frameRdid p, fun rx t => afterTransfer (received rx 1 3) t)
  | .identify => none
  | .eraseChip => none
  | .eraseBlock _ _ => none
  | .eraseSector _ _ => none
  | .write _ _ _ _ _ => none
  | .read _ _ => none
  | .readFast _ _ => none
  | .suspend => none
  | .resume => none
  | .writeEnable => none
  | .isWriteInProgress => none

/-- exec of a command is the shared operation on its parts. -/
theorem exec_command (i : Instr) (s : State) (k : CallKind) (tx : List Byte) (f : List Byte → State → State)
    (h : commandParts s.params i = some (k, tx, f)) : exec i s = command k tx f s := by
  cases i <;> simp only [commandParts, Option.some.injEq, Prod.mk.injEq, reduceCtorEq] at h <;>
    obtain ⟨rfl, rfl, rfl⟩ := h <;> rfl

/-- Every command has its parts. -/
theorem commandParts_isSome (p : Params) (i : Instr) (h : i.command ≠ none) :
    ∃ k tx f, commandParts p i = some (k, tx, f) := by
  cases i <;> simp [Instr.command] at h <;> exact ⟨_, _, _, rfl⟩

/-- The operands a host operation latches and what its ACCEPT step then does, with the geometry `g`, for every operation: one place to look up
what exec does with a request (R19, R150 to R182). -/
def acceptParts (g : Geom) : Instr → Option ((Latch → Latch) × (State → State))
  | .identify => some (fun l => { l with op := OpCode.identify }, fun t => t.setPhase .xfer)
  | .eraseChip => some (fun l => { l with op := OpCode.eraseChip },
      fun t => (t.setSeq { t.seq with nLeft := 1#32 }).setPhase .prePoll)
  | .eraseBlock b n => some (fun l => { l with op := OpCode.eraseBlock, argA := b, argB := n },
      requireRange (eraseBlockInRange g b n)
        (fun t => (t.setSeq (eraseStart t.geom.blockSize b n t.seq)).setPhase .prePoll))
  | .eraseSector x n => some (fun l => { l with op := OpCode.eraseSector, argA := x, argB := n },
      requireRange (eraseSectorInRange g x n)
        (fun t => (t.setSeq (eraseStart t.geom.sectorSize x n t.seq)).setPhase .prePoll))
  | .write a n off bp bl => some (fun l => { l with
        op := OpCode.write, argA := a, argB := n, argOff := off, bufPresent := bp, bufLen := bl },
      requireBuffer bp (requireRange (writeInRange g a n off bl)
        (fun t => (t.setSeq (writeStart a n off t.seq)).setPhase .wren)))
  | .read a n => some (fun l => { l with op := OpCode.read, argA := a, argB := n },
      requireRange (readInRange g a n) (fun t => t.setPhase .xfer))
  | .readFast a n => some (fun l => { l with op := OpCode.readFast, argA := a, argB := n },
      requireRange (readInRange g a n) (fun t => t.setPhase .xfer))
  | .suspend => some (fun l => { l with op := OpCode.suspend }, fun t => t.setPhase .xfer)
  | .resume => some (fun l => { l with op := OpCode.resume }, fun t => t.setPhase .xfer)
  | .writeEnable => some (fun l => { l with op := OpCode.writeEnable }, fun t => t.setPhase .xfer)
  | .isWriteInProgress => some (fun l => { l with op := OpCode.isWriteInProgress }, fun t => t.setPhase .xfer)
  | .spiWren => none
  | .spiRdsr => none
  | .spiRead _ _ => none
  | .spiFastRead _ _ => none
  | .spiPp _ _ => none
  | .spiSe _ => none
  | .spiBe _ => none
  | .spiCe => none
  | .spiDp => none
  | .spiRes => none
  | .spiRdid => none

/-- exec of a host operation is the shared accept on its parts. -/
theorem exec_accept (i : Instr) (s : State) (operands : Latch → Latch) (go : State → State)
    (h : acceptParts s.geom i = some (operands, go)) : exec i s = accept operands go s := by
  cases i <;> simp only [acceptParts, Option.some.injEq, Prod.mk.injEq, reduceCtorEq] at h <;>
    obtain ⟨rfl, rfl⟩ := h <;> rfl

/-- A host operation accepted while `REQ_READY` is 1. -/
theorem exec_accept_ready (i : Instr) (s : State) (operands : Latch → Latch) (go : State → State)
    (h : acceptParts s.geom i = some (operands, go)) (hp : s.phase = .idle) (hc : s.cfgStatus = .cfgOk) :
    exec i s = .next (go (acceptedAs (operands s.latch) s)) := by
  rw [exec_accept i s operands go h, accept_ready operands go s hp hc]

/-- Every host operation has its parts. -/
theorem acceptParts_isSome (g : Geom) (i : Instr) (h : i.command = none) : ∃ o go, acceptParts g i = some (o, go) := by
  cases i <;> simp [Instr.command] at h <;> exact ⟨_, _, rfl⟩

end Sys2Proof.Machine
end

