-- ==== Sys2Proof/Laws/Route.lean ====
section
/-! SUPPORT. The laws of the route (spec/10_state.md R19): what the continuations of the commands can change, and the classes of the operation
codes. -/

namespace Sys2Proof.Machine

/-- `t` is `s` but for the phase, the sequencing registers and the response. -/
def RouteOnly (s t : State) : Prop :=
  t = { s with phase := t.phase, seq := t.seq, resp := t.resp, responses := t.responses, freeCtr := t.freeCtr }

/-- `t` is `s` but for the phase and the response. -/
def PhaseOnly (s t : State) : Prop := RouteOnly s t ∧ t.seq = s.seq

theorem PhaseOnly.refl (s : State) : PhaseOnly s s := ⟨rfl, rfl⟩

theorem setPhase_phaseOnly (s : State) (ph : Phase) : PhaseOnly s (s.setPhase ph) := ⟨rfl, rfl⟩

theorem deliver_phaseOnly (r : Response) (s : State) : PhaseOnly s (deliver r s) := ⟨rfl, rfl⟩

theorem afterWren_phaseOnly (s : State) : PhaseOnly s (afterWren s) := by
  unfold afterWren
  split
  · split
    · exact setPhase_phaseOnly _ _
    · exact setPhase_phaseOnly _ _
    · exact PhaseOnly.refl s
    · exact PhaseOnly.refl s
  · exact deliver_phaseOnly _ _
  all_goals exact PhaseOnly.refl s

theorem afterMutating_phaseOnly (s : State) : PhaseOnly s (afterMutating s) := by
  unfold afterMutating
  split <;> exact setPhase_phaseOnly _ _

theorem afterTransfer_phaseOnly (data : List Byte) (s : State) : PhaseOnly s (afterTransfer data s) := by
  unfold afterTransfer
  split <;> first | exact deliver_phaseOnly _ _ | exact PhaseOnly.refl s

theorem continueOrRespond_routeOnly (more : Bool) (s : State) (q : Seq) :
    RouteOnly s (continueOrRespond more (s.setSeq q)) := by
  cases more <;> rfl

theorem advance_routeOnly (s : State) : RouteOnly s (advance s) := by
  unfold advance
  split
  · exact continueOrRespond_routeOnly _ _ _
  · exact continueOrRespond_routeOnly _ _ _
  all_goals exact (PhaseOnly.refl s).1

theorem afterStatus_routeOnly (status : Byte) (s : State) : RouteOnly s (afterStatus status s) := by
  unfold afterStatus
  split
  · split
    · exact (PhaseOnly.refl s).1
    · split <;> exact (setPhase_phaseOnly _ _).1
  · split
    · exact (PhaseOnly.refl s).1
    · exact advance_routeOnly s
  · exact (deliver_phaseOnly _ _).1
  all_goals exact (PhaseOnly.refl s).1

/-- Outside POST_POLL a status read leaves the sequencing registers alone. -/
theorem afterStatus_seq (status : Byte) (s : State) (h : s.phase ≠ .postPoll) :
    (afterStatus status s).seq = s.seq := by
  unfold afterStatus
  split
  · split
    · rfl
    · split <;> rfl
  · next hp => exact absurd hp h
  all_goals rfl

/-- The operation codes, class by class (R19, R72). -/
theorem routeClass_e (op : BitVec 4) : routeClass op = some .e ↔ op = 1#4 ∨ op = 2#4 ∨ op = 3#4 := by
  revert op; decide

theorem routeClass_w (op : BitVec 4) : routeClass op = some .w ↔ op = 4#4 := by
  revert op; decide

theorem routeClass_q (op : BitVec 4) :
    routeClass op = some .q ↔ op = 0#4 ∨ op = 5#4 ∨ op = 6#4 ∨ op = 7#4 ∨ op = 8#4 ∨ op = 9#4 ∨ op = 10#4 := by
  revert op; decide

theorem mutatingClass_iff (s : State) : mutatingClass s = true ↔ 1 ≤ s.latch.op.toNat ∧ s.latch.op.toNat ≤ 4 := by
  unfold mutatingClass
  generalize s.latch.op = op
  revert op; decide

/-- The two halves of the mutating operation codes. -/
theorem mutating_cases (op : BitVec 4) (h1 : 1 ≤ op.toNat) (h2 : op.toNat ≤ 4) :
    routeClass op = some .e ∧ op ≠ 4#4 ∨ routeClass op = some .w ∧ op = 4#4 := by
  revert op; decide

end Sys2Proof.Machine
end

