-- ==== Sys2Proof/Laws/Memory.lean ====
section
/-! SUPPORT. The laws of Memory: a read after a write, and that every memory operation keeps the canonical form. -/

namespace Sys2Proof.Machine

/-- The canonical form as two facts about the cells. -/
theorem Memory.wf_iff (m : Memory) :
    m.wf = true ↔ m.Pairwise (fun c d => c.1 < d.1) ∧ ∀ c ∈ m, c.2 ≠ Memory.unlisted := by
  simp [Memory.wf]

/-- The canonical form, cell by cell. -/
theorem Memory.wf_cons (c : Host.Cell) (m : Memory) :
    Memory.wf (c :: m) = true ↔ (∀ d ∈ m, c.1 < d.1) ∧ c.2 ≠ Memory.unlisted ∧ Memory.wf m = true := by
  simp only [Memory.wf_iff, List.pairwise_cons, List.mem_cons, forall_eq_or_imp]
  tauto

theorem Memory.wf_nil : Memory.wf [] = true := by simp [Memory.wf]

/-- An address below every listed one is unlisted. -/
theorem Memory.read_of_lt (m : Memory) (a : Nat) (h : ∀ d ∈ m, a < d.1) : m.read a = Memory.unlisted := by
  induction m with
  | nil => rfl
  | cons c m ih =>
    have := h c (List.mem_cons_self ..)
    simp only [Memory.read]
    rw [if_neg (by omega)]
    exact ih fun d hd => h d (List.mem_cons_of_mem _ hd)

/-- A new cell in front of a memory. -/
theorem Memory.read_cell_append (a : Nat) (b : Byte) (m : Memory) (x : Nat) (h : ∀ d ∈ m, a < d.1) :
    Memory.read (Memory.cell a b ++ m) x = if x = a then b else m.read x := by
  by_cases hb : b = Memory.unlisted
  · subst hb
    simp only [Memory.cell, if_true, List.nil_append]
    split
    · next e => subst e; exact Memory.read_of_lt m x h
    · rfl
  · simp [Memory.cell, hb, Memory.read, eq_comm]

/-- The cells of a memory after a write are the written address and old cells. -/
theorem Memory.mem_write (m : Memory) (a : Nat) (b : Byte) (d : Host.Cell) (hd : d ∈ m.write a b) :
    d = (a, b) ∨ d ∈ m := by
  have hcell : ∀ d ∈ Memory.cell a b, d = (a, b) := by
    intro d hd
    by_cases hb : b = Memory.unlisted <;> simp_all [Memory.cell]
  induction m with
  | nil => exact Or.inl (hcell d hd)
  | cons c m ih =>
    simp only [Memory.write] at hd
    split at hd
    · rcases List.mem_append.1 hd with h | h
      · exact Or.inl (hcell d h)
      · exact Or.inr h
    · split at hd
      · rcases List.mem_append.1 hd with h | h
        · exact Or.inl (hcell d h)
        · exact Or.inr (List.mem_cons_of_mem _ h)
      · rcases List.mem_cons.1 hd with h | h
        · exact Or.inr (h ▸ List.mem_cons_self ..)
        · rcases ih h with h | h
          · exact Or.inl h
          · exact Or.inr (List.mem_cons_of_mem _ h)

/-- Reading after a write: the byte written at its address, every other byte as before. -/
theorem Memory.read_write (m : Memory) (a : Nat) (b : Byte) (x : Nat) (h : m.wf = true) :
    (m.write a b).read x = if x = a then b else m.read x := by
  induction m with
  | nil => simpa [Memory.write, Memory.read] using Memory.read_cell_append a b [] x (by simp)
  | cons c m ih =>
    obtain ⟨hlt, -, hm⟩ := (Memory.wf_cons c m).1 h
    simp only [Memory.write]
    split
    · next hac =>
      rw [Memory.read_cell_append]
      intro d hd
      rcases List.mem_cons.1 hd with rfl | hd
      · exact hac
      · exact Nat.lt_trans hac (hlt d hd)
    · split
      · next hac =>
        subst hac
        rw [Memory.read_cell_append _ _ _ _ hlt]
        simp only [Memory.read]
        split
        · rfl
        · rw [if_neg (by omega)]
      · next h1 h2 =>
        simp only [Memory.read, ih hm]
        split
        · rw [if_neg (by omega)]
        · rfl

/-- A write keeps the canonical form. -/
theorem Memory.write_wf (m : Memory) (a : Nat) (b : Byte) (h : m.wf = true) : (m.write a b).wf = true := by
  have hcell : ∀ m : Memory, (∀ d ∈ m, a < d.1) → m.wf = true → Memory.wf (Memory.cell a b ++ m) = true := by
    intro m hlt hm
    by_cases hb : b = Memory.unlisted
    · simpa [Memory.cell, hb] using hm
    · simp only [Memory.cell, hb, if_false, List.cons_append, List.nil_append]
      exact (Memory.wf_cons _ _).2 ⟨hlt, hb, hm⟩
  induction m with
  | nil => simpa [Memory.write] using hcell [] (by simp) Memory.wf_nil
  | cons c m ih =>
    obtain ⟨hlt, hc, hm⟩ := (Memory.wf_cons c m).1 h
    simp only [Memory.write]
    split
    · next hac =>
      refine hcell _ ?_ h
      intro d hd
      rcases List.mem_cons.1 hd with rfl | hd
      · exact hac
      · exact Nat.lt_trans hac (hlt d hd)
    · split
      · next hac => exact hcell _ (by subst hac; exact hlt) hm
      · next h1 h2 =>
        refine (Memory.wf_cons _ _).2 ⟨?_, hc, ih hm⟩
        intro d hd
        rcases Memory.mem_write m a b d hd with rfl | hd
        · simp only; omega
        · exact hlt d hd

/-- Reading after an erase. -/
theorem Memory.read_eraseRange (m : Memory) (lo hi x : Nat) (h : m.wf = true) :
    (m.eraseRange lo hi).read x = if lo ≤ x ∧ x < hi then Memory.unlisted else m.read x := by
  induction m with
  | nil => simp [Memory.eraseRange, Memory.read]
  | cons c m ih =>
    obtain ⟨hlt, -, hm⟩ := (Memory.wf_cons c m).1 h
    have ih := ih hm
    simp only [Memory.eraseRange, List.filter_cons] at ih ⊢
    split
    · next hc =>
      simp only [Bool.or_eq_true, decide_eq_true_eq] at hc
      simp only [Memory.read, ih]
      by_cases hx : c.1 = x
      · rw [if_pos hx, if_neg (by omega), if_pos hx]
      · rw [if_neg hx, if_neg hx]
    · next hc =>
      simp only [Bool.or_eq_true, decide_eq_true_eq, not_or, Nat.not_lt, Nat.not_le] at hc
      rw [ih]
      by_cases hx : c.1 = x
      · rw [if_pos (by omega), if_pos (by omega)]
      · simp only [Memory.read, if_neg hx]

/-- An erase keeps the canonical form. -/
theorem Memory.eraseRange_wf (m : Memory) (lo hi : Nat) (h : m.wf = true) : (m.eraseRange lo hi).wf = true := by
  rw [Memory.wf_iff] at h ⊢
  exact ⟨h.1.filter _, fun c hc => h.2 c (List.mem_of_mem_filter hc)⟩

/-- A memory built from bytes is in the canonical form, at or above its first address. -/
theorem Memory.ofBytes_wf (bs : List Byte) : ∀ a : Nat,
    (Memory.ofBytes a bs).wf = true ∧ ∀ d ∈ Memory.ofBytes a bs, a ≤ d.1 := by
  induction bs with
  | nil => intro a; exact ⟨Memory.wf_nil, by simp [Memory.ofBytes]⟩
  | cons b bs ih =>
    intro a
    obtain ⟨hwf, hge⟩ := ih (a + 1)
    by_cases hb : b = Memory.unlisted
    · simp only [Memory.ofBytes, Memory.cell, hb, if_true, List.nil_append]
      exact ⟨hwf, fun d hd => Nat.le_of_succ_le (hge d hd)⟩
    · simp only [Memory.ofBytes, Memory.cell, hb, if_false, List.cons_append, List.nil_append]
      refine ⟨(Memory.wf_cons _ _).2 ⟨fun d hd => hge d hd, hb, hwf⟩, ?_⟩
      intro d hd
      rcases List.mem_cons.1 hd with rfl | hd
      · exact Nat.le_refl _
      · exact Nat.le_of_succ_le (hge d hd)

/-- A memory built from bytes holds them, and nothing else. -/
theorem Memory.read_ofBytes (bs : List Byte) : ∀ a x : Nat,
    (Memory.ofBytes a bs).read x = if a ≤ x then bs.getD (x - a) Memory.unlisted else Memory.unlisted := by
  induction bs with
  | nil => intro a x; simp [Memory.ofBytes, Memory.read]
  | cons b bs ih =>
    intro a x
    simp only [Memory.ofBytes]
    rw [Memory.read_cell_append _ _ _ _ fun d hd => (Memory.ofBytes_wf bs (a + 1)).2 d hd, ih]
    by_cases hx : x = a
    · subst hx; simp
    · rw [if_neg hx]
      by_cases hlt : a ≤ x
      · have h1 : a + 1 ≤ x := by omega
        have h2 : x - a = (x - (a + 1)) + 1 := by omega
        rw [if_pos h1, if_pos hlt, h2, List.getD_cons_succ]
      · rw [if_neg (by omega), if_neg hlt]

@[simp] theorem Memory.readRange_length (m : Memory) (a n : Nat) : (m.readRange a n).length = n := by
  simp [Memory.readRange]

end Sys2Proof.Machine
end

