-- ==== Sys2Proof/Laws/Transport.lean ====
section
/-! SUPPORT. The laws of the oracle: lengths of what is received (spec/41_framer_transport_poll.md R121), and that no answer breaks the canonical form
of the reference chip's array. -/

namespace Sys2Proof.Machine

@[simp] theorem freeBytes_length (call n : Nat) : (freeBytes call n).length = n := by simp [freeBytes]

@[simp] theorem Chip.dataBytes_length (c : Chip) (a n : Nat) : (c.dataBytes a n).length = n := by simp [Chip.dataBytes]

@[simp] theorem fitBytes_length (call n : Nat) (rx : List Byte) : (fitBytes call n rx).length = n := by simp [fitBytes]

/-- Received bytes of the right length are taken as they are. -/
theorem fitBytes_eq (call : Nat) (rx : List Byte) : fitBytes call rx.length rx = rx := by
  apply List.ext_getElem
  · simp
  · intro i h1 h2
    simp [fitBytes, List.getD_eq_getElem?_getD, h2]

/-- A byte that was received and has room in the frame is taken as it is. -/
theorem fitBytes_getElem? (call n : Nat) (rx : List Byte) (i : Nat) (hn : i < n) (hr : i < rx.length) :
    (fitBytes call n rx)[i]? = rx[i]? := by
  simp [fitBytes, hn, hr, List.getD_eq_getElem?_getD]

/-- The answer to a frame whose first byte is the opcode of a command, for a chip that is awake (R65). -/
theorem Chip.answer_opcode (p : Params) (hp : p.wf = true) (call : Nat) (c : Chip) (hd : c.dpd = false) (cmd : Command)
    (body : List Byte) :
    c.answer p call (p.opcode cmd :: body) =
      (fitBytes call (body.length + 1) (c.perform call (p.opcode cmd :: body) cmd).1,
        (c.perform call (p.opcode cmd :: body) cmd).2) := by
  simp [Chip.answer, Chip.hears, commandOf_opcode p hp cmd, hd]

/-- The address a chip takes from a frame is the one the encoder put there (R45, R84). -/
theorem Chip.frameAddress_field (call : Nat) (b : Byte) (a : Word) (h : addressFits a = true) (more : List Byte) :
    Chip.frameAddress call (b :: (addressField a ++ more)) = a.toNat :=
  congrArg BitVec.toNat (addressOf_addressField a h)

/-- The reference chip receives and answers byte for byte. -/
theorem Chip.answer_length (p : Params) (call : Nat) (tx : List Byte) (c : Chip) :
    (c.answer p call tx).1.length = tx.length := by
  unfold Chip.answer
  split <;> simp

/-- A page-program keeps the canonical form. -/
theorem Chip.programBytes_wf (g : Geom) (a : Nat) (bs : List Byte) : ∀ (j : Nat) (m : Memory), m.wf = true →
    (Chip.programBytes g a j bs m).wf = true := by
  induction bs with
  | nil => intro j m h; exact h
  | cons b bs ih => intro j m h; exact ih _ _ (Memory.write_wf _ _ _ h)

/-- Every effect keeps the canonical form. -/
theorem Chip.apply_wf (g : Geom) (m : Memory) (e : ChipEffect) (h : m.wf = true) : (Chip.apply g m e).wf = true := by
  cases e with
  | program a data => exact Chip.programBytes_wf g a data 0 m h
  | eraseSector a => exact Memory.eraseRange_wf _ _ _ h
  | eraseBlock a => exact Memory.eraseRange_wf _ _ _ h
  | eraseAll => exact Memory.eraseRange_wf _ _ _ h

theorem Chip.complete_wf (c : Chip) (h : c.mem.wf = true) : c.complete.mem.wf = true := by
  unfold Chip.complete
  split
  · next e he => simpa using Chip.apply_wf c.geom c.mem e h
  · exact h

theorem Chip.tick_wf (c : Chip) (h : c.mem.wf = true) : c.tick.mem.wf = true := by
  unfold Chip.tick
  split
  · exact Chip.complete_wf c h
  · split <;> exact h

/-- A mutating command to a busy chip, or to one without its latch, has no effect (R65). -/
theorem Chip.start_ignored (c : Chip) (e : ChipEffect) (h : c.busy = true ∨ c.wel = false) : c.start e = c := by
  rcases h with h | h <;> simp [Chip.start, h]

/-- A mutating command to an idle chip with its latch starts the effect (R65). -/
theorem Chip.start_accepted (c : Chip) (e : ChipEffect) (hb : c.busy = false) (hw : c.wel = true) :
    c.start e = { c with busy := true, busyReadsLeft := c.d, pending := some e } := by
  simp [Chip.start, hb, hw]

theorem Chip.start_mem (c : Chip) (e : ChipEffect) : (c.start e).mem = c.mem := by
  unfold Chip.start
  split <;> rfl

/-- What a call changes of the chip's array: nothing, but for a status read, which may complete the effect in flight. -/
theorem Chip.perform_mem (call : Nat) (tx : List Byte) (c : Chip) (cmd : Command) :
    (c.perform call tx cmd).2.mem = c.mem ∨ (cmd = .rdsr ∧ (c.perform call tx cmd).2 = c.tick) := by
  cases cmd
  case wren => left; simp only [Chip.perform]; split <;> rfl
  case rdsr => exact Or.inr ⟨rfl, rfl⟩
  case pp => exact Or.inl (Chip.start_mem c _)
  case se => exact Or.inl (Chip.start_mem c _)
  case be => exact Or.inl (Chip.start_mem c _)
  case ce => exact Or.inl (Chip.start_mem c _)
  all_goals exact Or.inl rfl

theorem Chip.answer_mem (p : Params) (call : Nat) (tx : List Byte) (c : Chip) :
    (c.answer p call tx).2.mem = c.mem ∨ (c.hears p tx = some .rdsr ∧ (c.answer p call tx).2 = c.tick) := by
  unfold Chip.answer
  split
  · exact Or.inl rfl
  · next cmd hc =>
    rcases Chip.perform_mem call tx c cmd with h | ⟨h, h'⟩
    · exact Or.inl h
    · exact Or.inr ⟨by rw [hc, h], h'⟩

theorem Chip.answer_wf (p : Params) (call : Nat) (tx : List Byte) (c : Chip) (h : c.mem.wf = true) :
    (c.answer p call tx).2.mem.wf = true := by
  rcases Chip.answer_mem p call tx c with h' | ⟨-, h'⟩
  · rw [h']; exact h
  · rw [h']; exact Chip.tick_wf c h

/-- An oracle's answer keeps the canonical form of every memory in it. -/
theorem oracle_answer_wf (p : Params) (call : Nat) (tx : List Byte) (o : Oracle) (h : Oracle.wf o = true) :
    Oracle.wf (o.answer p call tx).2 = true := by
  match o with
  | .script [] => rfl
  | .script (_ :: _) => rfl
  | .chip c [] =>
    simp only [Oracle.wf, Oracle.answer, Bool.and_eq_true, List.all_nil, and_true] at h ⊢
    exact Chip.answer_wf p call tx c h
  | .chip c (none :: plan) =>
    simp only [Oracle.wf, Oracle.answer, Bool.and_eq_true, List.all_cons, true_and] at h ⊢
    exact ⟨Chip.answer_wf p call tx c h.1, h.2⟩
  | .chip c (some ⟨e, none⟩ :: plan) =>
    simp only [Oracle.wf, Oracle.answer, Bool.and_eq_true, List.all_cons, true_and, Option.getD_none] at h ⊢
    exact h
  | .chip c (some ⟨e, some left⟩ :: plan) =>
    simp only [Oracle.wf, Oracle.answer, Bool.and_eq_true, List.all_cons, Option.getD_some] at h ⊢
    exact h.2

/-- The scripted answer to a call, when the script gives as many bytes as were sent. -/
theorem Reply.fit_ok (call : Nat) (tx rx : List Byte) (h : rx.length = tx.length) :
    Reply.fit call tx (.ok rx) = .ok rx := by
  simp only [Reply.fit, ← h, fitBytes_eq]

/-- The answer to a scripted status read. -/
theorem script_answer_two (p : Params) (call : Nat) (a b x y : Byte) (rest : List Reply) :
    (Oracle.script (.ok [x, y] :: rest)).answer p call [a, b] = (.ok [x, y], .script rest) := by
  simp [Oracle.answer, Reply.fit_ok]

/-- A call that succeeds receives as many bytes as it transmits, whatever answers it (R121). -/
theorem oracle_answer_length {p : Params} {call : Nat} {tx rx : List Byte} {o o' : Oracle}
    (h : o.answer p call tx = (.ok rx, o')) : rx.length = tx.length := by
  match o, h with
  | .script [], h =>
    simp only [Oracle.answer, freeReply] at h
    split at h
    · simp at h
    · simp only [Prod.mk.injEq, Reply.ok.injEq] at h
      rw [← h.1]
      simp
  | .script (.ok r :: _), h =>
    simp only [Oracle.answer, Reply.fit, Prod.mk.injEq, Reply.ok.injEq] at h
    rw [← h.1]
    simp
  | .script (.err e :: _), h => simp [Oracle.answer, Reply.fit] at h
  | .chip c [], h =>
    simp only [Oracle.answer, Prod.mk.injEq, Reply.ok.injEq] at h
    rw [← h.1]
    exact Chip.answer_length p call tx c
  | .chip c (none :: plan), h =>
    simp only [Oracle.answer, Prod.mk.injEq, Reply.ok.injEq] at h
    rw [← h.1]
    exact Chip.answer_length p call tx c
  | .chip c (some f :: plan), h => simp [Oracle.answer] at h

end Sys2Proof.Machine
end

