-- ==== Sys2Proof/Laws/Step.lean ====
section
/-! SUPPORT. The laws of a step (spec/10_state.md R19): each of its cases as an equation, and one inversion that says everything a step can
do. Provers cite these and do not unfold step. -/

namespace Sys2Proof.Machine

theorem step_reset (s : State) (straps : Straps) (h : s.resetIn = some straps) :
    step s = .next (applyReset straps s) := by
  simp [step, h]

theorem step_idle (s : State) (hr : s.resetIn = none) (hp : s.phase = .idle) : step s = stepIdle s := by
  simp [step, hr, hp]

theorem step_busy (s : State) (i : Instr) (hr : s.resetIn = none) (hp : s.phase ≠ .idle)
    (h : selectCommand s = .ok i) : step s = exec i s := by
  simp [step, hr, hp, stepBusy, h]

/-- The block waits (R21, R222). -/
theorem step_waits (s : State) (hr : s.resetIn = none) (hp : s.phase = .idle)
    (h : s.requests = [] ∨ s.cfgStatus ≠ .cfgOk) : step s = .next s := by
  rw [step_idle s hr hp, stepIdle]
  split
  · rfl
  · next r rest hq =>
    have hc : s.cfgStatus ≠ .cfgOk := by
      rcases h with h | h
      · rw [hq] at h; cases h
      · exact h
    simp [reqReady, hc]

/-- The next request is taken (R19 step ACCEPT). -/
theorem step_accepts (s : State) (r : Request) (rest : List Request) (hr : s.resetIn = none) (hp : s.phase = .idle)
    (hc : s.cfgStatus = .cfgOk) (hq : s.requests = r :: rest) : step s = acceptRequest r rest s := by
  rw [step_idle s hr hp, stepIdle, hq]
  simp [(reqReady_iff s).2 ⟨hp, hc⟩]

/-- What a request decodes to is a host operation. -/
theorem decodeRequest_command {r : ReqWords} {i : Instr} (h : decodeRequest r = .ok i) : i.command = none := by
  unfold decodeRequest at h
  split at h
  · unfold operationOf at h
    split at h <;> first | (cases h; rfl) | cases h
  · cases h

/-- What a phase selects is a command. -/
theorem selectCommand_command {s : State} {i : Instr} (h : selectCommand s = .ok i) : i.command ≠ none := by
  unfold selectCommand at h
  split at h
  · cases h
  · split at h <;> cases h; decide
  · split at h <;> cases h; decide
  · unfold mutatingCommand at h
    split at h
    · cases h; decide
    · cases h; simp [Instr.command]
    · cases h; simp [Instr.command]
    · split at h <;> cases h; simp [Instr.command]
    · cases h
  · split at h <;> cases h; decide
  · unfold transferCommand at h
    split at h <;> cases h <;> simp [Instr.command]

/-- Everything a step can do while reset is not asserted (R19). -/
theorem step_cases {s t : State} (hr : s.resetIn = none) (h : step s = .next t) :
    (s.phase = .idle ∧ (s.requests = [] ∨ s.cfgStatus ≠ .cfgOk) ∧ t = s) ∨
    (s.phase = .idle ∧ s.cfgStatus = .cfgOk ∧ ∃ r rest, s.requests = r :: rest ∧
      ((∃ i, decodeRequest r.words = .ok i ∧ exec i (takeRequest r rest s) = .next t) ∨
        (∃ e, decodeRequest r.words = .error e ∧ t = refuseRequest (takeRequest r rest s)))) ∨
    (s.phase ≠ .idle ∧ ∃ i, selectCommand s = .ok i ∧ exec i s = .next t) := by
  by_cases hp : s.phase = .idle
  · by_cases hw : s.requests = [] ∨ s.cfgStatus ≠ .cfgOk
    · rw [step_waits s hr hp hw] at h
      exact Or.inl ⟨hp, hw, (Host.Outcome.next.inj h).symm⟩
    · obtain ⟨hq, hc⟩ := not_or.1 hw
      have hc := not_not.1 hc
      obtain ⟨r, rest, hq⟩ := List.exists_cons_of_ne_nil hq
      rw [step_accepts s r rest hr hp hc hq, acceptRequest] at h
      refine Or.inr (Or.inl ⟨hp, hc, r, rest, hq, ?_⟩)
      cases hd : decodeRequest r.words with
      | ok i => rw [hd] at h; exact Or.inl ⟨i, rfl, h⟩
      | error e => rw [hd] at h; exact Or.inr ⟨e, rfl, (Host.Outcome.next.inj h).symm⟩
  · refine Or.inr (Or.inr ⟨hp, ?_⟩)
    simp only [step, hr, hp, if_false, stepBusy] at h
    cases hs : selectCommand s with
    | ok i => rw [hs] at h; exact ⟨i, rfl, h⟩
    | error f => rw [hs] at h; cases h

section
variable (r : Request) (rest : List Request) (s : State)

@[simp] theorem takeRequest_params : (takeRequest r rest s).params = s.params := rfl
@[simp] theorem takeRequest_variant : (takeRequest r rest s).variant = s.variant := rfl
@[simp] theorem takeRequest_transportPresent : (takeRequest r rest s).transportPresent = s.transportPresent := rfl
@[simp] theorem takeRequest_cfgStatus : (takeRequest r rest s).cfgStatus = s.cfgStatus := rfl
@[simp] theorem takeRequest_geom : (takeRequest r rest s).geom = s.geom := rfl
@[simp] theorem takeRequest_phase : (takeRequest r rest s).phase = s.phase := rfl
@[simp] theorem takeRequest_latch : (takeRequest r rest s).latch = latchOf r.words := rfl
@[simp] theorem takeRequest_seq : (takeRequest r rest s).seq = s.seq := rfl
@[simp] theorem takeRequest_resp : (takeRequest r rest s).resp = s.resp := rfl
@[simp] theorem takeRequest_trace : (takeRequest r rest s).trace = s.trace := rfl
@[simp] theorem takeRequest_requests : (takeRequest r rest s).requests = rest := rfl
@[simp] theorem takeRequest_payload : (takeRequest r rest s).payload = r.payload := rfl
@[simp] theorem takeRequest_oracle : (takeRequest r rest s).oracle = s.oracle := rfl
@[simp] theorem takeRequest_resetIn : (takeRequest r rest s).resetIn = s.resetIn := rfl
@[simp] theorem takeRequest_accepted : (takeRequest r rest s).accepted = s.accepted := rfl
@[simp] theorem takeRequest_responses : (takeRequest r rest s).responses = s.responses := rfl
@[simp] theorem takeRequest_freeCtr : (takeRequest r rest s).freeCtr = s.freeCtr := rfl

end

/-- A refused request is counted and answered (R74, R193). -/
theorem refuseRequest_eq (s : State) :
    refuseRequest s = deliver (plainResponse .illegalRequest [] s.countAccept) s.countAccept := rfl

/-- A request that does not decode is taken and refused (R74). -/
theorem step_refuses (s : State) (r : Request) (rest : List Request) (e : DecodeError) (hr : s.resetIn = none)
    (hp : s.phase = .idle) (hc : s.cfgStatus = .cfgOk) (hq : s.requests = r :: rest)
    (hd : decodeRequest r.words = .error e) : step s = .next (refuseRequest (takeRequest r rest s)) := by
  rw [step_accepts s r rest hr hp hc hq, acceptRequest, hd]

/-- A request that decodes is taken and run (R19 step ACCEPT). -/
theorem step_runs (s : State) (r : Request) (rest : List Request) (i : Instr) (hr : s.resetIn = none)
    (hp : s.phase = .idle) (hc : s.cfgStatus = .cfgOk) (hq : s.requests = r :: rest)
    (hd : decodeRequest r.words = .ok i) : step s = exec i (takeRequest r rest s) := by
  rw [step_accepts s r rest hr hp hc hq, acceptRequest, hd]

/-- The continuation of a command changes the phase, the sequencing registers and the response, nothing else. -/
theorem commandParts_routeOnly {p : Params} {i : Instr} {k : CallKind} {tx : List Byte}
    {f : List Byte → State → State} (h : commandParts p i = some (k, tx, f)) (rx : List Byte) (s : State) :
    RouteOnly s (f rx s) := by
  cases i <;> simp only [commandParts, Option.some.injEq, Prod.mk.injEq, reduceCtorEq] at h <;>
    obtain ⟨rfl, rfl, rfl⟩ := h <;>
    first
    | exact (afterWren_phaseOnly _).1
    | exact afterStatus_routeOnly _ _
    | exact (afterTransfer_phaseOnly _ _).1
    | exact (afterMutating_phaseOnly _).1

/-- Everything a command can do: one call recorded, and the phase, the sequencing registers and the response moved. -/
theorem exec_command_routeOnly {i : Instr} {s t : State} (hi : i.command ≠ none) (h : exec i s = .next t) :
    ∃ o ev, RouteOnly (s.recordCall o ev) t := by
  obtain ⟨k, tx, f, hp⟩ := commandParts_isSome s.params i hi
  rw [exec_command i s k tx f hp] at h
  rcases command_cases h with ⟨rx, o, -, rfl⟩ | ⟨e, o, -, rfl⟩
  · exact ⟨o, _, commandParts_routeOnly hp rx _⟩
  · exact ⟨o, _, (deliver_phaseOnly _ _).1⟩

end Sys2Proof.Machine
end

