-- ==== Sys2Proof/Laws/Run.lean ====
section
/-! SUPPORT. Runs of several steps: a run is cut at any step that completes. -/

namespace Sys2Proof.Machine

theorem run_zero (s : State) : run 0 s = .next s := rfl

theorem run_succ (k : Nat) {s t : State} (h : step s = .next t) : run (k + 1) s = run k t := by
  simp only [run, h]

theorem run_one {s t : State} (h : step s = .next t) : run 1 s = .next t := by
  rw [run_succ 0 h, run_zero]

theorem run_add (a b : Nat) : ∀ {s t : State}, run a s = .next t → run (a + b) s = run b t := by
  induction a with
  | zero =>
    intro s t h
    obtain rfl := Host.Outcome.next.inj h
    rw [Nat.zero_add]
  | succ a ih =>
    intro s t h
    cases hs : step s with
    | next u =>
      rw [run_succ a hs] at h
      rw [Nat.add_right_comm, run_succ (a + b) hs]
      exact ih h
    | fault f => simp only [run, hs] at h; cases h
    | refused f => simp only [run, hs] at h; cases h

/-- It is the run of the host's interface. -/
theorem run_eq_core (k : Nat) : ∀ s : State, core.run k s = run k s := by
  induction k with
  | zero => intro s; rfl
  | succ k ih =>
    intro s
    have hc : core.step s = step s := rfl
    simp only [Host.Core.run, run, hc]
    cases step s with
    | next t => exact ih t
    | fault f => rfl
    | refused f => rfl

/-- One step of a phase that issues a command, where the oracle's answer is known (R19). -/
theorem step_answered {s : State} {i : Instr} {k : CallKind} {tx rx : List Byte} {f : List Byte → State → State}
    {o : Oracle} (hr : s.resetIn = none) (hp : s.phase ≠ .idle) (hsel : selectCommand s = .ok i)
    (hpt : commandParts s.params i = some (k, tx, f)) (ha : s.oracle.answer s.params s.freeCtr tx = (.ok rx, o)) :
    step s = .next (f rx (s.recordCall o (Event.ofCall k tx (.ok rx)))) := by
  rw [step_busy s i hr hp hsel, exec_command i s k tx f hpt, command_ok k tx rx f s o ha]

end Sys2Proof.Machine
end

