-- ==== Sys2Proof/Laws/Invariant.lean ====
section
/-! SUPPORT. What the invariant says about the operation in flight (spec/10_state.md R15, R18, R19): the bounds of the sequencing registers, the
command each phase selects, and one inversion that says everything a step of an operation in flight can do. -/

namespace Sys2Proof.Machine

/-- While an operation is in flight the geometry is that of a well-formed row (R13, R103). -/
theorem inv_geom {s : State} (h : Inv s) (hp : s.phase ≠ .idle) : ∃ r : GeomRow, r.wf = true ∧ s.geom = Geom.ofRow r := by
  have hc : s.cfgStatus = .cfgOk := by
    by_contra hc
    exact hp (h.closed hc)
  obtain ⟨r, -, hr, hg⟩ := geomLookup_some _ _ _ h.params (h.geometry hc)
  exact ⟨r, hr, hg⟩

theorem eraseProgress_op {s : State} (h : EraseProgress s) :
    s.latch.op = 1#4 ∨ s.latch.op = 2#4 ∨ s.latch.op = 3#4 := by
  rcases h with ⟨h, -⟩ | ⟨⟨h, -⟩ | ⟨h, -⟩, -⟩ <;> rw [h] <;> decide

theorem writeProgress_op {s : State} (h : WriteProgress s) : s.latch.op = 4#4 := h.1

theorem progress_class {s : State} (h : EraseProgress s ∨ WriteProgress s) :
    1 ≤ s.latch.op.toNat ∧ s.latch.op.toNat ≤ 4 := by
  rcases h with h | h
  · rcases eraseProgress_op h with h | h | h <;> rw [h] <;> decide
  · rw [writeProgress_op h]
    decide

/-- The class of the operation tells which progress it makes. -/
theorem progress_cases {s : State} (h : EraseProgress s ∨ WriteProgress s) :
    routeClass s.latch.op = some .e ∧ EraseProgress s ∨ routeClass s.latch.op = some .w ∧ WriteProgress s := by
  rcases h with h | h
  · exact Or.inl ⟨(routeClass_e _).2 (eraseProgress_op h), h⟩
  · exact Or.inr ⟨(routeClass_w _).2 (writeProgress_op h), h⟩

/-- The bounds of R15 for an erase: nothing wraps. -/
theorem erase_bounds {s : State} {r : GeomRow} (hr : r.wf = true) (hg : s.geom = Geom.ofRow r) (h : EraseProgress s)
    (ho : s.latch.op ≠ 1#4) :
    zext s.seq.curAddr + zext s.seq.stride < 2 ^ 32 ∧ 1 ≤ zext s.seq.nLeft ∧
    zext s.seq.curAddr + zext s.seq.nLeft * zext s.seq.stride ≤ 2 ^ 24 := by
  rcases h with ⟨h, -⟩ | ⟨ha, h1, h2, h3, h4⟩
  · exact absurd h ho
  · have hu : (zext s.latch.argA + zext s.latch.argB) * eraseUnit s ≤ s.geom.capacity := by
      rcases ha with ⟨e, ha⟩ | ⟨e, ha⟩
      · have : eraseUnit s = s.geom.blockSize := by simp [eraseUnit, e]
        exact (erase_units_fit s.geom r hg _ _ _ (Or.inl ⟨ha, this⟩)).2.2.2
      · have : eraseUnit s = s.geom.sectorSize := by simp [eraseUnit, e, OpCode.eraseSector, OpCode.eraseBlock]
        exact (erase_units_fit s.geom r hg _ _ _ (Or.inr ⟨ha, this⟩)).2.2.2
    have hcap : s.geom.capacity ≤ 2 ^ 24 := by
      rw [hg]
      exact (Geom.sizes r hr).2.2.2
    rw [h3]
    have : eraseUnit s ≤ zext s.seq.nLeft * eraseUnit s := Nat.le_mul_of_pos_left _ h1
    omega

/-- The bounds of R15 for a write. -/
theorem write_bounds {s : State} {r : GeomRow} (hr : r.wf = true) (hg : s.geom = Geom.ofRow r) (h : WriteProgress s) :
    zext s.seq.curAddr + zext s.seq.bytesLeft ≤ 2 ^ 24 ∧
    zext s.seq.bufIdx + zext s.seq.bytesLeft ≤ zext s.latch.bufLen ∧ 1 ≤ zext s.seq.bytesLeft ∧
    s.geom.pageSize = 256 := by
  obtain ⟨-, -, hin, h1, h2, h3, -⟩ := h
  obtain ⟨a1, a2, a3, a4, a5⟩ := (writeInRange_iff _ _ _ _ _).1 hin
  have e1 := sext_of_nonneg _ a1
  have e2 := sext_of_nonneg _ a2
  have e3 := sext_of_nonneg s.latch.argB (by omega)
  have hcap : s.geom.capacity ≤ 2 ^ 24 := by
    rw [hg]
    exact (Geom.sizes r hr).2.2.2
  refine ⟨by omega, by omega, h1, ?_⟩
  rw [hg]
  rfl

/-- XFER selects the command of the class Q operation in the latch (R150 to R182). -/
theorem select_xfer {s : State} (h : TransferArgsOk s) (hp : s.phase = .xfer) (hcap : s.geom.capacity ≤ 2 ^ 24) :
    ∃ i, selectCommand s = .ok i ∧ WellFormed i = true := by
  obtain ⟨hq, hrange⟩ := h
  have hread : s.latch.op = OpCode.read ∨ s.latch.op = OpCode.readFast →
      zext s.latch.argA < 2 ^ 24 ∧ 1 ≤ (sext s.latch.argB).toNat := by
    intro ho
    obtain ⟨h1, h2, h3⟩ := (readInRange_iff _ _ _).1 (hrange ho)
    have := sext_of_nonneg _ h1
    omega
  simp only [selectCommand, hp, transferCommand]
  rcases (routeClass_q _).1 hq with h | h | h | h | h | h | h
  all_goals simp only [h, BitVec.toNat_ofNat]
  case inr.inl =>
    obtain ⟨h1, h2⟩ := hread (Or.inl h)
    refine ⟨_, rfl, ?_⟩
    simp only [WellFormed, addressFits, Bool.and_eq_true, decide_eq_true_eq]
    exact ⟨h1, h2⟩
  case inr.inr.inl =>
    obtain ⟨h1, h2⟩ := hread (Or.inr h)
    refine ⟨_, rfl, ?_⟩
    simp only [WellFormed, addressFits, Bool.and_eq_true, decide_eq_true_eq]
    exact ⟨h1, h2⟩
  all_goals exact ⟨_, rfl, rfl⟩

/-- ISSUE selects a mutating command (R161 to R163, R170). -/
theorem select_issue {s : State} {r : GeomRow} (hr : r.wf = true) (hg : s.geom = Geom.ofRow r)
    (h : EraseProgress s ∨ WriteProgress s) (hp : s.phase = .issue) :
    ∃ i, selectCommand s = .ok i ∧ WellFormed i = true ∧
      (i = .spiCe ∨ (∃ a, i = .spiSe a) ∨ (∃ a, i = .spiBe a) ∨ (∃ a d, i = .spiPp a d)) := by
  simp only [selectCommand, hp, mutatingCommand]
  rcases h with h | h
  · have hfit : s.latch.op ≠ 1#4 → zext s.seq.curAddr < 2 ^ 24 := by
      intro hne
      obtain ⟨h1, h2, h3⟩ := erase_bounds hr hg h hne
      rcases h with ⟨h, -⟩ | ⟨-, -, -, h4, -⟩
      · exact absurd h hne
      · have : zext s.seq.stride ≤ zext s.seq.nLeft * zext s.seq.stride := Nat.le_mul_of_pos_left _ h2
        have hu : 256 ≤ eraseUnit s := by
          have := Geom.sizes r hr
          unfold eraseUnit
          rw [hg]
          split <;> omega
        omega
    rcases eraseProgress_op h with ho | ho | ho
    · simp only [ho]
      exact ⟨_, rfl, rfl, Or.inl rfl⟩
    · refine ⟨.spiBe s.seq.curAddr, by simp [ho], ?_, Or.inr (Or.inr (Or.inl ⟨_, rfl⟩))⟩
      exact decide_eq_true (hfit (by rw [ho]; decide))
    · refine ⟨.spiSe s.seq.curAddr, by simp [ho], ?_, Or.inr (Or.inl ⟨_, rfl⟩)⟩
      exact decide_eq_true (hfit (by rw [ho]; decide))
  · obtain ⟨h1, h2, h3, h4⟩ := write_bounds hr hg h
    have hch : chunkLength s = min (zext s.seq.bytesLeft) 256 := by rw [chunkLength, h4]
    refine ⟨.spiPp s.seq.curAddr (chunkData s), ?_, ?_, Or.inr (Or.inr (Or.inr ⟨_, _, rfl⟩))⟩
    · have : zext s.seq.bufIdx + chunkLength s ≤ zext s.latch.bufLen := by omega
      simp [writeProgress_op h, this]
    · have : zext s.seq.curAddr < 2 ^ 24 := by omega
      simp only [WellFormed, addressFits, chunkData, Memory.readRange_length, Bool.and_eq_true, decide_eq_true_eq]
      exact ⟨⟨this, by omega⟩, by omega⟩

/-- Under the invariant every phase but IDLE selects a well-formed command (R42, R83, R86). -/
theorem select_inv {s : State} (h : Inv s) (hp : s.phase ≠ .idle) :
    ∃ i, selectCommand s = .ok i ∧ WellFormed i = true ∧ i.command ≠ none := by
  obtain ⟨r, hr, hg⟩ := inv_geom h hp
  have hro := h.route
  cases hph : s.phase with
  | idle => exact absurd hph hp
  | xfer =>
    simp only [OnRoute, hph] at hro
    obtain ⟨i, hi, hw⟩ := select_xfer hro hph (by rw [hg]; exact (Geom.sizes r hr).2.2.2)
    exact ⟨i, hi, hw, selectCommand_command hi⟩
  | issue =>
    simp only [OnRoute, hph] at hro
    obtain ⟨i, hi, hw, -⟩ := select_issue hr hg hro hph
    exact ⟨i, hi, hw, selectCommand_command hi⟩
  | prePoll =>
    simp only [OnRoute, hph] at hro
    have := (mutatingClass_iff s).2 (progress_class hro)
    exact ⟨.spiRdsr, by simp [selectCommand, hph, this], rfl, by decide⟩
  | postPoll =>
    simp only [OnRoute, hph] at hro
    have := (mutatingClass_iff s).2 (progress_class hro)
    exact ⟨.spiRdsr, by simp [selectCommand, hph, this], rfl, by decide⟩
  | wren =>
    simp only [OnRoute, hph] at hro
    have := (mutatingClass_iff s).2 (progress_class hro)
    exact ⟨.spiWren, by simp [selectCommand, hph, this], rfl, by decide⟩

/-- What a step of an operation in flight does after its call has been recorded in `c` (R19, R194): the call failed, the poll goes on, the
route goes on, the sequencing registers move, or the operation responds. -/
inductive FlightStep (s c : State) : State → Prop where
  | failed (e : TransportErr) : FlightStep s c (raiseTransport e c)
  | preBusy (hp : s.phase = .prePoll) : FlightStep s c c
  | preDone (hp : s.phase = .prePoll) : FlightStep s c (c.setPhase (if s.latch.op = 4#4 then .issue else .wren))
  | wren (hp : s.phase = .wren) : FlightStep s c (c.setPhase (if s.latch.op = 4#4 then .prePoll else .issue))
  | issue (hp : s.phase = .issue) : FlightStep s c (c.setPhase .postPoll)
  | postBusy (hp : s.phase = .postPoll) : FlightStep s c c
  | postDone (hp : s.phase = .postPoll) : FlightStep s c (advance c)
  | transfer (hp : s.phase = .xfer) (data : List Byte)
      (h0 : s.latch.op = 0#4 → data.length = 3)
      (h10 : s.latch.op = 10#4 → data = [0x00#8] ∨ data = [0x01#8])
      (hr : s.latch.op = 5#4 ∨ s.latch.op = 6#4 → data.length = s.latch.argB.toNat)
      (hn : s.latch.op = 7#4 ∨ s.latch.op = 8#4 ∨ s.latch.op = 9#4 → data = []) : FlightStep s c (respondOk data c)

theorem busyByte_cases (b : Byte) : busyByte b = 0x00#8 ∨ busyByte b = 0x01#8 := by revert b; decide

/-- An exchange that succeeds has as many received bytes as transmitted ones (R121). -/
theorem received_length {rx : List Byte} {n m : Nat} (h : rx.length = m + n) : (received rx m n).length = n := by
  simp [received, h]

/-- Everything a step of an operation in flight can do. -/
theorem flight_cases {s t : State} (hi : Inv s) (hr : s.resetIn = none) (hp : s.phase ≠ .idle) (hs : step s = .next t) :
    ∃ o ev, FlightStep s (s.recordCall o ev) t := by
  obtain ⟨i, hsel, -, hcmd⟩ := select_inv hi hp
  obtain ⟨r, hrow, hg⟩ := inv_geom hi hp
  rw [step_busy s i hr hp hsel] at hs
  obtain ⟨k, tx, f, hpt⟩ := commandParts_isSome s.params i hcmd
  rw [exec_command i s k tx f hpt] at hs
  rcases command_cases hs with ⟨rx, o, ha, rfl⟩ | ⟨e, o, -, rfl⟩
  swap
  · exact ⟨o, _, .failed e⟩
  refine ⟨o, Event.ofCall k tx (.ok rx), ?_⟩
  have hro := hi.route
  have hl : rx.length = tx.length := oracle_answer_length ha
  cases hph : s.phase with
  | idle => exact absurd hph hp
  | prePoll =>
    simp only [OnRoute, hph] at hro
    have hcl := progress_class hro
    simp only [selectCommand, hph, (mutatingClass_iff s).2 hcl, if_true] at hsel
    cases hsel
    cases hpt
    cases hb : busy (statusOf rx) with
    | true =>
      have : afterStatus (statusOf rx) (s.recordCall o (Event.ofCall .xchg (frameRdsr s.params) (.ok rx))) =
          s.recordCall o (Event.ofCall .xchg (frameRdsr s.params) (.ok rx)) := by
        simp [afterStatus, hph, hb]
      show FlightStep s _ (afterStatus _ _)
      rw [this]
      exact .preBusy hph
    | false =>
      have : afterStatus (statusOf rx) (s.recordCall o (Event.ofCall .xchg (frameRdsr s.params) (.ok rx))) =
          (s.recordCall o (Event.ofCall .xchg (frameRdsr s.params) (.ok rx))).setPhase
            (if s.latch.op = 4#4 then .issue else .wren) := by
        rcases mutating_cases _ hcl.1 hcl.2 with ⟨hc, hne⟩ | ⟨hc, he⟩
        · simp [afterStatus, hph, hb, hc, hne]
        · simp only [afterStatus, State.recordCall_phase, State.recordCall_latch, hph, hb, hc, if_pos he]
          rfl
      show FlightStep s _ (afterStatus _ _)
      rw [this]
      exact .preDone hph
  | wren =>
    simp only [OnRoute, hph] at hro
    have hcl := progress_class hro
    simp only [selectCommand, hph, (mutatingClass_iff s).2 hcl, if_true] at hsel
    cases hsel
    cases hpt
    have : afterWren (s.recordCall o (Event.ofCall .send (frameWren s.params) (.ok rx))) =
        (s.recordCall o (Event.ofCall .send (frameWren s.params) (.ok rx))).setPhase
          (if s.latch.op = 4#4 then .prePoll else .issue) := by
      rcases mutating_cases _ hcl.1 hcl.2 with ⟨hc, hne⟩ | ⟨hc, he⟩
      · simp [afterWren, hph, hc, hne]
      · simp only [afterWren, State.recordCall_phase, State.recordCall_latch, hph, hc, if_pos he]
    show FlightStep s _ (afterWren _)
    rw [this]
    exact .wren hph
  | issue =>
    simp only [OnRoute, hph] at hro
    obtain ⟨i', hsel', -, hmut⟩ := select_issue hrow hg hro hph
    rw [hsel] at hsel'
    obtain rfl := Except.ok.inj hsel'
    have hf : f = fun _ t => afterMutating t := by
      rcases hmut with rfl | ⟨a, rfl⟩ | ⟨a, rfl⟩ | ⟨a, d, rfl⟩ <;> cases hpt <;> rfl
    subst hf
    have : afterMutating (s.recordCall o (Event.ofCall k tx (.ok rx))) =
        (s.recordCall o (Event.ofCall k tx (.ok rx))).setPhase .postPoll := by
      simp [afterMutating, hph]
    show FlightStep s _ (afterMutating _)
    rw [this]
    exact .issue hph
  | postPoll =>
    simp only [OnRoute, hph] at hro
    have hcl := progress_class hro
    simp only [selectCommand, hph, (mutatingClass_iff s).2 hcl, if_true] at hsel
    cases hsel
    cases hpt
    cases hb : busy (statusOf rx) with
    | true =>
      have : afterStatus (statusOf rx) (s.recordCall o (Event.ofCall .xchg (frameRdsr s.params) (.ok rx))) =
          s.recordCall o (Event.ofCall .xchg (frameRdsr s.params) (.ok rx)) := by
        simp [afterStatus, hph, hb]
      show FlightStep s _ (afterStatus _ _)
      rw [this]
      exact .postBusy hph
    | false =>
      have : afterStatus (statusOf rx) (s.recordCall o (Event.ofCall .xchg (frameRdsr s.params) (.ok rx))) =
          advance (s.recordCall o (Event.ofCall .xchg (frameRdsr s.params) (.ok rx))) := by
        simp [afterStatus, hph, hb]
      show FlightStep s _ (afterStatus _ _)
      rw [this]
      exact .postDone hph
  | xfer =>
    simp only [OnRoute, hph] at hro
    have hrange : ∀ h : s.latch.op = OpCode.read ∨ s.latch.op = OpCode.readFast,
        (sext s.latch.argB).toNat = s.latch.argB.toNat := by
      intro h
      obtain ⟨-, h2, -⟩ := (readInRange_iff _ _ _).1 (hro.2 h)
      rw [sext_of_nonneg _ (by omega)]
      rfl
    have hxt : ∀ (d : List Byte) (u : State), u.phase = .xfer → afterTransfer d u = respondOk d u := by
      intro d u h
      simp [afterTransfer, h]
    have hxw : ∀ u : State, u.phase = .xfer → afterWren u = respondOk [] u := by
      intro u h
      simp [afterWren, h]
    have hxs : ∀ (b : Byte) (u : State), u.phase = .xfer → afterStatus b u = respondOk [busyByte b] u := by
      intro b u h
      simp [afterStatus, h]
    simp only [selectCommand, hph, transferCommand] at hsel
    rcases (routeClass_q _).1 hro.1 with h | h | h | h | h | h | h <;>
      simp only [h, BitVec.toNat_ofNat] at hsel <;> cases hsel <;> cases hpt
    · show FlightStep s _ (afterTransfer _ _)
      rw [hxt]
      · exact .transfer hph _ (fun _ => received_length (by rw [hl]; simp [frameRdid, frame1, fillBytes]))
          (by simp [h]) (by simp [h]) (by simp [h])
      · exact hph
    · show FlightStep s _ (afterTransfer _ _)
      rw [hxt]
      · refine .transfer hph _ (by simp [h]) (by simp [h]) (fun _ => ?_) (by simp [h])
        rw [received_length (by rw [hl]; simp [frameRead, frame4, fillBytes]; omega)]
        exact hrange (Or.inl h)
      · exact hph
    · show FlightStep s _ (afterTransfer _ _)
      rw [hxt]
      · refine .transfer hph _ (by simp [h]) (by simp [h]) (fun _ => ?_) (by simp [h])
        rw [received_length (by rw [hl]; simp [frameFastRead, frame4, fillBytes]; omega)]
        exact hrange (Or.inr h)
      · exact hph
    · show FlightStep s _ (afterTransfer _ _)
      rw [hxt]
      · exact .transfer hph _ (by simp [h]) (by simp [h]) (by simp [h]) (fun _ => rfl)
      · exact hph
    · show FlightStep s _ (afterTransfer _ _)
      rw [hxt]
      · exact .transfer hph _ (by simp [h]) (by simp [h]) (by simp [h]) (fun _ => rfl)
      · exact hph
    · show FlightStep s _ (afterWren _)
      rw [hxw]
      · exact .transfer hph _ (by simp [h]) (by simp [h]) (by simp [h]) (fun _ => rfl)
      · exact hph
    · show FlightStep s _ (afterStatus _ _)
      rw [hxs]
      · refine .transfer hph _ (by simp [h]) (fun _ => ?_) (by simp [h]) (by simp [h])
        rcases busyByte_cases (statusOf rx) with hb | hb <;> rw [hb]
        · exact Or.inl rfl
        · exact Or.inr rfl
      · exact hph

end Sys2Proof.Machine
end

