-- ==== Sys2Proof/Laws/Accept.lean ====
section
/-! SUPPORT. The laws of an accept and of the invariant across a step (spec/10_state.md R15, R16, R19, R24): what an accept can change, when a
response is delivered, and that the route is kept by each continuation. -/

namespace Sys2Proof.Machine

/-- What `continue` and `respond` come to: either silence outside IDLE, or one response in IDLE (R24). -/
def Delivers (u v : State) : Prop :=
  (v.responses = u.responses ∧ v.resp = u.resp ∧ v.phase ≠ .idle) ∨
  (v.phase = .idle ∧ v.responses = u.responses ++ [v.resp])

theorem deliver_delivers (r : Response) (s : State) : Delivers s (deliver r s) := Or.inr ⟨rfl, rfl⟩

theorem setPhase_delivers (s : State) (ph : Phase) (h : ph ≠ .idle) : Delivers s (s.setPhase ph) := Or.inl ⟨rfl, rfl, h⟩

theorem same_delivers (s : State) (h : s.phase ≠ .idle) : Delivers s s := Or.inl ⟨rfl, rfl, h⟩

theorem continueOrRespond_delivers (b : Bool) (s : State) (q : Seq) : Delivers s (continueOrRespond b (s.setSeq q)) := by
  cases b
  · exact deliver_delivers (plainResponse .ok [] (s.setSeq q)) (s.setSeq q)
  · exact Or.inl ⟨rfl, rfl, by simp [continueOrRespond]⟩

theorem advance_delivers (s : State) (h : s.phase ≠ .idle) : Delivers s (advance s) := by
  unfold advance
  split
  · exact continueOrRespond_delivers _ _ _
  · exact continueOrRespond_delivers _ _ _
  all_goals exact same_delivers s h

theorem commandParts_delivers {p : Params} {i : Instr} {k : CallKind} {tx : List Byte} {f : List Byte → State → State}
    (h : commandParts p i = some (k, tx, f)) (rx : List Byte) (s : State) (hs : s.phase ≠ .idle) :
    Delivers s (f rx s) := by
  have hw : Delivers s (afterWren s) := by
    unfold afterWren
    split
    · split <;> first | exact setPhase_delivers _ _ (by decide) | exact same_delivers s hs
    · exact deliver_delivers _ _
    all_goals exact same_delivers s hs
  have hm : Delivers s (afterMutating s) := by
    unfold afterMutating
    split <;> first | exact setPhase_delivers _ _ (by decide) | exact same_delivers s hs
  have ht : ∀ data, Delivers s (afterTransfer data s) := by
    intro data
    unfold afterTransfer
    split <;> first | exact deliver_delivers _ _ | exact same_delivers s hs
  have hr : ∀ b, Delivers s (afterStatus b s) := by
    intro b
    unfold afterStatus
    split
    · split
      · exact same_delivers s hs
      · split <;> first | exact setPhase_delivers _ _ (by decide) | exact same_delivers s hs
    · split
      · exact same_delivers s hs
      · exact advance_delivers s hs
    · exact deliver_delivers _ _
    all_goals exact same_delivers s hs
  cases i <;> simp only [commandParts, Option.some.injEq, Prod.mk.injEq, reduceCtorEq] at h <;>
    obtain ⟨rfl, rfl, rfl⟩ := h <;> first | exact hw | exact hm | exact ht _ | exact hr _

/-- A command outside IDLE delivers at most one response, and then it is in IDLE (R24). -/
theorem exec_command_delivers {i : Instr} {s t : State} (hi : i.command ≠ none) (hp : s.phase ≠ .idle)
    (h : exec i s = .next t) : Delivers s t := by
  obtain ⟨k, tx, f, hpt⟩ := commandParts_isSome s.params i hi
  rw [exec_command i s k tx f hpt] at h
  rcases command_cases h with ⟨rx, o, -, rfl⟩ | ⟨e, o, -, rfl⟩
  · exact commandParts_delivers hpt rx (s.recordCall o _) hp
  · exact deliver_delivers ⟨RespCode.transportError.code, [], e⟩ (s.recordCall o _)

theorem requireRange_delivers (b : Bool) (go : State → State) (s : State) (h : Delivers s (go s)) :
    Delivers s (requireRange b go s) := by
  cases b
  · exact deliver_delivers (plainResponse .invalidRange [] s) s
  · exact h

theorem acceptParts_delivers {g : Geom} {i : Instr} {o : Latch → Latch} {go : State → State}
    (h : acceptParts g i = some (o, go)) (s : State) : Delivers s (go s) := by
  cases i <;> simp only [acceptParts, Option.some.injEq, Prod.mk.injEq, reduceCtorEq] at h <;> obtain ⟨rfl, rfl⟩ := h
  case write =>
    unfold requireBuffer
    split
    · exact requireRange_delivers _ _ _ (Or.inl ⟨rfl, rfl, by simp⟩)
    · exact deliver_delivers (plainResponse .nullBuffer [] s) s
  all_goals first
    | exact Or.inl ⟨rfl, rfl, by simp⟩
    | exact requireRange_delivers _ _ _ (Or.inl ⟨rfl, rfl, by simp⟩)

/-- After the operands are latched an accept changes the phase, the sequencing registers and the response, nothing else. -/
theorem acceptParts_routeOnly {g : Geom} {i : Instr} {o : Latch → Latch} {go : State → State}
    (h : acceptParts g i = some (o, go)) (s : State) : RouteOnly s (go s) := by
  cases i <;> simp only [acceptParts, Option.some.injEq, Prod.mk.injEq, reduceCtorEq] at h <;>
    obtain ⟨rfl, rfl⟩ := h <;> try rfl
  case write =>
    simp only [requireBuffer, requireRange]
    split <;> [split; skip] <;> rfl
  all_goals
    simp only [requireRange]
    split <;> rfl

/-- What R162 and R163 put into the sequencing registers, read back: no bit is lost (R112). -/
theorem eraseStart_fields {g : Geom} {r : GeomRow} (hr : r.wf = true) (hg : g = Geom.ofRow r) (first count : Word)
    (size : Nat) (q : Seq)
    (h : (eraseBlockInRange g first count = true ∧ size = g.blockSize) ∨
      (eraseSectorInRange g first count = true ∧ size = g.sectorSize)) :
    zext (eraseStart size first count q).curAddr = zext first * size ∧
    zext (eraseStart size first count q).stride = size := by
  obtain ⟨e1, e2, e3, e4⟩ := erase_units_fit g r hg first count size h
  have hs := Geom.sizes r hr
  have hcap : g.capacity ≤ 2 ^ 24 := by
    rw [hg]
    exact hs.2.2.2
  have hsz : size ≤ 2 ^ 24 := by
    rcases h with ⟨_, rfl⟩ | ⟨_, rfl⟩ <;> rw [hg] <;> omega
  have hle : zext first * size ≤ 2 ^ 24 := by
    have := Nat.mul_le_mul_right size (Nat.le_add_right (zext first) (zext count))
    omega
  constructor
  · simp only [eraseStart]
    rw [e1, ← Int.natCast_mul, BitVec.ofInt_natCast]
    exact zext_ofNat _ (by omega)
  · exact zext_ofNat _ (by omega)

theorem requireRange_route (b : Bool) (go : State → State) (s : State) (h : b = true → OnRoute (go s)) :
    OnRoute (requireRange b go s) := by
  cases b
  · trivial
  · exact h rfl

/-- An accepted operation is on its route (R15, R19). -/
theorem acceptParts_route {i : Instr} {o : Latch → Latch} {go : State → State} (s : State) {r : GeomRow}
    (hr : r.wf = true) (hg : s.geom = Geom.ofRow r) (h : acceptParts s.geom i = some (o, go)) :
    OnRoute (go (acceptedAs (o s.latch) s)) := by
  cases i <;> simp only [acceptParts, Option.some.injEq, Prod.mk.injEq, reduceCtorEq] at h <;> obtain ⟨rfl, rfl⟩ := h
  case eraseChip => exact Or.inl (Or.inl ⟨rfl, rfl⟩)
  case eraseBlock b n =>
    refine requireRange_route _ _ _ (fun hin => Or.inl (Or.inr ?_))
    have hf := erase_units_fit s.geom r hg b n s.geom.blockSize (Or.inl ⟨hin, rfl⟩)
    obtain ⟨e1, e2⟩ := eraseStart_fields hr hg b n s.geom.blockSize s.seq (Or.inl ⟨hin, rfl⟩)
    refine ⟨Or.inl ⟨rfl, hin⟩, hf.2.2.1, Nat.le_refl _, e2, ?_⟩
    show zext _ + _ * s.geom.blockSize = (zext b + zext n) * s.geom.blockSize
    rw [Nat.add_mul]
    exact congrArg (· + zext n * s.geom.blockSize) e1
  case eraseSector b n =>
    refine requireRange_route _ _ _ (fun hin => Or.inl (Or.inr ?_))
    have hf := erase_units_fit s.geom r hg b n s.geom.sectorSize (Or.inr ⟨hin, rfl⟩)
    obtain ⟨e1, e2⟩ := eraseStart_fields hr hg b n s.geom.sectorSize s.seq (Or.inr ⟨hin, rfl⟩)
    refine ⟨Or.inr ⟨rfl, hin⟩, hf.2.2.1, Nat.le_refl _, e2, ?_⟩
    show zext _ + _ * s.geom.sectorSize = (zext b + zext n) * s.geom.sectorSize
    rw [Nat.add_mul]
    exact congrArg (· + zext n * s.geom.sectorSize) e1
  case write a n off bp bl =>
    simp only [requireBuffer]
    split
    · next hbp =>
      refine requireRange_route _ _ _ (fun hin => Or.inr ?_)
      obtain ⟨h1, h2, h3, h4, h5⟩ := (writeInRange_iff _ _ _ _ _).1 hin
      have e3 := sext_of_nonneg n (by omega)
      refine ⟨rfl, hbp, hin, ?_, rfl, rfl, 0, rfl⟩
      show 1 ≤ zext n
      omega
    · trivial
  case read a n => exact requireRange_route _ _ _ (fun hin => ⟨rfl, fun _ => hin⟩)
  case readFast a n => exact requireRange_route _ _ _ (fun hin => ⟨rfl, fun _ => hin⟩)
  all_goals
    refine ⟨rfl, fun h => absurd h ?_⟩
    simp [acceptedAs, OpCode.read, OpCode.readFast, OpCode.identify, OpCode.suspend, OpCode.resume, OpCode.writeEnable,
      OpCode.isWriteInProgress]

theorem onRoute_mutating {s : State} (h : EraseProgress s ∨ WriteProgress s) (hp : s.phase ≠ .xfer) : OnRoute s := by
  unfold OnRoute
  split <;> trivial

/-- The sequencing registers after a command keep the progress of the operation, while there is one left to issue (R162, R163, R170). -/
theorem advance_route {s : State} {r : GeomRow} (hr : r.wf = true) (hg : s.geom = Geom.ofRow r)
    (h : EraseProgress s ∨ WriteProgress s) : OnRoute (advance s) := by
  rcases progress_cases h with ⟨hc, hh⟩ | ⟨hc, hh⟩
  · simp only [advance, hc]
    cases hb : decide (0 < zext (eraseAdvance s.latch.op s.seq).nLeft) with
    | false => trivial
    | true =>
      have hb' : 0 < zext (eraseAdvance s.latch.op s.seq).nLeft := of_decide_eq_true hb
      refine onRoute_mutating (Or.inl ?_) (by simp [continueOrRespond])
      have hn : zext (BitVec.ofNat 32 (zext s.seq.nLeft - 1)) = zext s.seq.nLeft - 1 :=
        zext_ofNat _ (by have := zext_lt s.seq.nLeft; omega)
      by_cases ho : s.latch.op = 1#4
      · exfalso
        have h1 : zext s.seq.nLeft = 1 := by
          rcases hh with ⟨-, h⟩ | ⟨h, -⟩
          · exact h
          · rcases h with ⟨h, -⟩ | ⟨h, -⟩ <;> rw [ho] at h <;> exact absurd h (by decide)
        rw [eraseAdvance, if_pos (show s.latch.op = OpCode.eraseChip from ho)] at hb'
        rw [show zext _ = _ from hn, h1] at hb'
        exact absurd hb' (by decide)
      · obtain ⟨b1, b2, b3⟩ := erase_bounds hr hg hh ho
        have hq : eraseAdvance s.latch.op s.seq = { s.seq with
            curAddr := BitVec.ofNat 32 (zext s.seq.curAddr + zext s.seq.stride)
            nLeft := BitVec.ofNat 32 (zext s.seq.nLeft - 1) } := by
          rw [eraseAdvance, if_neg (show s.latch.op ≠ OpCode.eraseChip from ho)]
        rw [hq] at hb' ⊢
        have hc' : zext (BitVec.ofNat 32 (zext s.seq.curAddr + zext s.seq.stride)) =
            zext s.seq.curAddr + zext s.seq.stride := zext_ofNat _ b1
        rcases hh with ⟨h, -⟩ | ⟨ha, h1, h2, h3, h4⟩
        · exact absurd h ho
        · refine Or.inr ⟨ha, hb', ?_, h3, ?_⟩
          · show zext (BitVec.ofNat 32 (zext s.seq.nLeft - 1)) ≤ zext s.latch.argB
            omega
          · show zext (BitVec.ofNat 32 (zext s.seq.curAddr + zext s.seq.stride)) +
              zext (BitVec.ofNat 32 (zext s.seq.nLeft - 1)) * eraseUnit s =
              (zext s.latch.argA + zext s.latch.argB) * eraseUnit s
            rw [hc', hn, h3, ← h4]
            have : zext s.seq.nLeft = zext s.seq.nLeft - 1 + 1 := by omega
            conv_rhs => rw [this, Nat.add_mul]
            omega
  · simp only [advance, hc]
    cases hb : decide (0 < zext (writeAdvance (chunkLength s) s.seq).bytesLeft) with
    | false => trivial
    | true =>
      have hb' : 0 < zext (writeAdvance (chunkLength s) s.seq).bytesLeft := of_decide_eq_true hb
      refine onRoute_mutating (Or.inr ?_) (by simp [continueOrRespond])
      obtain ⟨b1, b2, b3, b4⟩ := write_bounds hr hg hh
      have hch : chunkLength s = min (zext s.seq.bytesLeft) 256 := by simp only [chunkLength, b4]
      have hbl := zext_lt s.latch.bufLen
      have e1 : zext (BitVec.ofNat 32 (zext s.seq.curAddr + chunkLength s)) = _ := zext_ofNat _ (by omega)
      have e2 : zext (BitVec.ofNat 32 (zext s.seq.bufIdx + chunkLength s)) = _ := zext_ofNat _ (by omega)
      have e3 : zext (BitVec.ofNat 32 (zext s.seq.bytesLeft - chunkLength s)) = _ := zext_ofNat _ (by omega)
      have hb2 : 0 < zext (BitVec.ofNat 32 (zext s.seq.bytesLeft - chunkLength s)) := hb'
      obtain ⟨h1, h2, h3, h4, h5, h6, i, h7⟩ := hh
      refine ⟨h1, h2, h3, hb2, ?_, ?_, i + 1, ?_⟩
      · show zext (BitVec.ofNat 32 (zext s.seq.curAddr + chunkLength s)) +
          zext (BitVec.ofNat 32 (zext s.seq.bytesLeft - chunkLength s)) = zext s.latch.argA + zext s.latch.argB
        omega
      · show zext (BitVec.ofNat 32 (zext s.seq.bufIdx + chunkLength s)) +
          zext (BitVec.ofNat 32 (zext s.seq.bytesLeft - chunkLength s)) = zext s.latch.argOff + zext s.latch.argB
        omega
      · show zext (BitVec.ofNat 32 (zext s.seq.bytesLeft - chunkLength s)) + (i + 1) * 256 = zext s.latch.argB
        omega

/-- The route is kept by every step of an operation in flight. -/
theorem flight_route {s c t : State} (hi : Inv s) (hf : FlightStep s c t) (hg : c.geom = s.geom)
    (hl : c.latch = s.latch) (hq : c.seq = s.seq) (hph : c.phase = s.phase) (hp : s.phase ≠ .idle) : OnRoute t := by
  obtain ⟨r, hr, hgr⟩ := inv_geom hi hp
  have hro := hi.route
  have move : EraseProgress s ∨ WriteProgress s → EraseProgress c ∨ WriteProgress c := by
    simp only [EraseProgress, WriteProgress, EraseArgsOk, eraseUnit, hg, hl, hq]
    exact id
  have moveTo : ∀ ph, EraseProgress c ∨ WriteProgress c → ph ≠ Phase.xfer → OnRoute (c.setPhase ph) :=
    fun ph h hne => onRoute_mutating h hne
  cases hf with
  | failed e => trivial
  | preBusy h =>
    simp only [OnRoute, h] at hro
    exact onRoute_mutating (move hro) (by rw [hph, h]; decide)
  | preDone h =>
    simp only [OnRoute, h] at hro
    exact moveTo _ (move hro) (by split <;> decide)
  | wren h =>
    simp only [OnRoute, h] at hro
    exact moveTo _ (move hro) (by split <;> decide)
  | issue h =>
    simp only [OnRoute, h] at hro
    exact moveTo _ (move hro) (by decide)
  | postBusy h =>
    simp only [OnRoute, h] at hro
    exact onRoute_mutating (move hro) (by rw [hph, h]; decide)
  | postDone h =>
    simp only [OnRoute, h] at hro
    exact advance_route hr (hg.trans hgr) (move hro)
  | transfer h data => trivial

end Sys2Proof.Machine
end

