-- ==== Sys2Proof/Laws/Chip.lean ====
section
/-! SUPPORT. The laws of the reference chip's array (spec/20_memory.md R65, R66): which bytes an effect changes, and to what. -/

namespace Sys2Proof.Machine

/-- A page-program changes only the places it lands on. -/
theorem read_programBytes (g : Geom) (a : Nat) (bs : List Byte) : ∀ (j : Nat) (m : Memory), m.wf = true → ∀ x,
    (∀ i, i < bs.length → x ≠ Chip.programAddress g a (j + i)) →
    (Chip.programBytes g a j bs m).read x = m.read x := by
  induction bs with
  | nil => intro j m h x hx; rfl
  | cons b bs ih =>
    intro j m h x hx
    simp only [Chip.programBytes]
    rw [ih (j + 1) _ (Memory.write_wf _ _ _ h) x (fun i hi => by
        have := hx (i + 1) (by simpa using hi)
        rwa [show j + (i + 1) = j + 1 + i by omega] at this),
      Memory.read_write _ _ _ _ h, if_neg (by simpa using hx 0 (by simp))]

/-- Two bytes of a page-program of at most a page land on two places. -/
theorem programAddress_inj (g : Geom) (a i j : Nat) (hi : i < g.pageSize) (hj : j < g.pageSize)
    (h : Chip.programAddress g a i = Chip.programAddress g a j) : i = j := by
  simp only [Chip.programAddress] at h
  have h' : a + i ≡ a + j [MOD g.pageSize] := by
    show (a + i) % g.pageSize = (a + j) % g.pageSize
    omega
  have := Nat.ModEq.add_left_cancel' a h'
  rwa [Nat.ModEq, Nat.mod_eq_of_lt hi, Nat.mod_eq_of_lt hj] at this

/-- An effect changes only what it touches (R66). -/
theorem read_apply (g : Geom) (m : Memory) (e : ChipEffect) (h : m.wf = true) (x : Nat) (hx : ¬ touches g x e) :
    (Chip.apply g m e).read x = m.read x := by
  cases e with
  | program a data =>
    exact read_programBytes g a data 0 m h x (fun i hi he => hx ⟨i, hi, by simpa using he⟩)
  | eraseSector a =>
    simp only [Chip.apply]
    rw [Memory.read_eraseRange _ _ _ _ h, if_neg (by simpa only [touches] using hx)]
  | eraseBlock a =>
    simp only [Chip.apply]
    rw [Memory.read_eraseRange _ _ _ _ h, if_neg (by simpa only [touches] using hx)]
  | eraseAll =>
    simp only [Chip.apply]
    rw [Memory.read_eraseRange _ _ _ _ h, if_neg (by simpa [touches] using hx)]

/-- A status read of an idle chip has no effect (R65). -/
theorem tick_idle (c : Chip) (h : c.busy = false) : c.tick = c := by simp [Chip.tick, h]

/-- A status read of a busy chip with no busy answer left completes the effect (R65). -/
theorem tick_completes (c : Chip) (h : c.busy = true) (h0 : c.busyReadsLeft = 0) : c.tick = c.complete := by
  simp [Chip.tick, h, h0]

/-- A status read of a busy chip with busy answers left takes one off (R65). -/
theorem tick_counts (c : Chip) (h : c.busy = true) (h0 : 0 < c.busyReadsLeft) :
    c.tick = { c with busyReadsLeft := c.busyReadsLeft - 1 } := by
  simp [Chip.tick, h, show c.busyReadsLeft ≠ 0 by omega]

/-- A status read changes only what the effect in flight touches (R65). -/
theorem read_tick (c : Chip) (x : Nat) (hw : c.mem.wf = true) (hx : ∀ e, c.pending = some e → ¬ touches c.geom x e) :
    c.tick.mem.read x = c.mem.read x := by
  unfold Chip.tick
  split
  · simp only [Chip.complete]
    cases hp : c.pending with
    | none => rfl
    | some e => exact read_apply _ _ _ hw _ (hx e hp)
  · split <;> rfl

/-- A chip hears a status read only in a frame that starts with its opcode (R65). -/
theorem hears_rdsr {p : Params} {c : Chip} {b : Byte} {body : List Byte} (h : c.hears p (b :: body) = some .rdsr) : p.opcRdsr = b := by
  simp only [Chip.hears, List.head?_cons, Option.bind_some] at h
  split at h
  · cases h
  · next cmd hc =>
    split at h
    · cases h
    · obtain rfl := Option.some.inj h
      exact opcode_of_commandOf p b .rdsr hc

/-- Bit 0 of the reference chip's status byte is its busy bit (R65). -/
theorem busy_statusByte (call : Nat) (b : Bool) : busy (Chip.statusByte call b) = b := by
  simp only [busy, Chip.statusByte]
  rw [BitVec.getLsbD_append]
  cases b <;> rfl

end Sys2Proof.Machine
end

