-- ==== Sys2Proof/Laws/Near.lean ====
section
/-! SUPPORT. Two states that differ in what no operation reads (spec/10_state.md R16): the operation in flight selects the same command and its
continuations keep them so. -/

namespace Sys2Proof.Machine

/-- The same state, but for response registers and the sequencing registers that the operation in the latch does not read. -/
structure Near (s t : State) : Prop where
  rest : t = { s with latch := t.latch, seq := t.seq, resp := t.resp }
  latch : t.latch = s.latch
  used : usedSeq s.latch.op t.seq = usedSeq s.latch.op s.seq

theorem Near.alike {s t : State} (h : Near s t) : Alike s t := ⟨h.rest, fun _ => ⟨h.latch, h.used⟩⟩

theorem Near.phase {s t : State} (h : Near s t) : t.phase = s.phase := by rw [h.rest]
theorem Near.geom {s t : State} (h : Near s t) : t.geom = s.geom := by rw [h.rest]
theorem Near.payload {s t : State} (h : Near s t) : t.payload = s.payload := by rw [h.rest]

theorem Near.setPhase {s t : State} (h : Near s t) (ph : Phase) : Near (s.setPhase ph) (t.setPhase ph) := by
  refine ⟨?_, h.latch, h.used⟩
  conv_lhs => rw [h.rest]
  rfl

theorem Near.recordCall {s t : State} (h : Near s t) (o : Oracle) (ev : Event) :
    Near (s.recordCall o ev) (t.recordCall o ev) := by
  refine ⟨?_, h.latch, h.used⟩
  conv_lhs => rw [h.rest]
  rfl

/-- A response makes the states alike. -/
theorem alike_deliver (r : Response) {s t : State} (h : t = { s with latch := t.latch, seq := t.seq, resp := t.resp }) :
    Alike (deliver r s) (deliver r t) := by
  refine ⟨?_, fun hp => absurd rfl hp⟩
  conv_lhs => rw [h]
  rfl

theorem Near.respondOk {s t : State} (h : Near s t) (d : List Byte) :
    Alike (Sys2Proof.Machine.respondOk d s) (Sys2Proof.Machine.respondOk d t) := by
  have : plainResponse .ok d t = plainResponse .ok d s := by
    rw [h.rest]
    rfl
  simp only [Sys2Proof.Machine.respondOk, this]
  exact alike_deliver _ h.rest

theorem Near.usedWrite {s t : State} (h : Near s t) (hc : routeClass s.latch.op = some .w) :
    t.seq.curAddr = s.seq.curAddr ∧ t.seq.bufIdx = s.seq.bufIdx ∧ t.seq.bytesLeft = s.seq.bytesLeft := by
  have := h.used
  simp only [usedSeq, hc, Seq.mk.injEq] at this
  tauto

theorem Near.usedCount {s t : State} (h : Near s t) (hc : routeClass s.latch.op = some .e) :
    t.seq.nLeft = s.seq.nLeft := by
  have := h.used
  simp only [usedSeq, hc] at this
  split at this <;> simp only [Seq.mk.injEq] at this <;> tauto

theorem Near.usedErase {s t : State} (h : Near s t) (hc : routeClass s.latch.op = some .e)
    (hne : s.latch.op ≠ OpCode.eraseChip) :
    t.seq.curAddr = s.seq.curAddr ∧ t.seq.stride = s.seq.stride ∧ t.seq.nLeft = s.seq.nLeft := by
  have := h.used
  simp only [usedSeq, hc, if_neg hne, Seq.mk.injEq] at this
  tauto

theorem Near.continueOrRespond {s t : State} (b : Bool) (q q' : Seq) (h : Near s t)
    (hq : usedSeq s.latch.op q' = usedSeq s.latch.op q) :
    Alike (Sys2Proof.Machine.continueOrRespond b (s.setSeq q)) (Sys2Proof.Machine.continueOrRespond b (t.setSeq q')) := by
  have hn : Near (s.setSeq q) (t.setSeq q') := by
    refine ⟨?_, h.latch, hq⟩
    conv_lhs => rw [h.rest]
    rfl
  cases b
  · exact hn.respondOk []
  · exact (hn.setPhase _).alike

theorem Near.advance {s t : State} (h : Near s t) :
    Alike (Sys2Proof.Machine.advance s) (Sys2Proof.Machine.advance t) := by
  unfold Sys2Proof.Machine.advance
  rw [h.latch]
  cases hc : routeClass s.latch.op with
  | none => exact h.alike
  | some c =>
    cases c with
    | q => exact h.alike
    | e =>
      have hn := h.usedCount hc
      have : (eraseAdvance s.latch.op t.seq).nLeft = (eraseAdvance s.latch.op s.seq).nLeft := by
        unfold eraseAdvance
        split <;> simp [hn]
      simp only [this]
      refine Near.continueOrRespond _ _ _ h ?_
      by_cases ho : s.latch.op = OpCode.eraseChip
      · have hcc : routeClass OpCode.eraseChip = some .e := rfl
        simp [usedSeq, ho, eraseAdvance, hn, hcc]
      · obtain ⟨h1, h2, h3⟩ := h.usedErase hc ho
        simp [usedSeq, hc, ho, eraseAdvance, h1, h2, h3]
    | w =>
      obtain ⟨h1, h2, h3⟩ := h.usedWrite hc
      have hch : chunkLength t = chunkLength s := by simp [chunkLength, h3, h.geom]
      have : (writeAdvance (chunkLength s) t.seq).bytesLeft = (writeAdvance (chunkLength s) s.seq).bytesLeft := by
        simp [writeAdvance, h3]
      simp only [hch, this]
      refine Near.continueOrRespond _ _ _ h ?_
      simp [usedSeq, hc, writeAdvance, h1, h2, h3]

/-- The continuation of a command keeps near states alike. -/
theorem Near.commandParts {p : Params} {i : Instr} {k : CallKind} {tx : List Byte} {f : List Byte → State → State}
    (hp : Sys2Proof.Machine.commandParts p i = some (k, tx, f)) (rx : List Byte) {s t : State} (h : Near s t) :
    Alike (f rx s) (f rx t) := by
  have hw : Alike (afterWren s) (afterWren t) := by
    unfold afterWren
    rw [h.phase, h.latch]
    cases s.phase <;> simp only
    case wren =>
      cases routeClass s.latch.op with
      | none => exact h.alike
      | some c => cases c <;> first | exact h.alike | exact (h.setPhase _).alike
    case xfer => exact h.respondOk _
    all_goals exact h.alike
  have hm : Alike (afterMutating s) (afterMutating t) := by
    unfold afterMutating
    rw [h.phase]
    cases s.phase <;> simp only
    case issue => exact (h.setPhase _).alike
    all_goals exact h.alike
  have ht : ∀ d, Alike (afterTransfer d s) (afterTransfer d t) := by
    intro d
    unfold afterTransfer
    rw [h.phase]
    cases s.phase <;> simp only
    case xfer => exact h.respondOk _
    all_goals exact h.alike
  have hr : ∀ b, Alike (afterStatus b s) (afterStatus b t) := by
    intro b
    unfold afterStatus
    rw [h.phase, h.latch]
    cases s.phase <;> simp only
    case prePoll =>
      split
      · exact h.alike
      · cases routeClass s.latch.op with
        | none => exact h.alike
        | some c => cases c <;> first | exact h.alike | exact (h.setPhase _).alike
    case postPoll => split <;> [exact h.alike; exact h.advance]
    case xfer => exact h.respondOk _
    all_goals exact h.alike
  cases i <;> simp only [Sys2Proof.Machine.commandParts, Option.some.injEq, Prod.mk.injEq, reduceCtorEq] at hp <;>
    obtain ⟨rfl, rfl, rfl⟩ := hp <;> first | exact hw | exact hm | exact ht _ | exact hr _

/-- Near states select the same command. -/
theorem Near.selectCommand {s t : State} (h : Near s t) :
    Sys2Proof.Machine.selectCommand t = Sys2Proof.Machine.selectCommand s := by
  have hm : mutatingClass t = mutatingClass s := by simp [mutatingClass, h.latch]
  unfold Sys2Proof.Machine.selectCommand
  rw [h.phase, hm]
  cases s.phase <;> simp only
  case issue =>
    unfold mutatingCommand
    rw [h.latch]
    by_cases h2 : s.latch.op = 2#4
    · have := (h.usedErase ((routeClass_e _).2 (Or.inr (Or.inl h2))) (by rw [h2]; decide)).1
      simp [h2, this]
    by_cases h3 : s.latch.op = 3#4
    · have := (h.usedErase ((routeClass_e _).2 (Or.inr (Or.inr h3))) (by rw [h3]; decide)).1
      simp [h3, this]
    by_cases h4 : s.latch.op = 4#4
    · obtain ⟨e1, e2, e3⟩ := h.usedWrite ((routeClass_w _).2 h4)
      have hch : chunkLength t = chunkLength s := by simp [chunkLength, e3, h.geom]
      have hcd : chunkData t = chunkData s := by simp [chunkData, hch, h.payload, e2]
      simp [h4, e1, e2, hch, hcd]
    · have k2 : s.latch.op.toNat ≠ 2 := fun hh => h2 (BitVec.eq_of_toNat_eq hh)
      have k3 : s.latch.op.toNat ≠ 3 := fun hh => h3 (BitVec.eq_of_toNat_eq hh)
      have k4 : s.latch.op.toNat ≠ 4 := fun hh => h4 (BitVec.eq_of_toNat_eq hh)
      generalize s.latch.op.toNat = n at *
      split <;> first | rfl | omega
  case xfer => simp [transferCommand, h.latch]

end Sys2Proof.Machine
end

