-- ==== Sys2Proof/Laws/PerInstr.lean ====
section
/-! SUPPORT. A family of statements about every instruction as syntax: the shape of its encoding (spec/30_encoding.md R71, R72, R77). -/

namespace Sys2Proof.Laws.EncodingShape

/-- The number of bytes of a frame (R77); 0 for a host operation. -/
def frameLength : Instr → Nat
  | .spiWren => 1
  | .spiRdsr => 2
  | .spiRead _ len => 4 + len
  | .spiFastRead _ len => 6 + len
  | .spiPp _ data => 4 + data.length
  | .spiSe _ => 4
  | .spiBe _ => 4
  | .spiCe => 1
  | .spiDp => 1
  | .spiRes => 1
  | .spiRdid => 4
  | .identify => 0
  | .eraseChip => 0
  | .eraseBlock _ _ => 0
  | .eraseSector _ _ => 0
  | .write _ _ _ _ _ => 0
  | .read _ _ => 0
  | .readFast _ _ => 0
  | .suspend => 0
  | .resume => 0
  | .writeEnable => 0
  | .isWriteInProgress => 0

/-- A command is encoded as a frame of the length its format gives that starts with its opcode; a host operation as a request with an operation code
that is not reserved and with every reserved bit 0. -/
def Statement (i : Instr) : Prop :=
  ∀ p : Params,
    (∀ c, i.command = some c → ∃ body, encode p i = .frame (p.opcode c :: body) ∧ (p.opcode c :: body).length = frameLength i) ∧
    (i.command = none → ∃ r, encode p i = .request r ∧ r.op.toNat ≤ 10 ∧ r.reservedLow = 0#4 ∧ r.reservedHigh = 0#23)

/-- The request half, for all host operations at once. -/
theorem of_request {i : Instr} (hc : i.command = none) (op : BitVec 4) (hop : op.toNat ≤ 10)
    (h : ∀ p, ∃ bp w1 w2 w3 w4, encode p i = .request ⟨requestWord0 op bp, w1, w2, w3, w4⟩) : Statement i := by
  intro p
  refine ⟨fun c hcc => absurd (hc.symm.trans hcc) (by simp), fun _ => ?_⟩
  obtain ⟨bp, w1, w2, w3, w4, he⟩ := h p
  obtain ⟨h1, h2, h3, -⟩ := requestWord0_fields op bp
  have hop' : ((requestWord0 op bp).extractLsb' 0 4).toNat ≤ 10 := by rw [h1]; exact hop
  exact ⟨_, he, hop', h2, h3⟩

/-- The frame half, for all commands at once. -/
theorem of_frame {i : Instr} (c : Command) (hc : i.command = some c)
    (h : ∀ p, ∃ body, encode p i = .frame (p.opcode c :: body) ∧ body.length + 1 = frameLength i) : Statement i := by
  intro p
  refine ⟨fun c' hc' => ?_, fun hn => by rw [hc] at hn; cases hn⟩
  rw [hc] at hc'
  obtain rfl := Option.some.inj hc'
  exact h p

theorem spiWren : Statement .spiWren :=
  of_frame .wren rfl (fun _ => ⟨_, rfl, rfl⟩)

theorem spiRdsr : Statement .spiRdsr :=
  of_frame .rdsr rfl (fun _ => ⟨_, rfl, rfl⟩)

theorem spiRead (a : Word) (len : Nat) : Statement (.spiRead a len) :=
  of_frame .read rfl (fun _ => ⟨_, rfl, by simp [addressField, frameLength]; omega⟩)

theorem spiFastRead (a : Word) (len : Nat) : Statement (.spiFastRead a len) :=
  of_frame .fastRead rfl (fun _ => ⟨_, rfl, by simp [addressField, frameLength]; omega⟩)

theorem spiPp (a : Word) (data : List Byte) : Statement (.spiPp a data) :=
  of_frame .pp rfl (fun _ => ⟨_, rfl, by simp [addressField, frameLength]; omega⟩)

theorem spiSe (a : Word) : Statement (.spiSe a) :=
  of_frame .se rfl (fun _ => ⟨_, rfl, rfl⟩)

theorem spiBe (a : Word) : Statement (.spiBe a) :=
  of_frame .be rfl (fun _ => ⟨_, rfl, rfl⟩)

theorem spiCe : Statement .spiCe :=
  of_frame .ce rfl (fun _ => ⟨_, rfl, rfl⟩)

theorem spiDp : Statement .spiDp :=
  of_frame .dp rfl (fun _ => ⟨_, rfl, rfl⟩)

theorem spiRes : Statement .spiRes :=
  of_frame .res rfl (fun _ => ⟨_, rfl, rfl⟩)

theorem spiRdid : Statement .spiRdid :=
  of_frame .rdid rfl (fun _ => ⟨_, rfl, rfl⟩)

theorem identify : Statement .identify :=
  of_request rfl OpCode.identify (by decide) (fun _ => ⟨_, _, _, _, _, rfl⟩)

theorem eraseChip : Statement .eraseChip :=
  of_request rfl OpCode.eraseChip (by decide) (fun _ => ⟨_, _, _, _, _, rfl⟩)

theorem eraseBlock (b n : Word) : Statement (.eraseBlock b n) :=
  of_request rfl OpCode.eraseBlock (by decide) (fun _ => ⟨_, _, _, _, _, rfl⟩)

theorem eraseSector (b n : Word) : Statement (.eraseSector b n) :=
  of_request rfl OpCode.eraseSector (by decide) (fun _ => ⟨_, _, _, _, _, rfl⟩)

theorem write (a n off : Word) (bp : Bool) (bl : Word) : Statement (.write a n off bp bl) :=
  of_request rfl OpCode.write (by decide) (fun _ => ⟨_, _, _, _, _, rfl⟩)

theorem read (b n : Word) : Statement (.read b n) :=
  of_request rfl OpCode.read (by decide) (fun _ => ⟨_, _, _, _, _, rfl⟩)

theorem readFast (b n : Word) : Statement (.readFast b n) :=
  of_request rfl OpCode.readFast (by decide) (fun _ => ⟨_, _, _, _, _, rfl⟩)

theorem suspend : Statement .suspend :=
  of_request rfl OpCode.suspend (by decide) (fun _ => ⟨_, _, _, _, _, rfl⟩)

theorem resume : Statement .resume :=
  of_request rfl OpCode.resume (by decide) (fun _ => ⟨_, _, _, _, _, rfl⟩)

theorem writeEnable : Statement .writeEnable :=
  of_request rfl OpCode.writeEnable (by decide) (fun _ => ⟨_, _, _, _, _, rfl⟩)

theorem isWriteInProgress : Statement .isWriteInProgress :=
  of_request rfl OpCode.isWriteInProgress (by decide) (fun _ => ⟨_, _, _, _, _, rfl⟩)

end Sys2Proof.Laws.EncodingShape
end

