-- ==== Sys2Proof/Tests/Slice0.lean ====
section
/-! SUPPORT. The model's own tests. Expected results are the spec's: the tables and examples of spec/95_test_vectors.md (V1 to V7, P1) and of the operation
rules, with variant `T64` and the default opcodes; the witnesses show that the hypotheses of the statements can be met. -/

namespace Sys2Proof.Tests

open Sys2Proof Sys2Proof.Machine

/-! ### WellFormed refuses ill-formed terms, one for each check -/

theorem test_wf_read_address : WellFormed (.spiRead 0x01000000#32 1) = false := by decide
theorem test_wf_read_length : WellFormed (.spiRead 0x001000#32 0) = false := by decide
theorem test_wf_fastRead_address : WellFormed (.spiFastRead 0x01000000#32 1) = false := by decide
theorem test_wf_fastRead_length : WellFormed (.spiFastRead 0x001000#32 0) = false := by decide
theorem test_wf_pp_address : WellFormed (.spiPp 0x01000000#32 [0x11#8]) = false := by decide
theorem test_wf_pp_empty : WellFormed (.spiPp 0x000100#32 []) = false := by decide
theorem test_wf_pp_257 : WellFormed (.spiPp 0x000100#32 (List.replicate 257 0#8)) = false := by
  simp only [WellFormed, List.length_replicate]; decide
theorem test_wf_se_address : WellFormed (.spiSe 0x01000000#32) = false := by decide
theorem test_wf_be_address : WellFormed (.spiBe 0x01000000#32) = false := by decide

/-! ### Decoding: a word written out from the spec's encoding, for every constructor (R71, R72, R77, R84, R85; vectors V3, V6) -/

theorem test_decode_wren : decodeFrame Params.default [0x06#8] = .ok .spiWren := rfl
theorem test_decode_rdsr : decodeFrame Params.default [0x05#8, 0x00#8] = .ok .spiRdsr := rfl
theorem test_decode_read :
    decodeFrame Params.default [0x03#8, 0x00#8, 0x10#8, 0x00#8, 0x00#8, 0x00#8] = .ok (.spiRead 0x001000#32 2) := rfl
theorem test_decode_fastRead :
    decodeFrame Params.default [0x0B#8, 0x00#8, 0x10#8, 0x00#8, 0x00#8, 0x00#8, 0x00#8, 0x00#8] =
      .ok (.spiFastRead 0x001000#32 2) := rfl
theorem test_decode_pp :
    decodeFrame Params.default [0x02#8, 0x00#8, 0x01#8, 0x00#8, 0x11#8, 0x22#8, 0x33#8] =
      .ok (.spiPp 0x000100#32 [0x11#8, 0x22#8, 0x33#8]) := rfl
theorem test_decode_se : decodeFrame Params.default [0x20#8, 0x3F#8, 0xF0#8, 0x00#8] = .ok (.spiSe 0x3FF000#32) := rfl
theorem test_decode_be : decodeFrame Params.default [0xD8#8, 0x02#8, 0x00#8, 0x00#8] = .ok (.spiBe 0x020000#32) := rfl
theorem test_decode_ce : decodeFrame Params.default [0xC7#8] = .ok .spiCe := rfl
theorem test_decode_dp : decodeFrame Params.default [0xB9#8] = .ok .spiDp := rfl
theorem test_decode_res : decodeFrame Params.default [0xAB#8] = .ok .spiRes := rfl
theorem test_decode_rdid : decodeFrame Params.default [0x9F#8, 0#8, 0#8, 0#8] = .ok .spiRdid := rfl

theorem test_decode_identify : decodeRequest ⟨0x00000000#32, 0, 0, 0, 0⟩ = .ok .identify := rfl
theorem test_decode_eraseChip : decodeRequest ⟨0x00000001#32, 0, 0, 0, 0⟩ = .ok .eraseChip := rfl
theorem test_decode_eraseBlock :
    decodeRequest ⟨0x00000002#32, 0x0000003F#32, 0x00000001#32, 0, 0⟩ = .ok (.eraseBlock 63#32 1#32) := rfl
theorem test_decode_eraseSector :
    decodeRequest ⟨0x00000003#32, 0x00000001#32, 0x00000002#32, 0, 0⟩ = .ok (.eraseSector 1#32 2#32) := rfl
theorem test_decode_write :
    decodeRequest ⟨0x00000104#32, 0x00000100#32, 0x00000003#32, 0x00000002#32, 0x00000005#32⟩ =
      .ok (.write 0x100#32 3#32 2#32 true 5#32) := rfl
theorem test_decode_read_ignores_w3_w4 :
    decodeRequest ⟨0x00000005#32, 0x00000000#32, 0x00000001#32, 0xDEADBEEF#32, 0x12345678#32⟩ = .ok (.read 0#32 1#32) := rfl
theorem test_decode_readFast :
    decodeRequest ⟨0x00000006#32, 0x003FFFFF#32, 0x00000001#32, 0, 0⟩ = .ok (.readFast 0x3FFFFF#32 1#32) := rfl
theorem test_decode_suspend : decodeRequest ⟨0x00000007#32, 0, 0, 0, 0⟩ = .ok .suspend := rfl
theorem test_decode_resume : decodeRequest ⟨0x00000008#32, 0, 0, 0, 0⟩ = .ok .resume := rfl
theorem test_decode_writeEnable : decodeRequest ⟨0x00000009#32, 0, 0, 0, 0⟩ = .ok .writeEnable := rfl
theorem test_decode_isWriteInProgress : decodeRequest ⟨0x0000000A#32, 0, 0, 0, 0⟩ = .ok .isWriteInProgress := rfl

/-- V3 rows 38 to 42: reserved operation codes and reserved bits. -/
theorem test_decode_reserved :
    decodeRequest ⟨0x0000000B#32, 0, 0, 0, 0⟩ = .error (.reservedOp 11#4) ∧
    decodeRequest ⟨0x0000000F#32, 0, 0, 0, 0⟩ = .error (.reservedOp 15#4) ∧
    decodeRequest ⟨0x00000015#32, 0, 1, 0, 0⟩ = .error .reservedBits ∧
    decodeRequest ⟨0x00000205#32, 0, 1, 0, 0⟩ = .error .reservedBits ∧
    decodeRequest ⟨0x00000014#32, 0xFFFFFFFF#32, 0, 0, 0⟩ = .error .reservedBits := ⟨rfl, rfl, rfl, rfl, rfl⟩

/-- Frames the block never sends are refused by name (R77, R84, R86). -/
theorem test_decode_bad_frames :
    decodeFrame Params.default [] = .error .emptyFrame ∧
    decodeFrame Params.default [0x04#8] = .error (.unknownOpcode 0x04#8) ∧
    decodeFrame Params.default [0x06#8, 0#8] = .error (.badLength .wren) ∧
    decodeFrame Params.default [0x03#8, 0#8, 0#8, 0#8] = .error (.badLength .read) ∧
    decodeFrame Params.default [0x0B#8, 0#8, 0#8, 0#8, 0#8, 0#8] = .error (.badLength .fastRead) ∧
    decodeFrame Params.default [0x02#8, 0#8, 0#8, 0#8] = .error (.badLength .pp) := ⟨rfl, rfl, rfl, rfl, rfl, rfl⟩

/-- The rows of spec/opcode_table.json by their bits. -/
theorem test_table_frames :
    decodeTableWord 8 0x06 = some .spiWren ∧ decodeTableWord 8 0x05 = some .spiRdsr ∧
    decodeTableWord 8 0x03 = some (.spiRead 0 1) ∧ decodeTableWord 8 0x0B = some (.spiFastRead 0 1) ∧
    decodeTableWord 8 0x02 = some (.spiPp 0 [0]) ∧ decodeTableWord 8 0x20 = some (.spiSe 0) ∧
    decodeTableWord 8 0xD8 = some (.spiBe 0) ∧ decodeTableWord 8 0xC7 = some .spiCe ∧
    decodeTableWord 8 0xB9 = some .spiDp ∧ decodeTableWord 8 0xAB = some .spiRes ∧
    decodeTableWord 8 0x9F = some .spiRdid ∧ decodeTableWord 8 0x04 = none := by decide

theorem test_table_requests :
    decodeTableWord 32 0 = some .identify ∧ decodeTableWord 32 1 = some .eraseChip ∧
    decodeTableWord 32 2 = some (.eraseBlock 0 0) ∧ decodeTableWord 32 3 = some (.eraseSector 0 0) ∧
    decodeTableWord 32 4 = some (.write 0 0 0 false 0) ∧ decodeTableWord 32 5 = some (.read 0 0) ∧
    decodeTableWord 32 6 = some (.readFast 0 0) ∧ decodeTableWord 32 7 = some .suspend ∧
    decodeTableWord 32 8 = some .resume ∧ decodeTableWord 32 9 = some .writeEnable ∧
    decodeTableWord 32 10 = some .isWriteInProgress ∧ decodeTableWord 32 11 = none := by decide

/-! ### Placing an instruction -/

/-- The command of a frame row is the one the next step runs. -/
theorem test_withFetchWord_frames :
    selectCommand (State.reset.withFetchWord 8 0x06) = .ok .spiWren ∧
    selectCommand (State.reset.withFetchWord 8 0x05) = .ok .spiRdsr ∧
    selectCommand (State.reset.withFetchWord 8 0x03) = .ok (.spiRead 0 1) ∧
    selectCommand (State.reset.withFetchWord 8 0x0B) = .ok (.spiFastRead 0 1) ∧
    selectCommand (State.reset.withFetchWord 8 0x02) = .ok (.spiPp 0 [0]) ∧
    selectCommand (State.reset.withFetchWord 8 0x20) = .ok (.spiSe 0) ∧
    selectCommand (State.reset.withFetchWord 8 0xD8) = .ok (.spiBe 0) ∧
    selectCommand (State.reset.withFetchWord 8 0xC7) = .ok .spiCe ∧
    selectCommand (State.reset.withFetchWord 8 0xB9) = .ok .spiDp ∧
    selectCommand (State.reset.withFetchWord 8 0xAB) = .ok .spiRes ∧
    selectCommand (State.reset.withFetchWord 8 0x9F) = .ok .spiRdid := by
  refine ⟨?_, ?_, ?_, ?_, ?_, ?_, ?_, ?_, ?_, ?_, ?_⟩ <;> rfl

/-- The request of a request row is the one the next step takes. -/
theorem test_withFetchWord_request :
    step (State.reset.withFetchWord 32 9) =
      exec .writeEnable (takeRequest ⟨⟨9, 0, 0, 0, 0⟩, []⟩ [] (State.reset.withFetchWord 32 9)) := rfl

/-! ### Small states, and what a step shows -/

/-- The block in IDLE after a reset of the default instance, with some requests presented. -/
def ready (requests : List Request) (o : Oracle) : State := State.boot Params.default ⟨0#8, true⟩ 0 requests [] o

/-- An operation in flight. -/
def flying (ph : Phase) (l : Latch) (q : Seq) (m : Memory) (o : Oracle) : State :=
  { ready [] o with phase := ph, latch := l, seq := q, payload := m, accepted := 1 }

/-- A latch with an operation code and arguments. -/
def args (op : BitVec 4) (a b : Word) : Latch := ⟨op, a, b, 0, false, 0⟩

def noSeq : Seq := ⟨0, 0, 0, 0, 0⟩

/-- A request of five words with a buffer. -/
def req (w0 w1 w2 w3 w4 : Word) (buf : List Byte) : Request := ⟨⟨w0, w1, w2, w3, w4⟩, Memory.ofBytes 0 buf⟩

/-- Phase, response and trace after a step that responds. -/
def responded : Result → Option (Phase × BitVec 3 × List Byte × List Event)
  | .next t => some (t.phase, t.resp.code, t.resp.data, t.trace)
  | .fault _ => none
  | .refused _ => none

/-- Phase, sequencing registers and trace after a step that goes on. -/
def wentOn : Result → Option (Phase × Seq × List Event)
  | .next t => some (t.phase, t.seq, t.trace)
  | .fault _ => none
  | .refused _ => none

/-- The phase after a step. -/
def phaseAfter : Result → Option Phase
  | .next t => some t.phase
  | .fault _ => none
  | .refused _ => none

/-! ### Reset (R12, R26; the reset table of V2) -/

theorem test_reset_status :
    (State.boot Params.default ⟨0#8, true⟩ 0 [] [] (.script [])).cfgStatus.code = 0#2 ∧
    (State.boot Params.default ⟨1#8, true⟩ 0 [] [] (.script [])).cfgStatus.code = 2#2 ∧
    (State.boot Params.default ⟨255#8, true⟩ 0 [] [] (.script [])).cfgStatus.code = 2#2 ∧
    (State.boot Params.default ⟨0#8, false⟩ 0 [] [] (.script [])).cfgStatus.code = 1#2 ∧
    (State.boot Params.default ⟨7#8, false⟩ 0 [] [] (.script [])).cfgStatus.code = 1#2 := by decide

/-- V2: the rows that are well-formed and those that are not. -/
theorem test_rom_rows :
    (⟨0, 16, 16, 64⟩ : GeomRow).wf = true ∧ (⟨0, 16, 16, 256⟩ : GeomRow).wf = true ∧
    (⟨0, 16, 16, 257⟩ : GeomRow).wf = false ∧ (⟨0, 1, 1, 1⟩ : GeomRow).wf = true ∧
    (⟨0, 0, 16, 64⟩ : GeomRow).wf = false ∧ (⟨0, 65535, 65535, 65535⟩ : GeomRow).wf = false := by decide

theorem test_rom_sizes :
    (Geom.ofRow GeomRow.t64).sectorSize = 0x1000 ∧ (Geom.ofRow GeomRow.t64).blockSize = 0x10000 ∧
    (Geom.ofRow GeomRow.t64).capacity = 0x400000 ∧ (Geom.ofRow ⟨0, 16, 16, 256⟩).capacity = 0x1000000 := by decide

/-! ### The framer (V1) -/

theorem test_framer :
    frame1 0xC7#8 = [0xC7#8] ∧ frame4 0x03#8 0x123456#32 = [0x03#8, 0x12#8, 0x34#8, 0x56#8] ∧
    frame4 0x02#8 0x01234567#32 = [0x02#8, 0x23#8, 0x45#8, 0x67#8] ∧
    frame4 0xD8#8 0x01000000#32 = [0xD8#8, 0x00#8, 0x00#8, 0x00#8] := by decide

/-! ### The validator (V3) -/

/-- Rows 1 to 10. -/
theorem test_read_check :
    let ok := readInRange (Geom.ofRow GeomRow.t64)
    ok 0x00000000 0x00000001 = true ∧ ok 0x003FFFFF 0x00000001 = true ∧ ok 0x00000000 0x00400000 = true ∧
    ok 0x00000001 0x00400000 = false ∧ ok 0x00400000 0x00000001 = false ∧ ok 0x00000000 0x00000000 = false ∧
    ok 0xFFFFFFFF 0x00000001 = false ∧ ok 0x00000010 0xFFFFFFFF = false ∧ ok 0x7FFFFFFF 0x00000002 = false ∧
    ok 0x7FFFFFFF 0x7FFFFFFF = false := by decide

/-- Rows 14 to 20. -/
theorem test_eraseBlock_check :
    let ok := eraseBlockInRange (Geom.ofRow GeomRow.t64)
    ok 0x00000000 0x00000040 = true ∧ ok 0x0000003F 0x00000001 = true ∧ ok 0x00000040 0x00000001 = false ∧
    ok 0x00000000 0x00000041 = false ∧ ok 0x00000000 0x00000000 = false ∧ ok 0xFFFFFFFF 0x00000002 = false ∧
    ok 0x00000001 0xFFFFFFFF = false := by decide

/-- Rows 21 to 26. -/
theorem test_eraseSector_check :
    let ok := eraseSectorInRange (Geom.ofRow GeomRow.t64)
    ok 0x00000000 0x00000400 = true ∧ ok 0x000003FF 0x00000001 = true ∧ ok 0x000003FF 0x00000002 = false ∧
    ok 0x00000400 0x00000001 = false ∧ ok 0x7FFFFFFF 0x00000001 = false ∧ ok 0x00100000 0x00000001 = false := by decide

/-- Rows 27 to 34, as (address, length, offset, buffer length). -/
theorem test_write_check :
    let ok := writeInRange (Geom.ofRow GeomRow.t64)
    ok 0x00000000 0x00000001 0x00000000 0x00000001 = true ∧ ok 0x003FFF00 0x00000100 0x00000000 0x00000100 = true ∧
    ok 0x003FFF01 0x00000100 0x00000000 0x00000100 = false ∧ ok 0x00000000 0x00000004 0x00000002 0x00000005 = false ∧
    ok 0x00000000 0x00000004 0x00000001 0x00000005 = true ∧ ok 0x00000000 0x00000001 0xFFFFFFFF 0x00000005 = false ∧
    ok 0x00000000 0x00000000 0x00000000 0x00000005 = false ∧ ok 0xFFFFFF00 0x00000001 0x00000000 0x00000005 = false := by decide

/-! ### One step of each operation: the accept (V3, V6, P5) -/

theorem test_accept_identify : phaseAfter (exec .identify (ready [] (.script []))) = some .xfer := by decide
theorem test_accept_suspend : phaseAfter (exec .suspend (ready [] (.script []))) = some .xfer := by decide
theorem test_accept_resume : phaseAfter (exec .resume (ready [] (.script []))) = some .xfer := by decide
theorem test_accept_writeEnable : phaseAfter (exec .writeEnable (ready [] (.script []))) = some .xfer := by decide
theorem test_accept_isWriteInProgress :
    phaseAfter (exec .isWriteInProgress (ready [] (.script []))) = some .xfer := by decide
theorem test_accept_eraseChip : phaseAfter (exec .eraseChip (ready [] (.script []))) = some .prePoll := by decide
theorem test_accept_read : phaseAfter (exec (.read 0x3FFFFF 1) (ready [] (.script []))) = some .xfer := by decide
theorem test_refuse_read :
    responded (exec (.read 0x400000 1) (ready [] (.script []))) = some (.idle, 1#3, [], []) := by decide
theorem test_accept_readFast : phaseAfter (exec (.readFast 0x3FFFFF 1) (ready [] (.script []))) = some .xfer := by decide
theorem test_refuse_readFast :
    responded (exec (.readFast 0x3FFFFF 2) (ready [] (.script []))) = some (.idle, 1#3, [], []) := by decide
theorem test_accept_eraseBlock :
    (match exec (.eraseBlock 63 1) (ready [] (.script [])) with
      | .next t => some (t.phase, t.seq.curAddr, t.seq.stride, t.seq.nLeft)
      | .fault _ => none
      | .refused _ => none) = some (.prePoll, 0x3F0000#32, 0x10000#32, 1#32) := by decide
theorem test_refuse_eraseBlock :
    responded (exec (.eraseBlock 63 2) (ready [] (.script []))) = some (.idle, 1#3, [], []) := by decide
theorem test_accept_eraseSector :
    (match exec (.eraseSector 1023 1) (ready [] (.script [])) with
      | .next t => some (t.phase, t.seq.curAddr, t.seq.stride, t.seq.nLeft)
      | .fault _ => none
      | .refused _ => none) = some (.prePoll, 0x3FF000#32, 0x1000#32, 1#32) := by decide
theorem test_refuse_eraseSector :
    responded (exec (.eraseSector 0x100000 1) (ready [] (.script []))) = some (.idle, 1#3, [], []) := by decide
theorem test_accept_write :
    (match exec (.write 0x1000 4 1 true 6) (ready [] (.script [])) with
      | .next t => some (t.phase, t.seq.curAddr, t.seq.bufIdx, t.seq.bytesLeft)
      | .fault _ => none
      | .refused _ => none) = some (.wren, 0x1000#32, 1#32, 4#32) := by decide
/-- V3 row 36: `NullBuffer` before `InvalidRange`. -/
theorem test_refuse_write :
    responded (exec (.write 0xFFFFFFFF 0 0 false 0) (ready [] (.script []))) = some (.idle, 2#3, [], []) := by decide
/-- P5 step 3. -/
theorem test_refuse_reserved :
    responded (step (ready [req 0xC 0 0 0 0 []] (.script []))) = some (.idle, 4#3, [], []) := by decide

/-! ### One step of each command (V6, V7; the examples of R126 to R136) -/

theorem test_step_rdid :
    responded (step (flying .xfer (args 0 0 0) noSeq [] (.script [.ok [0x55#8, 0xC2#8, 0x20#8, 0x17#8]]))) =
      some (.idle, 0#3, [0xC2#8, 0x20#8, 0x17#8],
        [.exchange [0x9F#8, 0#8, 0#8, 0#8] [0x55#8, 0xC2#8, 0x20#8, 0x17#8]]) := by decide
theorem test_step_rdsr_query :
    responded (step (flying .xfer (args 10 0 0) noSeq [] (.script [.ok [0x55#8, 0xFE#8]]))) =
      some (.idle, 0#3, [0x00#8], [.exchange [0x05#8, 0#8] [0x55#8, 0xFE#8]]) := by decide
/-- The end of `eraseSector(1, 2)`'s first unit: the next sector is to be erased. -/
theorem test_step_rdsr_postPoll :
    wentOn (step (flying .postPoll (args 3 1 2) ⟨0x1000, 0x1000, 2, 0, 0⟩ [] (.script [.ok [0#8, 0#8]]))) =
      some (.issue, ⟨0x2000, 0x1000, 1, 0, 0⟩, [.exchange [0x05#8, 0#8] [0#8, 0#8]]) := by decide
theorem test_step_read :
    responded (step (flying .xfer (args 5 0x1000 2) noSeq []
      (.script [.ok [1#8, 2#8, 3#8, 4#8, 0xAA#8, 0xBB#8]]))) =
      some (.idle, 0#3, [0xAA#8, 0xBB#8],
        [.exchange [0x03#8, 0x00#8, 0x10#8, 0x00#8, 0#8, 0#8] [1#8, 2#8, 3#8, 4#8, 0xAA#8, 0xBB#8]]) := by decide
theorem test_step_fastRead :
    responded (step (flying .xfer (args 6 0x1000 2) noSeq []
      (.script [.ok [0x11#8, 0x22#8, 0x33#8, 0x44#8, 0x55#8, 0x66#8, 0xAA#8, 0xBB#8]]))) =
      some (.idle, 0#3, [0xAA#8, 0xBB#8],
        [.exchange [0x0B#8, 0x00#8, 0x10#8, 0x00#8, 0#8, 0#8, 0#8, 0#8]
          [0x11#8, 0x22#8, 0x33#8, 0x44#8, 0x55#8, 0x66#8, 0xAA#8, 0xBB#8]]) := by decide
theorem test_step_dp :
    responded (step (flying .xfer (args 7 0 0) noSeq [] (.script [.ok []]))) =
      some (.idle, 0#3, [], [.sendOnly [0xB9#8]]) := by decide
theorem test_step_res :
    responded (step (flying .xfer (args 8 0 0) noSeq [] (.script [.ok []]))) =
      some (.idle, 0#3, [], [.sendOnly [0xAB#8]]) := by decide
theorem test_step_wren :
    responded (step (flying .xfer (args 9 0 0) noSeq [] (.script [.ok []]))) =
      some (.idle, 0#3, [], [.sendOnly [0x06#8]]) := by decide
theorem test_step_wren_write :
    wentOn (step (flying .wren (args 4 0 1) ⟨0, 0, 0, 0, 1⟩ [] (.script [.ok []]))) =
      some (.prePoll, ⟨0, 0, 0, 0, 1⟩, [.sendOnly [0x06#8]]) := by decide
theorem test_step_ce :
    wentOn (step (flying .issue (args 1 0 0) ⟨0, 0, 1, 0, 0⟩ [] (.script [.ok []]))) =
      some (.postPoll, ⟨0, 0, 1, 0, 0⟩, [.sendOnly [0xC7#8]]) := by decide
theorem test_step_be :
    wentOn (step (flying .issue (args 2 63 1) ⟨0x3F0000, 0x10000, 1, 0, 0⟩ [] (.script [.ok []]))) =
      some (.postPoll, ⟨0x3F0000, 0x10000, 1, 0, 0⟩, [.sendOnly [0xD8#8, 0x3F#8, 0x00#8, 0x00#8]]) := by decide
theorem test_step_se :
    wentOn (step (flying .issue (args 3 1 2) ⟨0x1000, 0x1000, 2, 0, 0⟩ [] (.script [.ok []]))) =
      some (.postPoll, ⟨0x1000, 0x1000, 2, 0, 0⟩, [.sendOnly [0x20#8, 0x00#8, 0x10#8, 0x00#8]]) := by decide
/-- P1 step 2: the buffer's bytes 1 to 4 go to address 0x1000. -/
theorem test_step_pp :
    wentOn (step (flying .issue ⟨4, 0x1000, 4, 1, true, 6⟩ ⟨0x1000, 0, 0, 1, 4⟩
      (Memory.ofBytes 0 [0xAA#8, 0xDE#8, 0xAD#8, 0xBE#8, 0xEF#8, 0x55#8]) (.script [.ok []]))) =
      some (.postPoll, ⟨0x1000, 0, 0, 1, 4⟩,
        [.sendOnly [0x02#8, 0x00#8, 0x10#8, 0x00#8, 0xDE#8, 0xAD#8, 0xBE#8, 0xEF#8]]) := by decide
/-- The splitter's advance after a full page of 258 bytes (P3). -/
theorem test_step_write_advance :
    wentOn (step (flying .postPoll ⟨4, 0x2000, 258, 0, true, 258⟩ ⟨0x2000, 0, 0, 0, 258⟩ []
      (.script [.ok [0#8, 0#8]]))) =
      some (.issue, ⟨0x2100, 0, 0, 256, 2⟩, [.exchange [0x05#8, 0#8] [0#8, 0#8]]) := by decide
/-- V7 row 3: the block erase fails. -/
theorem test_step_transport_error :
    responded (step (flying .issue (args 2 1 2) ⟨0x10000, 0x10000, 2, 0, 0⟩ [] (.script [.err ⟨7⟩]))) =
      some (.idle, 3#3, [], [.sendOnlyErr [0xD8#8, 0x01#8, 0x00#8, 0x00#8] ⟨7⟩]) := by decide

/-! ### Witnesses: states and operands that meet the hypotheses of the statements, clause by clause -/

theorem inv_ready (rs : List Request) (o : Oracle) (hr : ∀ r ∈ rs, r.payload.wf = true) (ho : o.wf = true) :
    Inv (ready rs o) where
  params := show Params.default.wf = true by decide
  status := rfl
  geometry := fun _ => rfl
  closed := fun _ => rfl
  payload := rfl
  requests := hr
  oracle := ho
  route := trivial
  answered := rfl
  lastResponse := fun _ h => by cases h

theorem inv_flying (ph : Phase) (l : Latch) (q : Seq) (m : Memory) (o : Oracle) (hp : ph ≠ .idle) (hm : m.wf = true)
    (ho : o.wf = true) (h : OnRoute (flying ph l q m o)) : Inv (flying ph l q m o) where
  params := show Params.default.wf = true by decide
  status := rfl
  geometry := fun _ => rfl
  closed := fun hc => absurd rfl hc
  payload := hm
  requests := fun _ hr => by cases hr
  oracle := ho
  route := h
  answered := by show 1 = 0 + (if ph = .idle then 0 else 1); rw [if_neg hp]
  lastResponse := fun _ h => by cases h

theorem ready_fields (rs : List Request) (o : Oracle) :
    (ready rs o).resetIn = none ∧ (ready rs o).phase = .idle ∧ (ready rs o).cfgStatus = .cfgOk ∧
    (ready rs o).requests = rs ∧ (ready rs o).params = Params.default ∧ (ready rs o).geom = Geom.ofRow GeomRow.t64 ∧
    geomLookup (ready rs o).params (ready rs o).variant = some (ready rs o).geom := ⟨rfl, rfl, rfl, rfl, rfl, rfl, rfl⟩

/-- `eraseSector(1, 2)` in flight, nothing erased yet. -/
def erasing (ph : Phase) (o : Oracle) : State := flying ph (args 3 1 2) ⟨0x1000, 0x1000, 2, 0, 0⟩ [] o
/-- The last unit of `eraseBlock(63, 1)`, the last block of the chip. -/
def erasingLast (ph : Phase) (o : Oracle) : State := flying ph (args 2 63 1) ⟨0x3F0000, 0x10000, 1, 0, 0⟩ [] o
/-- `eraseChip()` in flight. -/
def erasingChip (ph : Phase) (o : Oracle) : State := flying ph (args 1 0 0) ⟨0, 0, 1, 0, 0⟩ [] o
/-- `write(0x3FFE00, buf, 0, 512)` in flight, ending at the last byte of the chip. -/
def writing (ph : Phase) (o : Oracle) : State :=
  flying ph ⟨4, 0x3FFE00, 512, 0, true, 512⟩ ⟨0x3FFE00, 0, 0, 0, 512⟩ [] o
/-- Its last chunk, which fills the buffer to its end. -/
def writingLast (ph : Phase) (o : Oracle) : State :=
  flying ph ⟨4, 0x3FFE00, 512, 0, true, 512⟩ ⟨0x3FFF00, 0, 0, 256, 256⟩ [] o
/-- `read(0x3FFFFF, 1)` in flight, the last byte of the chip. -/
def reading (o : Oracle) : State := flying .xfer (args 5 0x3FFFFF 1) noSeq [] o

theorem progress_erasing (ph : Phase) (o : Oracle) : EraseProgress (erasing ph o) :=
  Or.inr ⟨Or.inr ⟨rfl, show eraseSectorInRange (Geom.ofRow GeomRow.t64) 1 2 = true by decide⟩,
    show 1 ≤ (2#32).toNat by decide, show (2#32).toNat ≤ (2#32).toNat by decide,
    show (0x1000#32).toNat = (Geom.ofRow GeomRow.t64).sectorSize by decide,
    show (0x1000#32).toNat + (2#32).toNat * (Geom.ofRow GeomRow.t64).sectorSize =
      ((1#32).toNat + (2#32).toNat) * (Geom.ofRow GeomRow.t64).sectorSize by decide⟩
theorem progress_erasingLast (ph : Phase) (o : Oracle) : EraseProgress (erasingLast ph o) :=
  Or.inr ⟨Or.inl ⟨rfl, show eraseBlockInRange (Geom.ofRow GeomRow.t64) 63 1 = true by decide⟩,
    show 1 ≤ (1#32).toNat by decide, show (1#32).toNat ≤ (1#32).toNat by decide,
    show (0x10000#32).toNat = (Geom.ofRow GeomRow.t64).blockSize by decide,
    show (0x3F0000#32).toNat + (1#32).toNat * (Geom.ofRow GeomRow.t64).blockSize =
      ((63#32).toNat + (1#32).toNat) * (Geom.ofRow GeomRow.t64).blockSize by decide⟩
theorem progress_erasingChip (ph : Phase) (o : Oracle) : EraseProgress (erasingChip ph o) :=
  Or.inl ⟨rfl, show (1#32).toNat = 1 by decide⟩
theorem progress_writing (ph : Phase) (o : Oracle) : WriteProgress (writing ph o) :=
  ⟨rfl, rfl, show writeInRange (Geom.ofRow GeomRow.t64) 0x3FFE00 512 0 512 = true by decide,
    show 1 ≤ (512#32).toNat by decide,
    show (0x3FFE00#32).toNat + (512#32).toNat = (0x3FFE00#32).toNat + (512#32).toNat by decide,
    show (0#32).toNat + (512#32).toNat = (0#32).toNat + (512#32).toNat by decide,
    0, show (512#32).toNat + 0 * 256 = (512#32).toNat by decide⟩
theorem progress_writingLast (ph : Phase) (o : Oracle) : WriteProgress (writingLast ph o) :=
  ⟨rfl, rfl, show writeInRange (Geom.ofRow GeomRow.t64) 0x3FFE00 512 0 512 = true by decide,
    show 1 ≤ (256#32).toNat by decide,
    show (0x3FFF00#32).toNat + (256#32).toNat = (0x3FFE00#32).toNat + (512#32).toNat by decide,
    show (256#32).toNat + (256#32).toNat = (0#32).toNat + (512#32).toNat by decide,
    1, show (256#32).toNat + 1 * 256 = (512#32).toNat by decide⟩

theorem inv_erasing_postPoll (o : Oracle) (ho : o.wf = true) : Inv (erasing .postPoll o) :=
  inv_flying _ _ _ _ _ (by decide) rfl ho (Or.inl (progress_erasing _ _))
theorem inv_erasing_prePoll (o : Oracle) (ho : o.wf = true) : Inv (erasing .prePoll o) :=
  inv_flying _ _ _ _ _ (by decide) rfl ho (Or.inl (progress_erasing _ _))
theorem inv_erasing_issue (o : Oracle) (ho : o.wf = true) : Inv (erasing .issue o) :=
  inv_flying _ _ _ _ _ (by decide) rfl ho (Or.inl (progress_erasing _ _))
theorem inv_erasing_wren (o : Oracle) (ho : o.wf = true) : Inv (erasing .wren o) :=
  inv_flying _ _ _ _ _ (by decide) rfl ho (Or.inl (progress_erasing _ _))
theorem inv_erasingLast (o : Oracle) (ho : o.wf = true) : Inv (erasingLast .postPoll o) :=
  inv_flying _ _ _ _ _ (by decide) rfl ho (Or.inl (progress_erasingLast _ _))
theorem inv_erasingChip (o : Oracle) (ho : o.wf = true) : Inv (erasingChip .postPoll o) :=
  inv_flying _ _ _ _ _ (by decide) rfl ho (Or.inl (progress_erasingChip _ _))
theorem inv_writing (o : Oracle) (ho : o.wf = true) : Inv (writing .postPoll o) :=
  inv_flying _ _ _ _ _ (by decide) rfl ho (Or.inr (progress_writing _ _))
theorem inv_writingLast (o : Oracle) (ho : o.wf = true) : Inv (writingLast .postPoll o) :=
  inv_flying _ _ _ _ _ (by decide) rfl ho (Or.inr (progress_writingLast _ _))
theorem inv_reading (o : Oracle) (ho : o.wf = true) : Inv (reading o) :=
  inv_flying _ _ _ _ _ (by decide) rfl ho ⟨rfl, fun _ => show readInRange (Geom.ofRow GeomRow.t64) 0x3FFFFF 1 = true by decide⟩

/-- A script that gives the next call these bytes. -/
def answers (rx : List Byte) : Oracle := .script [.ok rx]

theorem witness_DecodeInvertsEncode :
    Params.default.wf = true ∧
    ∀ i ∈ [Instr.spiRead 0xFFFFFF 1, .spiFastRead 0 1, .spiPp 0xFFFFFF [0x11], .spiSe 0x3FF000, .spiBe 0x3F0000, .spiWren,
      .write 0xFFFFFFFF 0x80000000 0xFFFFFFFF true 0xFFFFFFFF, .read 0x7FFFFFFF 0x7FFFFFFF], WellFormed i = true := by decide

theorem witness_DecodedFrameIsWellFormed :
    decodeFrame Params.default [0x03, 0xFF, 0xFF, 0xFF, 0x77] = .ok (.spiRead 0xFFFFFF 1) ∧
    decodeFrame Params.default [0x0B, 0, 0, 0, 1, 2, 3] = .ok (.spiFastRead 0 1) ∧
    decodeFrame Params.default [0x02, 0, 0, 0xFF, 0x42] = .ok (.spiPp 0xFF [0x42]) ∧
    decodeFrame Params.default [0x20, 0, 0x10, 0] = .ok (.spiSe 0x1000) ∧
    decodeFrame Params.default [0xD8, 1, 0, 0] = .ok (.spiBe 0x10000) := ⟨rfl, rfl, rfl, rfl, rfl⟩

theorem witness_OperationCodesSelectOperations :
    ∀ k : Fin 11, (BitVec.ofNat 32 k).extractLsb' 4 4 = 0#4 ∧ (BitVec.ofNat 32 k).extractLsb' 9 23 = 0#23 ∧
      (BitVec.ofNat 32 k).extractLsb' 0 4 = BitVec.ofNat 4 k := by decide

/-- Both ends of each reserved field. -/
theorem witness_ReservedRequestIsRefused :
    ∀ w0 ∈ [0x0000000B#32, 0x0000000F#32, 0x00000010#32, 0x00000080#32, 0x00000200#32, 0x80000000#32],
      let s := ready [req w0 0 0 0 0 []] (.script [])
      (s.resetIn = none ∧ s.phase = .idle ∧ s.cfgStatus = .cfgOk ∧ s.requests = req w0 0 0 0 0 [] :: []) ∧
      (11 ≤ (w0.extractLsb' 0 4).toNat ∨ w0.extractLsb' 4 4 ≠ 0#4 ∨ w0.extractLsb' 9 23 ≠ 0#23) := by
  intro w0 h
  refine ⟨⟨rfl, rfl, rfl, rfl⟩, ?_⟩
  simp only [List.mem_cons, List.not_mem_nil, or_false] at h
  rcases h with rfl | rfl | rfl | rfl | rfl | rfl <;> decide

theorem witness_GeometryIsDerivedFromRom :
    ({ Params.default with geomRom := [GeomRow.t64, ⟨0xEF17, 16, 16, 256⟩] } : Params).wf = true ∧
    ({ Params.default with geomRom := [GeomRow.t64, ⟨0xEF17, 16, 16, 256⟩] } : Params).geomRom[(1#8).toNat]? =
      some ⟨0xEF17, 16, 16, 256⟩ := by decide

theorem witness_RomBoundsEverySize :
    ({ Params.default with geomRom := [⟨0, 1, 1, 1⟩, ⟨0, 16, 16, 256⟩] } : Params).wf = true ∧
    geomLookup { Params.default with geomRom := [⟨0, 1, 1, 1⟩, ⟨0, 16, 16, 256⟩] } 0#8 = some (Geom.ofRow ⟨0, 1, 1, 1⟩) ∧
    geomLookup { Params.default with geomRom := [⟨0, 1, 1, 1⟩, ⟨0, 16, 16, 256⟩] } 1#8 = some (Geom.ofRow ⟨0, 16, 16, 256⟩) := by
  decide

/-- The three configurations, at the last supported variant and the first unsupported one. -/
theorem witness_ResetLeavesTheBlockIdle :
    ((⟨1#8, false⟩ : Straps).transportPresent = false) ∧
    ((⟨1#8, true⟩ : Straps).transportPresent = true ∧ Params.default.geomRom.length ≤ (⟨1#8, true⟩ : Straps).variant.toNat) ∧
    ((⟨0#8, true⟩ : Straps).transportPresent = true ∧ (⟨0#8, true⟩ : Straps).variant.toNat < Params.default.geomRom.length) := by
  decide

theorem inv_noTransport : Inv (State.boot Params.default ⟨1#8, false⟩ 0 [] [] (.script [])) where
  params := show Params.default.wf = true by decide
  status := rfl
  geometry := fun h => by cases h
  closed := fun _ => rfl
  payload := rfl
  requests := fun _ h => by cases h
  oracle := rfl
  route := trivial
  answered := rfl
  lastResponse := fun _ h => by cases h
theorem inv_unsupported : Inv (State.boot Params.default ⟨1#8, true⟩ 0 [] [] (.script [])) where
  params := show Params.default.wf = true by decide
  status := rfl
  geometry := fun h => by cases h
  closed := fun _ => rfl
  payload := rfl
  requests := fun _ h => by cases h
  oracle := rfl
  route := trivial
  answered := rfl
  lastResponse := fun _ h => by cases h


theorem witness_HostReadsTheConfiguration :
    (Inv (reading (answers [])) ∧ hostReadStatus (reading (answers [])) = 0#2) ∧
    (Inv (State.boot Params.default ⟨1#8, false⟩ 0 [] [] (.script [])) ∧
      hostReadStatus (State.boot Params.default ⟨1#8, false⟩ 0 [] [] (.script [])) = 1#2) ∧
    (Inv (State.boot Params.default ⟨1#8, true⟩ 0 [] [] (.script [])) ∧
      hostReadStatus (State.boot Params.default ⟨1#8, true⟩ 0 [] [] (.script [])) = 2#2) :=
  ⟨⟨inv_reading _ rfl, rfl⟩, ⟨inv_noTransport, rfl⟩, ⟨inv_unsupported, rfl⟩⟩

theorem witness_AssertedResetAbandonsOperation :
    ((erasing .postPoll (answers [])).setResetIn (some ⟨1#8, true⟩)).resetIn = some ⟨1#8, true⟩ ∧
    ((erasing .postPoll (answers [])).setResetIn (some ⟨1#8, true⟩)).phase = .postPoll := ⟨rfl, rfl⟩

theorem witness_SectorCheckIsCountCheck :
    Params.default.wf = true ∧ geomLookup Params.default 0#8 = some (Geom.ofRow GeomRow.t64) ∧
    eraseSectorInRange (Geom.ofRow GeomRow.t64) 0 1024 = true ∧ eraseSectorInRange (Geom.ofRow GeomRow.t64) 0 1025 = false := by
  decide

theorem witness_ValidationBoundsEveryAddress :
    Params.default.wf = true ∧ geomLookup Params.default 0#8 = some (Geom.ofRow GeomRow.t64) ∧
    readInRange (Geom.ofRow GeomRow.t64) 0x3FFFFF 1 = true ∧
    writeInRange (Geom.ofRow GeomRow.t64) 0x3FFF00 256 0 256 = true ∧
    eraseBlockInRange (Geom.ofRow GeomRow.t64) 63 1 = true ∧
    eraseSectorInRange (Geom.ofRow GeomRow.t64) 1023 1 = true ∧ ((0 : Nat) : Int) < (1#32).toInt := by decide

theorem witness_UncheckedOperationsGoToTransfer :
    (ready [] (answers [])).phase = .idle ∧ (ready [] (answers [])).cfgStatus = .cfgOk := ⟨rfl, rfl⟩

theorem witness_EraseChipStartsPolling :
    (ready [] (answers [])).phase = .idle ∧ (ready [] (answers [])).cfgStatus = .cfgOk := ⟨rfl, rfl⟩

/-- The last byte of the chip, and one past it (R107). -/
theorem witness_ReadsAreRangeChecked :
    (ready [] (answers [])).phase = .idle ∧ (ready [] (answers [])).cfgStatus = .cfgOk ∧
    (0 ≤ (0x3FFFFF#32).toInt ∧ 0 < (1#32).toInt ∧ (0x3FFFFF#32).toInt + (1#32).toInt ≤ (ready [] (answers [])).geom.capacity) ∧
    ¬(0 ≤ (0x400000#32).toInt ∧ 0 < (1#32).toInt ∧ (0x400000#32).toInt + (1#32).toInt ≤ (ready [] (answers [])).geom.capacity) := by
  decide

/-- The last block, and one past it (R109). -/
theorem witness_EraseBlockIsRangeChecked :
    (ready [] (answers [])).phase = .idle ∧ (ready [] (answers [])).cfgStatus = .cfgOk ∧ (ready [] (answers [])).params.wf = true ∧
    geomLookup (ready [] (answers [])).params (ready [] (answers [])).variant = some (Geom.ofRow GeomRow.t64) ∧
    (ready [] (answers [])).geom = Geom.ofRow GeomRow.t64 ∧
    (0 ≤ (63#32).toInt ∧ 0 < (1#32).toInt ∧ (63#32).toInt + (1#32).toInt ≤ (Geom.ofRow GeomRow.t64).blockCount.toNat) ∧
    ¬(0 ≤ (63#32).toInt ∧ 0 < (2#32).toInt ∧ (63#32).toInt + (2#32).toInt ≤ (Geom.ofRow GeomRow.t64).blockCount.toNat) := by
  decide

/-- The last sector, and one past it (R110). -/
theorem witness_EraseSectorIsRangeChecked :
    (ready [] (answers [])).phase = .idle ∧ (ready [] (answers [])).cfgStatus = .cfgOk ∧ (ready [] (answers [])).params.wf = true ∧
    geomLookup (ready [] (answers [])).params (ready [] (answers [])).variant = some (Geom.ofRow GeomRow.t64) ∧
    (ready [] (answers [])).geom = Geom.ofRow GeomRow.t64 ∧
    (0 ≤ (1023#32).toInt ∧ 0 < (1#32).toInt ∧
      ((1023#32).toInt + (1#32).toInt) * (Geom.ofRow GeomRow.t64).sectorSize ≤ (Geom.ofRow GeomRow.t64).capacity) ∧
    ¬(0 ≤ (1023#32).toInt ∧ 0 < (2#32).toInt ∧
      ((1023#32).toInt + (2#32).toInt) * (Geom.ofRow GeomRow.t64).sectorSize ≤ (Geom.ofRow GeomRow.t64).capacity) := by decide

/-- No buffer; one byte too many for the buffer; exactly the buffer (R108). -/
theorem witness_WriteIsChecked :
    let valid (length : Word) := 0 ≤ (0#32).toInt ∧ 0 ≤ (1#32).toInt ∧ 0 < length.toInt ∧
      (0#32).toInt + length.toInt ≤ (ready [] (answers [])).geom.capacity ∧ (1#32).toInt + length.toInt ≤ (5#32).toNat
    (ready [] (answers [])).phase = .idle ∧ (ready [] (answers [])).cfgStatus = .cfgOk ∧ ¬valid 5#32 ∧ valid 4#32 := by decide

theorem witness_RequestsWhileNotReadyAreIgnored :
    Instr.identify.command = none ∧ (reading (answers [])).phase ≠ .idle ∧
    (State.boot Params.default ⟨1#8, true⟩ 0 [] [] (.script [])).cfgStatus ≠ .cfgOk := ⟨rfl, by decide, by decide⟩

theorem witness_NoRequestIsTakenWhileNotReady :
    (reading (answers [1, 2, 3, 4, 5])).resetIn = none ∧ (reading (answers [1, 2, 3, 4, 5])).phase ≠ .idle ∧
    (∃ t, step (reading (answers [1, 2, 3, 4, 5])) = .next t) ∧
    (∃ t, step (State.boot Params.default ⟨1#8, true⟩ 0 [req 9 0 0 0 0 []] [] (.script [])) = .next t) :=
  ⟨rfl, by decide, ⟨_, rfl⟩, ⟨_, rfl⟩⟩

/-- One instruction of each group of the frame, the checked ones once accepted and once refused. -/
theorem witness_AcceptFrame :
    ∀ i ∈ [Instr.identify, .suspend, .resume, .writeEnable, .isWriteInProgress, .eraseChip, .read 0x3FFFFF 1, .read 0x400000 1,
      .readFast 0 1, .eraseBlock 63 1, .eraseBlock 64 1, .eraseSector 1023 1, .write 0 1 0 true 1, .write 0 1 0 false 1],
      i.command = none ∧ ∃ t, exec i (ready [] (answers [])) = .next t := by
  intro i hi
  simp only [List.mem_cons, List.not_mem_nil, or_false] at hi
  rcases hi with rfl | rfl | rfl | rfl | rfl | rfl | rfl | rfl | rfl | rfl | rfl | rfl | rfl | rfl <;> exact ⟨rfl, _, rfl⟩

/-- The hypotheses of a statement about a command: the phase it is issued in, its frame, and the oracle's answer. -/
theorem witness_MutatingCommandsSendAndPoll :
    (encode (erasing .issue (answers [])).params (.spiSe 0x3FF000) = .frame [0x20, 0x3F, 0xF0, 0x00] ∧
      (erasing .issue (answers [])).phase = .issue ∧
      (erasing .issue (answers [])).oracle.answer (erasing .issue (answers [])).params (erasing .issue (answers [])).freeCtr
        [] = (.ok [], .script [])) ∧
    encode Params.default .spiCe = .frame [0xC7] ∧
    encode Params.default (.spiBe 0x3F0000) = .frame [0xD8, 0x3F, 0x00, 0x00] ∧
    encode Params.default (.spiPp 0xFFFFFF [0x11]) = .frame [0x02, 0xFF, 0xFF, 0xFF, 0x11] := by
  refine ⟨⟨rfl, rfl, rfl⟩, rfl, rfl, rfl⟩

/-- The answer to a one-byte frame, in the three situations WREN is sent in. -/
theorem witness_WrenSendsAndGoesOn :
    ((erasing .wren (answers [0x77])).phase = .wren ∧ (erasing .wren (answers [0x77])).latch.op = 3#4) ∧
    ((writing .wren (answers [0x77])).phase = .wren ∧ (writing .wren (answers [0x77])).latch.op = 4#4) ∧
    (reading (answers [0x77])).phase = .xfer ∧
    ∀ s ∈ [erasing .wren (answers [0x77]), writing .wren (answers [0x77]), reading (answers [0x77])],
      s.oracle.answer s.params s.freeCtr [s.params.opcWren] = (.ok [0x77], .script []) := by
  refine ⟨⟨rfl, rfl⟩, ⟨rfl, rfl⟩, rfl, ?_⟩
  intro s hs
  simp only [List.mem_cons, List.not_mem_nil, or_false] at hs
  rcases hs with rfl | rfl | rfl <;> rfl

theorem witness_PowerCommandsSendAndRespond :
    (reading (answers [0x77])).phase = .xfer ∧
    (reading (answers [0x77])).oracle.answer (reading (answers [0x77])).params (reading (answers [0x77])).freeCtr
      [(reading (answers [0x77])).params.opcDp] = (.ok [0x77], .script []) ∧
    (reading (answers [0x77])).oracle.answer (reading (answers [0x77])).params (reading (answers [0x77])).freeCtr
      [(reading (answers [0x77])).params.opcRes] = (.ok [0x77], .script []) := ⟨rfl, rfl, rfl⟩

/-- The shortest exchanges of READ, FAST_READ and RDID. -/
theorem witness_ReadCommandsRespondWithReceivedBytes :
    let s := reading (answers [1, 2, 3, 4, 5])
    let f := reading (answers [1, 2, 3, 4, 5, 6, 7])
    let d := reading (answers [1, 2, 3, 4])
    (s.phase = .xfer ∧ encode s.params (.spiRead 0x3FFFFF 1) = .frame [0x03, 0x3F, 0xFF, 0xFF, 0] ∧
      s.oracle.answer s.params s.freeCtr [0x03, 0x3F, 0xFF, 0xFF, 0] = (.ok [1, 2, 3, 4, 5], .script [])) ∧
    (f.phase = .xfer ∧ encode f.params (.spiFastRead 0 1) = .frame [0x0B, 0, 0, 0, 0, 0, 0] ∧
      f.oracle.answer f.params f.freeCtr [0x0B, 0, 0, 0, 0, 0, 0] = (.ok [1, 2, 3, 4, 5, 6, 7], .script [])) ∧
    (d.phase = .xfer ∧ encode d.params .spiRdid = .frame [0x9F, 0, 0, 0] ∧
      d.oracle.answer d.params d.freeCtr [0x9F, 0, 0, 0] = (.ok [1, 2, 3, 4], .script [])) :=
  ⟨⟨rfl, rfl, rfl⟩, ⟨rfl, rfl, rfl⟩, ⟨rfl, rfl, rfl⟩⟩

/-- A busy and a not-busy answer whose other bits say nothing, in every situation a status read is made in. -/
theorem witness_StatusReadDecidesOnBitZero :
    ((0x01#8).getLsbD 0 = true ∧ (0xFF#8).getLsbD 0 = true ∧ (0xFE#8).getLsbD 0 = false ∧ (0x00#8).getLsbD 0 = false) ∧
    (∀ b : Byte, ∀ s ∈ [erasing .prePoll (answers [0x55, b]), writing .prePoll (answers [0x55, b]), reading (answers [0x55, b])],
      s.oracle.answer s.params s.freeCtr [s.params.opcRdsr, s.params.fill] = (.ok [0x55, b], .script [])) ∧
    (erasing .prePoll (answers [])).latch.op = 3#4 ∧ (erasingChip .prePoll (answers [])).latch.op = 1#4 ∧
    (writing .prePoll (answers [])).latch.op = 4#4 ∧ (reading (answers [])).phase = .xfer := by
  refine ⟨by decide, ?_, rfl, rfl, rfl, rfl⟩
  intro b s hs
  simp only [List.mem_cons, List.not_mem_nil, or_false] at hs
  rcases hs with rfl | rfl | rfl <;> rfl

/-- An erase with a unit to come and with none, a chip erase, a write with a chunk to come and with none. -/
theorem witness_StatusReadAdvancesTheOperation :
    ∀ b : Byte,
      (Inv (erasing .postPoll (answers [0x55, b])) ∧ 1 < (erasing .postPoll (answers [0x55, b])).seq.nLeft.toNat) ∧
      (Inv (erasingLast .postPoll (answers [0x55, b])) ∧ (erasingLast .postPoll (answers [0x55, b])).seq.nLeft.toNat = 1) ∧
      (Inv (erasingChip .postPoll (answers [0x55, b])) ∧ (erasingChip .postPoll (answers [0x55, b])).latch.op = 1#4) ∧
      (Inv (writing .postPoll (answers [0x55, b])) ∧
        min (writing .postPoll (answers [0x55, b])).seq.bytesLeft.toNat 256 <
          (writing .postPoll (answers [0x55, b])).seq.bytesLeft.toNat) ∧
      (Inv (writingLast .postPoll (answers [0x55, b])) ∧
        (writingLast .postPoll (answers [0x55, b])).seq.bytesLeft.toNat =
          min (writingLast .postPoll (answers [0x55, b])).seq.bytesLeft.toNat 256) ∧
      (erasing .postPoll (answers [0x55, b])).oracle.answer (erasing .postPoll (answers [0x55, b])).params
        (erasing .postPoll (answers [0x55, b])).freeCtr [0x05, 0x00] = (.ok [0x55, b], .script []) :=
  fun _ => ⟨⟨inv_erasing_postPoll _ rfl, show 1 < (2#32).toNat by decide⟩,
    ⟨inv_erasingLast _ rfl, show (1#32).toNat = 1 by decide⟩, ⟨inv_erasingChip _ rfl, rfl⟩,
    ⟨inv_writing _ rfl, show min (512#32).toNat 256 < (512#32).toNat by decide⟩,
    ⟨inv_writingLast _ rfl, show (256#32).toNat = min (256#32).toNat 256 by decide⟩, rfl⟩

/-- A failing exchange and a failing send. -/
theorem witness_TransportErrorEndsTheOperation :
    let s := erasing .postPoll (.script [.err ⟨7⟩])
    let u := erasing .issue (.script [.err ⟨7⟩])
    (Instr.spiRdsr.command ≠ none ∧ encode s.params .spiRdsr = .frame [0x05, 0x00] ∧
      s.oracle.answer s.params s.freeCtr [0x05, 0x00] = (.err ⟨7⟩, .script [])) ∧
    ((Instr.spiSe 0x1000).command ≠ none ∧ encode u.params (.spiSe 0x1000) = .frame [0x20, 0x00, 0x10, 0x00] ∧
      u.oracle.answer u.params u.freeCtr [0x20, 0x00, 0x10, 0x00] = (.err ⟨7⟩, .script [])) :=
  ⟨⟨by decide, rfl, rfl⟩, ⟨by decide, rfl, rfl⟩⟩

/-- A command that is no status read, and a status read outside POST_POLL. -/
theorem witness_CommandFrame :
    ((Instr.spiSe 0x1000).command ≠ none ∧ (Instr.spiSe 0x1000).command ≠ some .rdsr ∧
      ∃ t, exec (.spiSe 0x1000) (erasing .issue (answers [])) = .next t) ∧
    (Instr.spiRdsr.command ≠ none ∧ (erasing .prePoll (answers [0, 1])).phase ≠ .postPoll ∧
      ∃ t, exec .spiRdsr (erasing .prePoll (answers [0, 1])) = .next t) :=
  ⟨⟨by decide, by decide, _, rfl⟩, ⟨by decide, by decide, _, rfl⟩⟩

/-- A chip about to complete a sector erase. -/
def erasingChipState : Chip :=
  ⟨Geom.ofRow GeomRow.t64, [(0x0FFF, 0x12), (0x1000, 0x34), (0x2000, 0x56)], true, true, some (.eraseSector 0x1000), 0, false, 0,
    0xEF, 0x40, 0x16⟩

theorem witness_ChipArrayFrame :
    let s := erasing .postPoll (.chip erasingChipState [])
    let u := erasing .postPoll (.chip erasingChipState [none])
    (Instr.spiRdsr.command ≠ none ∧ s.oracle = .chip erasingChipState [] ∧ erasingChipState.mem.wf = true ∧
      ∃ t, exec .spiRdsr s = .next t) ∧
    (u.params.wf = true ∧ (Instr.spiRead 0x1000 1).command ≠ some .rdsr ∧ u.oracle = .chip erasingChipState [none] ∧
      ([none] : List (Option Failure)).head? = some none ∧ ∃ t, exec (.spiRead 0x1000 1) u = .next t) ∧
    ¬ touches erasingChipState.geom 0x2000 (.eraseSector 0x1000) :=
  ⟨⟨by decide, rfl, by decide, _, rfl⟩, ⟨show Params.default.wf = true by decide, by decide, rfl, rfl, _, rfl⟩,
    fun h => absurd h.2 (show ¬ 0x2000 < 0x1000 - 0x1000 % (Geom.ofRow GeomRow.t64).sectorSize + (Geom.ofRow GeomRow.t64).sectorSize
      by decide)⟩

theorem witness_StepRunsTheDecodedRequest :
    let r := req 0x00000104 0x100 3 0 3 [0x11, 0x22, 0x33]
    let s := ready [r] (answers [])
    s.resetIn = none ∧ s.phase = .idle ∧ s.cfgStatus = .cfgOk ∧ s.requests = r :: [] ∧
    decodeRequest r.words = .ok (.write 0x100 3 0 true 3) := ⟨rfl, rfl, rfl, rfl, rfl⟩

theorem witness_IdleBlockWaits :
    ((ready [] (answers [])).resetIn = none ∧ (ready [] (answers [])).phase = .idle ∧ (ready [] (answers [])).requests = []) ∧
    (let s := State.boot Params.default ⟨1#8, true⟩ 0 [req 9 0 0 0 0 []] [] (.script []);
      s.resetIn = none ∧ s.phase = .idle ∧ s.cfgStatus ≠ .cfgOk) := ⟨⟨rfl, rfl, rfl⟩, rfl, rfl, by decide⟩

/-- Both ends of the class of mutating operations, and the chunk that ends the buffer. -/
theorem witness_StepRunsTheSelectedCommand :
    ((erasingChip .prePoll (answers [])).resetIn = none ∧ 1 ≤ (erasingChip .prePoll (answers [])).latch.op.toNat) ∧
    (writing .wren (answers [])).latch.op.toNat ≤ 4 ∧
    ((writingLast .issue (answers [])).phase = .issue ∧ (writingLast .issue (answers [])).latch.op = 4#4 ∧
      (writingLast .issue (answers [])).seq.bufIdx.toNat +
        min (writingLast .issue (answers [])).seq.bytesLeft.toNat (writingLast .issue (answers [])).geom.pageSize ≤
          (writingLast .issue (answers [])).latch.bufLen.toNat) ∧
    ((reading (answers [])).phase = .xfer ∧ (reading (answers [])).latch.op = 5#4) :=
  ⟨⟨rfl, show 1 ≤ (1#4).toNat by decide⟩, show (4#4).toNat ≤ 4 by decide, ⟨rfl, rfl,
    show (256#32).toNat + min (256#32).toNat (Geom.ofRow GeomRow.t64).pageSize ≤ (512#32).toNat by decide⟩, rfl, rfl⟩

theorem witness_ConfigurationNeverChanges :
    (erasing .issue (answers [])).resetIn = none ∧ ∃ t, step (erasing .issue (answers [])) = .next t := ⟨rfl, _, rfl⟩

theorem witness_OnlyTheElevenCommandsAreSent :
    Inv (erasing .issue (answers [])) ∧ (erasing .issue (answers [])).resetIn = none ∧
    ∃ t, step (erasing .issue (answers [])) = .next t := ⟨inv_erasing_issue _ rfl, rfl, _, rfl⟩

/-- An accept that leaves IDLE, and a step of an operation in flight. -/
theorem witness_PhasesFollowTheRoute :
    (Inv (ready [req 9 0 0 0 0 []] (answers [])) ∧ (ready [req 9 0 0 0 0 []] (answers [])).phase = .idle ∧
      ∃ t, step (ready [req 9 0 0 0 0 []] (answers [])) = .next t ∧ t.phase ≠ .idle) ∧
    (Inv (erasing .wren (answers [])) ∧ (erasing .wren (answers [])).phase ≠ .idle ∧
      ∃ t, step (erasing .wren (answers [])) = .next t) :=
  ⟨⟨inv_ready _ _ (by decide) rfl, rfl, _, rfl, by decide⟩, ⟨inv_erasing_wren _ rfl, by decide, _, rfl⟩⟩

/-- An operation that answers `OK` and a request that is refused. -/
theorem witness_ResponsesFitTheOperation :
    (Inv (reading (answers [1, 2, 3, 4, 5])) ∧ (reading (answers [1, 2, 3, 4, 5])).resetIn = none ∧
      ∃ t, step (reading (answers [1, 2, 3, 4, 5])) = .next t ∧ t.responses ≠ (reading (answers [1, 2, 3, 4, 5])).responses) ∧
    (Inv (ready [req 0xC 0 0 0 0 []] (answers [])) ∧ (ready [req 0xC 0 0 0 0 []] (answers [])).resetIn = none ∧
      ∃ t, step (ready [req 0xC 0 0 0 0 []] (answers [])) = .next t ∧
        t.responses ≠ (ready [req 0xC 0 0 0 0 []] (answers [])).responses) :=
  ⟨⟨inv_reading _ rfl, rfl, _, rfl, fun h => by cases h⟩,
    ⟨inv_ready _ _ (by decide) rfl, rfl, _, rfl, fun h => by cases h⟩⟩

theorem witness_OneResponsePerOperation :
    (Inv (erasing .prePoll (answers [0, 1])) ∧ ∃ t, step (erasing .prePoll (answers [0, 1])) = .next t ∧ t.phase ≠ .idle) ∧
    (Inv (reading (answers [1, 2, 3, 4, 5])) ∧ ∃ t, step (reading (answers [1, 2, 3, 4, 5])) = .next t ∧ t.phase = .idle) :=
  ⟨⟨inv_erasing_prePoll _ rfl, _, rfl, by decide⟩, ⟨inv_reading _ rfl, _, rfl, rfl⟩⟩

theorem witness_OkMeansTheChipWasSeenNotBusy :
    let s := erasingLast .postPoll (answers [0, 0xFE])
    Inv s ∧ s.resetIn = none ∧ s.phase ≠ .idle ∧ 1 ≤ s.latch.op.toNat ∧ s.latch.op.toNat ≤ 4 ∧
    ∃ t, step s = .next t ∧ t.phase = .idle ∧ t.resp.code = 0#3 :=
  ⟨inv_erasingLast _ rfl, rfl, by decide, show 1 ≤ (2#4).toNat by decide, show (2#4).toNat ≤ 4 by decide, _, rfl, rfl, rfl⟩

theorem witness_ResetMeetsTheInvariant :
    Params.default.wf = true ∧ (req 0x104 0 2 0 2 [0x11, 0xFF]).payload.wf = true ∧ (Memory.ofBytes 0 [0xFF, 0x22]).wf = true ∧
    (Oracle.chip erasingChipState [some ⟨⟨7⟩, some erasingChipState⟩]).wf = true := by decide

theorem witness_StepKeepsTheInvariant : Inv (erasing .issue (answers [])) := inv_erasing_issue _ rfl

/-- A request presented, its buffer changed, and a reset that leaves the chip as it may. -/
theorem witness_EveryReachableStateRuns :
    Reachable { ((ready [] (answers [])).setRequests [req 9 0 0 0 0 []]).setPayload [(0, 0x11)] with
      resetIn := some ⟨0#8, true⟩, oracle := answers [0x22] } :=
  .assertReset _ _ (.changeBuffer _ (.present (s := ready [] (answers [])) (req 9 0 0 0 0 [])
    (.boot Params.default ⟨0#8, true⟩ 0 [] [] (answers []) (by decide) (fun _ h => by cases h) rfl rfl) rfl) (by decide)) rfl

/-- Two idle machines that remember different operations. -/
theorem witness_EarlierOperationsLeaveNoTrace :
    Alike (ready [] (answers []))
      { ready [] (answers []) with latch := args 3 1 2, seq := ⟨1, 2, 3, 4, 5⟩, resp := ⟨1#3, [0x11], ⟨7⟩⟩ } :=
  ⟨rfl, fun h => absurd rfl h⟩

theorem witness_BusyChipHoldsThePoll :
    let s := erasing .prePoll (.script ([(0x00#8, 0x01#8), (0x11#8, 0xFF#8)].map (fun a => .ok [a.1, a.2]) ++ []))
    s.resetIn = none ∧ s.phase = .prePoll ∧ 1 ≤ s.latch.op.toNat ∧ s.latch.op.toNat ≤ 4 ∧
    (∀ a ∈ [(0x00#8, 0x01#8), (0x11#8, 0xFF#8)], a.2.getLsbD 0 = true) ∧
    s.oracle = .script ([(0x00#8, 0x01#8), (0x11#8, 0xFF#8)].map (fun a => .ok [a.1, a.2]) ++ []) :=
  ⟨rfl, rfl, show 1 ≤ (3#4).toNat by decide, show (3#4).toNat ≤ 4 by decide,
    fun a h => by
      simp only [List.mem_cons, List.not_mem_nil, or_false] at h
      rcases h with rfl | rfl <;> rfl,
    rfl⟩

/-- V5: the answers `03 FF 01 02`, and a poll that ends at once. -/
def poll4 : Poll := ⟨[(0, 0x03), (0, 0xFF), (0, 0x01)], (0, 0x02)⟩
def poll1 : Poll := ⟨[], (0, 0xFE)⟩

theorem poll4_ok : poll4.ok := by
  refine ⟨fun a h => ?_, rfl⟩
  simp only [poll4, List.mem_cons, List.not_mem_nil, or_false] at h
  rcases h with rfl | rfl | rfl <;> rfl
theorem poll1_ok : poll1.ok := ⟨fun a h => absurd h (List.not_mem_nil (a := a)), rfl⟩

theorem witness_PollEndsAtTheFirstNotBusy :
    let s := writing .prePoll (.script (poll4.replies ++ []))
    s.resetIn = none ∧ s.phase = .prePoll ∧ 1 ≤ s.latch.op.toNat ∧ s.latch.op.toNat ≤ 4 ∧ poll4.ok ∧
    s.oracle = .script (poll4.replies ++ []) :=
  ⟨rfl, rfl, show 1 ≤ (4#4).toNat by decide, show (4#4).toNat ≤ 4 by decide, poll4_ok, rfl⟩

/-- A read of the last byte. -/
theorem witness_TransferOperationsTakeTwoSteps :
    let r := req 5 0x3FFFFF 1 0 0 []
    let s := ready [r] (.script [.ok [1, 2, 3, 4, 5]])
    Inv s ∧ s.resetIn = none ∧ s.phase = .idle ∧ s.cfgStatus = .cfgOk ∧ s.requests = r :: [] ∧
    decodeRequest r.words = .ok (.read 0x3FFFFF 1) ∧ readInRange s.geom 0x3FFFFF 1 = true ∧
    encode s.params (.spiRead 0x3FFFFF (1#32).toNat) = .frame [0x03, 0x3F, 0xFF, 0xFF, 0] ∧
    s.oracle = .script (.ok [1, 2, 3, 4, 5] :: []) :=
  ⟨inv_ready _ _ (by decide) rfl, rfl, rfl, rfl, rfl, rfl,
    show readInRange (Geom.ofRow GeomRow.t64) 0x3FFFFF 1 = true by decide, rfl, rfl⟩

/-- The last two blocks, the second poll busy for a while; and the last sector. -/
theorem witness_EraseRunsUnitByUnit :
    let r := req 2 62 2 0 0 []
    let q := req 3 1023 1 0 0 []
    let s := ready [r] (.script (poll1.replies ++ .ok [] :: (unitReplies [poll4, poll1] ++ [])))
    let u := ready [q] (.script (poll4.replies ++ .ok [] :: (unitReplies [poll1] ++ [])))
    (Inv s ∧ s.resetIn = none ∧ s.phase = .idle ∧ s.cfgStatus = .cfgOk ∧ s.requests = r :: [] ∧
      decodeRequest r.words = .ok (.eraseBlock 62 2) ∧ eraseBlockInRange s.geom 62 2 = true ∧
      (∀ x ∈ [poll4, poll1], x.ok) ∧ [poll4, poll1].length = (2#32).toNat) ∧
    (Inv u ∧ u.resetIn = none ∧ u.phase = .idle ∧ u.cfgStatus = .cfgOk ∧ u.requests = q :: [] ∧
      decodeRequest q.words = .ok (.eraseSector 1023 1) ∧ eraseSectorInRange u.geom 1023 1 = true) :=
  ⟨⟨inv_ready _ _ (by decide) rfl, rfl, rfl, rfl, rfl, rfl,
      show eraseBlockInRange (Geom.ofRow GeomRow.t64) 62 2 = true by decide,
      by rintro x hx; simp only [List.mem_cons, List.not_mem_nil, or_false] at hx; rcases hx with rfl | rfl
         · exact poll4_ok
         · exact poll1_ok, by decide⟩,
    ⟨inv_ready _ _ (by decide) rfl, rfl, rfl, rfl, rfl, rfl,
      show eraseSectorInRange (Geom.ofRow GeomRow.t64) 1023 1 = true by decide⟩⟩

theorem witness_EraseChipRuns :
    let r := req 1 0 0 0 0 []
    let s := ready [r] (.script (poll4.replies ++ .ok [] :: (.ok [] :: (poll1.replies ++ []))))
    Inv s ∧ s.resetIn = none ∧ s.phase = .idle ∧ s.cfgStatus = .cfgOk ∧ s.requests = r :: [] ∧
    decodeRequest r.words = .ok .eraseChip ∧ poll4.ok ∧ poll1.ok :=
  ⟨inv_ready _ _ (by decide) rfl, rfl, rfl, rfl, rfl, rfl, poll4_ok, poll1_ok⟩

/-- A write of 257 bytes, one page and one byte, that ends at the last byte of the chip. -/
theorem witness_WriteSplitsThePayload :
    let r := req 0x104 0x3FFEFF 257 1 258 [0x11]
    let s := ready [r] (.script (.ok [] :: (poll1.replies ++ (unitReplies [poll4, poll1] ++ []))))
    Inv s ∧ s.resetIn = none ∧ s.phase = .idle ∧ s.cfgStatus = .cfgOk ∧ s.requests = r :: [] ∧
    decodeRequest r.words = .ok (.write 0x3FFEFF 257 1 true 258) ∧ writeInRange s.geom 0x3FFEFF 257 1 258 = true ∧
    [poll4, poll1].length = ((257#32).toNat + 255) / 256 :=
  ⟨inv_ready _ _ (by decide) rfl, rfl, rfl, rfl, rfl, rfl,
    show writeInRange (Geom.ofRow GeomRow.t64) 0x3FFEFF 257 1 258 = true by decide, by decide⟩

/-- A chip at rest. -/
def idleChip : Chip :=
  ⟨Geom.ofRow GeomRow.t64, [(0x0100, 0x12)], false, false, none, 0, false, 2, 0xEF, 0x40, 0x16⟩

/-- R65: a chip acts on the first byte, so a WREN with a byte after it sets the latch, and a byte that is no opcode has no effect. -/
theorem test_chip_first_byte :
    (idleChip.answer Params.default 0 [0x06, 0x55]).2.wel = true ∧ (idleChip.answer Params.default 0 [0x55, 0x06]).2 = idleChip ∧
    (idleChip.answer Params.default 0 []).2 = idleChip := ⟨by decide, by decide, by decide⟩

/-- R65, R66: every byte from index 4 on is a page-program's data, also beyond a page, where later bytes land over earlier ones. -/
theorem test_chip_long_program :
    (({ idleChip with wel := true } : Chip).answer Params.default 0
      ([0x02, 0x00, 0x02, 0x01] ++ (List.replicate 256 0x77 ++ [0x88]))).2.pending =
        some (.program 0x201 (List.replicate 256 0x77 ++ [0x88])) ∧
    (Chip.apply { idleChip.geom with pageSize := 2 } [] (.program 0x201 [0x11, 0x22, 0x33])) = [(0x200, 0x22), (0x201, 0x33)] :=
  ⟨rfl, by decide⟩

/-- P2: four bytes at 0xFE wrap to 0x00; of five bytes on a chip with pages of four the last four stand, the first at the lower boundary. -/
theorem witness_PageProgramWrapsInItsPage :
    let c : Chip := { idleChip with wel := true, busy := true, pending := some (.program 0xFE [1, 2, 3, 4]) }
    let f : Chip := { c with geom := { c.geom with pageSize := 4 }, pending := some (.program 0xFE [1, 2, 3, 4, 5]) }
    (c.mem.wf = true ∧ 0 < c.geom.pageSize ∧ c.pending = some (.program 0xFE [1, 2, 3, 4]) ∧
      0 < [(1 : Byte), 2, 3, 4].length ∧ [(1 : Byte), 2, 3, 4].length ≤ 0 + c.geom.pageSize) ∧
    (f.mem.wf = true ∧ 0 < f.geom.pageSize ∧ f.pending = some (.program 0xFE [1, 2, 3, 4, 5]) ∧
      1 < [(1 : Byte), 2, 3, 4, 5].length ∧ [(1 : Byte), 2, 3, 4, 5].length ≤ 1 + f.geom.pageSize) ∧
    (∀ j, j < [(1 : Byte), 2, 3, 4].length → 0x0100 ≠ 0xFE - 0xFE % 256 + (0xFE + j) % 256) :=
  ⟨⟨by decide, by decide, rfl, by decide, by decide⟩, ⟨by decide, by decide, rfl, by decide, by decide⟩, by decide⟩

/-- A chip without its latch, a busy one, and one that accepts. -/
theorem witness_ChipIgnoresCommandsWithoutLatch :
    Params.default.wf = true ∧ WellFormed (.spiSe 0x1000) = true ∧
    encode Params.default (.spiSe 0x1000) = .frame [0x20, 0x00, 0x10, 0x00] ∧
    encode Params.default .spiWren = .frame [0x06] ∧ idleChip.dpd = false ∧ idleChip.wel = false ∧
    ({ idleChip with busy := true } : Chip).busy = true ∧
    (({ idleChip with wel := true } : Chip).wel = true ∧ ({ idleChip with wel := true } : Chip).busy = false) :=
  ⟨by decide, by decide, rfl, rfl, rfl, rfl, rfl, rfl, rfl⟩

/-- An awake chip that is idle, one about to complete and one busy for one read more, with and without the latch, a byte that is no opcode, and frames
with and without an address and data. -/
theorem witness_ChipActsOnTheFirstByte :
    Params.default.wf = true ∧ idleChip.dpd = false ∧ (∀ cmd, Params.default.opcode cmd ≠ 0x55) ∧
    idleChip.busy = false ∧ idleChip.wel = false ∧ ({ idleChip with wel := true } : Chip).wel = true ∧
    (({ idleChip with busy := true } : Chip).busy = true ∧ ({ idleChip with busy := true } : Chip).busyReadsLeft = 0) ∧
    0 < ({ idleChip with busy := true, busyReadsLeft := 1 } : Chip).busyReadsLeft ∧
    (∃ b, (idleChip.answer Params.default 0 [0x05, 0]).1[1]? = some b) ∧
    (∃ b, (idleChip.answer Params.default 0 [0x9F, 0, 0, 0]).1[1 + 2]? = some b) ∧
    ([0x3F, 0xFF, 0xFF, 0, 0, 0] : List Byte) = 0x3F :: 0xFF :: 0xFF :: [0, 0, 0] ∧ 0 + 2 < [(0 : Byte), 0, 0].length :=
  ⟨by decide, rfl, fun cmd => by cases cmd <;> decide, rfl, rfl, rfl, ⟨rfl, rfl⟩, by decide, ⟨_, rfl⟩, ⟨_, rfl⟩, rfl, by decide⟩

/-- A sleeping chip that is sent an erase, one that is released, and an awake one that is sent to sleep. -/
theorem witness_ChipInDeepPowerDownHearsOnlyRelease :
    Params.default.wf = true ∧ WellFormed (.spiSe 0x1000) = true ∧
    encode Params.default (.spiSe 0x1000) = .frame [0x20, 0x00, 0x10, 0x00] ∧
    ({ idleChip with dpd := true } : Chip).dpd = true ∧ Instr.spiSe 0x1000 ≠ .spiRes ∧
    encode Params.default .spiRes = .frame [0xAB] ∧ encode Params.default .spiDp = .frame [0xB9] ∧ idleChip.dpd = false :=
  ⟨by decide, by decide, rfl, rfl, by decide, rfl, rfl, rfl⟩

/-- Reads past the end of the array, and a chip that is idle, about to complete, and busy for one read more. -/
theorem witness_ChipAnswersReadsAndStatus :
    Params.default.wf = true ∧ idleChip.dpd = false ∧ WellFormed (.spiRead 0x3FFFFF 2) = true ∧
    encode Params.default (.spiRead 0x3FFFFF 2) = .frame [0x03, 0x3F, 0xFF, 0xFF, 0, 0] ∧
    WellFormed (.spiFastRead 0x3FFFFF 1) = true ∧
    encode Params.default (.spiFastRead 0x3FFFFF 1) = .frame [0x0B, 0x3F, 0xFF, 0xFF, 0, 0, 0] ∧
    encode Params.default .spiRdid = .frame [0x9F, 0, 0, 0] ∧ encode Params.default .spiRdsr = .frame [0x05, 0] ∧
    idleChip.busy = false ∧ ({ idleChip with busy := true, busyReadsLeft := 0 } : Chip).busyReadsLeft = 0 ∧
    0 < ({ idleChip with busy := true, busyReadsLeft := 1 } : Chip).busyReadsLeft :=
  ⟨by decide, rfl, by decide, rfl, by decide, rfl, rfl, rfl, rfl, rfl, by decide⟩

/-- A whole page at an unaligned place would not do; its last byte, next to the next page, does. -/
theorem witness_WriteThenReadReturnsTheBytes :
    let w := req 0x104 0x1FE 2 1 3 [0x11, 0x22, 0x33]
    let r := req 5 0x1FE 2 0 0 []
    let s := ready [w, r] (.chip idleChip [])
    Inv s ∧ s.resetIn = none ∧ s.phase = .idle ∧ s.cfgStatus = .cfgOk ∧ s.requests = [w, r] ∧
    decodeRequest w.words = .ok (.write 0x1FE 2 1 true 3) ∧ decodeRequest r.words = .ok (.read 0x1FE 2) ∧
    writeInRange s.geom 0x1FE 2 1 3 = true ∧ (0x1FE#32).toNat % 256 + (2#32).toNat ≤ 256 ∧
    s.oracle = .chip idleChip [] ∧ idleChip.geom = s.geom ∧ idleChip.dpd = false ∧ idleChip.busy = false :=
  ⟨inv_ready _ _ (by decide) (by decide), rfl, rfl, rfl, rfl, rfl, rfl,
    show writeInRange (Geom.ofRow GeomRow.t64) 0x1FE 2 1 3 = true by decide, by decide, rfl, rfl, rfl, rfl⟩

end Sys2Proof.Tests
end

section
/-! PROOFS. The family 00_scope.md: the configuration of a built instance is kept by every step (R7, R12, R13), and the state `State.reset`
starts in (R6, R26). -/

namespace Sys2Proof.Machine

/-! ### What keeps the configuration -/

theorem sameConfig_refl (s : State) : SameConfig s s := ⟨rfl, rfl, rfl, rfl, rfl⟩

theorem sameConfig_trans {s t u : State} (h : SameConfig s t) (k : SameConfig t u) : SameConfig s u := by
  obtain ⟨hp, hv, ht, hc, hg⟩ := h
  obtain ⟨kp, kv, kt, kc, kg⟩ := k
  exact ⟨kp.trans hp, kv.trans hv, kt.trans ht, kc.trans hc, kg.trans hg⟩

/-- No continuation of the route (R19) writes the configuration. -/
theorem sameConfig_of_routeOnly {s t : State} (h : RouteOnly s t) : SameConfig s t := by
  rw [h]
  exact sameConfig_refl s

theorem recordCall_sameConfig (s : State) (o : Oracle) (ev : Event) : SameConfig s (s.recordCall o ev) :=
  sameConfig_refl s

theorem acceptedAs_sameConfig (l : Latch) (s : State) : SameConfig s (acceptedAs l s) := sameConfig_refl s

theorem takeRequest_sameConfig (r : Request) (rest : List Request) (s : State) : SameConfig s (takeRequest r rest s) :=
  sameConfig_refl s

theorem refuseRequest_sameConfig (s : State) : SameConfig s (refuseRequest s) := sameConfig_refl s

/-- A command records one call, and then only the route moves (R19). -/
theorem exec_command_sameConfig {i : Instr} {s t : State} (hi : i.command ≠ none) (h : exec i s = .next t) :
    SameConfig s t := by
  obtain ⟨o, ev, hroute⟩ := exec_command_routeOnly hi h
  exact sameConfig_trans (recordCall_sameConfig s o ev) (sameConfig_of_routeOnly hroute)

/-- A host operation is ignored, or its operands are latched and then only the route moves (R19, R230). -/
theorem exec_accept_sameConfig {i : Instr} {s t : State} (hi : i.command = none) (h : exec i s = .next t) :
    SameConfig s t := by
  obtain ⟨operands, go, hparts⟩ := acceptParts_isSome s.geom i hi
  rw [exec_accept i s operands go hparts] at h
  rcases accept_cases h with ⟨rfl, -⟩ | ⟨rfl, -⟩
  · exact sameConfig_refl t
  · exact sameConfig_trans (acceptedAs_sameConfig _ s) (sameConfig_of_routeOnly (acceptParts_routeOnly hparts _))

/-- No instruction of either level writes the configuration (R7). -/
theorem exec_sameConfig {i : Instr} {s t : State} (h : exec i s = .next t) : SameConfig s t := by
  by_cases hi : i.command = none
  · exact exec_accept_sameConfig hi h
  · exact exec_command_sameConfig hi h

/-! ### The state after reset -/

theorem reset_cfgStatus : State.reset.cfgStatus = .cfgOk := by decide

/-- `VARIANT` = 0 selects the only row of the default ROM (R6, R100; log entry 3). -/
theorem reset_geom : State.reset.geom = Geom.ofRow GeomRow.t64 := rfl

end Sys2Proof.Machine
end

section
open Sys2Proof Sys2Proof.Machine

/-- Settles O37, by the cases of a step: the block waits, takes a request and runs or refuses it, or runs the command its phase selects. -/
theorem configurationNeverChanges : Obligations.ConfigurationNeverChanges := by
  intro s t hr h
  rcases step_cases hr h with ⟨-, -, rfl⟩ | ⟨-, -, r, rest, -, ⟨i, -, hx⟩ | ⟨e, -, rfl⟩⟩ | ⟨-, i, -, hx⟩
  · exact sameConfig_refl t
  · exact sameConfig_trans (takeRequest_sameConfig r rest s) (exec_sameConfig hx)
  · exact sameConfig_trans (takeRequest_sameConfig r rest s) (refuseRequest_sameConfig _)
  · exact exec_sameConfig hx

/-- Settles O10: the default ROM's only row is `T64`, whose sizes are computed (R101). -/
theorem resetStateIsReady : Obligations.ResetStateIsReady := by
  have hready : reqReady State.reset = true := (reqReady_iff State.reset).2 ⟨rfl, reset_cfgStatus⟩
  refine ⟨rfl, reset_cfgStatus, hready, rfl, rfl, rfl, ?_⟩
  rw [reset_geom]
  decide

end

section
/-! PROOFS. The family 10_state.md, configuration: the status and the geometry as a reset computes them (R12, R13, R26, R27, R76, R220). -/

namespace Sys2Proof.Machine

/-! ### The configuration status -/

section
variable (p : Params) (v : Byte) (tp : Bool)

theorem cfgStatusOf_eq_cfgOk : cfgStatusOf p v tp = .cfgOk ↔ tp = true ∧ v.toNat < p.geomRom.length := by
  cases tp with
  | false => simp [cfgStatusOf]
  | true => by_cases h : p.geomRom.length ≤ v.toNat <;> simp [cfgStatusOf, Params.nVariants, ← Nat.not_le, h]

theorem cfgStatusOf_eq_nullTransport : cfgStatusOf p v tp = .nullTransport ↔ tp = false := by
  cases tp with
  | false => simp [cfgStatusOf]
  | true => by_cases h : p.nVariants ≤ v.toNat <;> simp [cfgStatusOf, h]

theorem cfgStatusOf_eq_unsupported (h : p.geomRom.length ≤ v.toNat) :
    cfgStatusOf p v true = .unsupportedChipVariant := by
  simp [cfgStatusOf, Params.nVariants, h]

end

theorem CfgStatus.code_eq_zero (c : CfgStatus) : c.code = 0#2 ↔ c = .cfgOk := by cases c <;> decide
theorem CfgStatus.code_eq_one (c : CfgStatus) : c.code = 1#2 ↔ c = .nullTransport := by cases c <;> decide

/-- A good configuration holds the ROM's record (R13). -/
theorem geomLookup_geomAtReset {p : Params} {v : Byte} {tp : Bool} (n : Nat) (h : cfgStatusOf p v tp = .cfgOk) :
    geomLookup p v = some (geomAtReset p v tp n) := by
  obtain ⟨rfl, hv⟩ := (cfgStatusOf_eq_cfgOk p v tp).1 h
  simp [geomAtReset, geomLookup, List.getElem?_eq_getElem hv]

/-- Every reset of a block with well-formed parameters meets the invariant: no operation is in flight and no response is owed. -/
theorem boot_inv {p : Params} (straps : Straps) (n : Nat) {rs : List Request} {m : Memory} {o : Oracle}
    (hp : p.wf = true) (hr : ∀ r ∈ rs, r.payload.wf = true) (hm : m.wf = true) (ho : o.wf = true) :
    Inv (State.boot p straps n rs m o) where
  params := hp
  status := rfl
  geometry := geomLookup_geomAtReset n
  closed _ := rfl
  payload := hm
  requests := hr
  oracle := ho
  route := trivial
  answered := rfl
  lastResponse _ h := by simp at h

end Sys2Proof.Machine
end

section
open Sys2Proof Sys2Proof.Machine

/-- Settles O9: the straps decide the status, and a good status the geometry. -/
theorem resetLeavesTheBlockIdle : Obligations.ResetLeavesTheBlockIdle := by
  rintro p straps n rs m o s rfl
  have hok := cfgStatusOf_eq_cfgOk p straps.variant straps.transportPresent
  refine ⟨rfl, rfl, rfl, rfl, rfl, rfl, rfl, fun ht => ?_, fun ht hv => ?_, fun ht hv => ⟨?_, ?_⟩, ?_⟩
  · exact (CfgStatus.code_eq_one _).2 ((cfgStatusOf_eq_nullTransport _ _ _).2 ht)
  · rw [State.boot_cfgStatus, ht, cfgStatusOf_eq_unsupported p straps.variant hv]
    rfl
  · exact (CfgStatus.code_eq_zero _).2 (hok.2 ⟨ht, hv⟩)
  · exact (geomLookup_geomAtReset n (hok.2 ⟨ht, hv⟩)).symm
  · exact (reqReady_iff _).trans ((and_iff_right rfl).trans hok)

/-- Settles O43; `State.reset` is the reset of the block with the default parameters and nothing attached. -/
theorem resetMeetsTheInvariant : Obligations.ResetMeetsTheInvariant :=
  ⟨fun _ straps n _ _ _ hp hr hm ho => boot_inv straps n hp hr hm ho,
    boot_inv _ _ (by decide) (by simp) Memory.wf_nil rfl⟩

/-- Settles O11: the invariant says that the status is the one R12 computes, and what the geometry is when it is good. -/
theorem hostReadsTheConfiguration : Obligations.HostReadsTheConfiguration := by
  intro s hi
  have hzero := CfgStatus.code_eq_zero s.cfgStatus
  refine ⟨?_, ?_, ?_, fun h => ?_, fun h => ?_⟩
  · rw [hostReadStatus]
    cases s.cfgStatus <;> decide
  · rw [hostReadStatus, hzero, hi.status, cfgStatusOf_eq_cfgOk]
  · rw [hostReadStatus, CfgStatus.code_eq_one, hi.status, cfgStatusOf_eq_nullTransport]
  · have hc := hzero.1 h
    simp [hostReadGeom, hc, hi.geometry hc]
  · exact if_neg (mt hzero.2 h)

end

section
/-! PROOFS. The family 10_state.md, the invariant: what a command and an accept leave behind, and that every step keeps `Inv` (R15, R19, R24). -/

namespace Sys2Proof.Machine

/-! ### Every instruction completes -/

theorem exec_command_runs {i : Instr} (s : State) (hi : i.command ≠ none) : ∃ t, exec i s = .next t := by
  obtain ⟨k, tx, f, hparts⟩ := commandParts_isSome s.params i hi
  exact ⟨_, exec_command i s k tx f hparts⟩

theorem exec_accept_runs {i : Instr} (s : State) (hi : i.command = none) : ∃ t, exec i s = .next t := by
  obtain ⟨operands, go, hparts⟩ := acceptParts_isSome s.geom i hi
  exact ⟨_, exec_accept i s operands go hparts⟩

/-- Under the invariant no step ends in a fault or a refusal (R19; log entry 13). -/
theorem inv_runs {s : State} (hi : Inv s) : Runs s := by
  cases hr : s.resetIn with
  | some straps => exact ⟨_, step_reset s straps hr⟩
  | none =>
    by_cases hp : s.phase = .idle
    · by_cases hw : s.requests = [] ∨ s.cfgStatus ≠ .cfgOk
      · exact ⟨s, step_waits s hr hp hw⟩
      · obtain ⟨hq, hc⟩ := not_or.1 hw
        obtain ⟨r, rest, hq⟩ := List.exists_cons_of_ne_nil hq
        cases hd : decodeRequest r.words with
        | ok i =>
          rw [Runs, step_runs s r rest i hr hp (not_not.1 hc) hq hd]
          exact exec_accept_runs _ (decodeRequest_command hd)
        | error e => exact ⟨_, step_refuses s r rest e hr hp (not_not.1 hc) hq hd⟩
    · obtain ⟨i, hsel, -, hcmd⟩ := select_inv hi hp
      rw [Runs, step_busy s i hr hp hsel]
      exact exec_command_runs s hcmd

/-! ### The invariant while a response is owed -/

/-- What the invariant says of a state in the middle of a step, where one accepted request still has to be answered or sent on its route (R24): `Inv`
without its clauses on the phase. -/
structure Owing (c : State) : Prop where
  params : c.params.wf = true
  status : c.cfgStatus = cfgStatusOf c.params c.variant c.transportPresent
  good : c.cfgStatus = .cfgOk
  geometry : geomLookup c.params c.variant = some c.geom
  payload : c.payload.wf = true
  requests : ∀ r ∈ c.requests, r.payload.wf = true
  oracle : c.oracle.wf = true
  owed : c.accepted = c.responses.length + 1
  lastResponse : ∀ r, c.responses.getLast? = some r → c.resp = r

/-- Sending the operation on its route, or answering it, gives the invariant back. -/
theorem Owing.inv {c t : State} (h : Owing c) (hroute : RouteOnly c t) (hd : Delivers c t) (hon : OnRoute t) : Inv t where
  params := by rw [hroute]; exact h.params
  status := by rw [hroute]; exact h.status
  geometry _ := by rw [hroute]; exact h.geometry
  closed hbad := absurd (by rw [hroute]; exact h.good) hbad
  payload := by rw [hroute]; exact h.payload
  requests := by rw [hroute]; exact h.requests
  oracle := by rw [hroute]; exact h.oracle
  route := hon
  answered := by
    have hacc : t.accepted = c.accepted := by rw [hroute]
    rcases hd with ⟨hresps, -, hp⟩ | ⟨hp, hresps⟩
    · rw [hacc, h.owed, hresps, if_neg hp]
    · rw [hacc, h.owed, hresps, if_pos hp, List.length_append]
      rfl
  lastResponse r hlast := by
    rcases hd with ⟨hresps, hresp, -⟩ | ⟨-, hresps⟩
    · rw [hresp]
      exact h.lastResponse r (hresps ▸ hlast)
    · rw [hresps, List.getLast?_concat] at hlast
      exact Option.some.inj hlast

/-- A request taken in IDLE owes its response (R19 step ACCEPT). -/
theorem owing_accepted {s : State} {r : Request} {rest : List Request} (hi : Inv s) (hp : s.phase = .idle)
    (hc : s.cfgStatus = .cfgOk) (hq : s.requests = r :: rest) (l : Latch) : Owing (acceptedAs l (takeRequest r rest s)) where
  params := hi.params
  status := hi.status
  good := hc
  geometry := hi.geometry hc
  payload := hi.requests r (by simp [hq])
  requests x hx := hi.requests x (by rw [hq]; exact List.mem_cons_of_mem r hx)
  oracle := hi.oracle
  owed := by
    have hans := hi.answered
    rw [if_pos hp] at hans
    exact congrArg (· + 1) hans
  lastResponse := hi.lastResponse

/-- An operation in flight owes its response, also after a transport call. -/
theorem owing_recordCall {s : State} (hi : Inv s) (hp : s.phase ≠ .idle) {o : Oracle} (ho : o.wf = true) (ev : Event) :
    Owing (s.recordCall o ev) := by
  have hc : s.cfgStatus = .cfgOk := not_not.1 (mt hi.closed hp)
  have hans := hi.answered
  rw [if_neg hp] at hans
  exact ⟨hi.params, hi.status, hc, hi.geometry hc, hi.payload, hi.requests, ho, hans, hi.lastResponse⟩

/-! ### What a step of an operation in flight changes -/

theorem FlightStep.routeOnly {s c t : State} (h : FlightStep s c t) : RouteOnly c t := by
  cases h with
  | failed e => exact (deliver_phaseOnly _ _).1
  | preBusy _ => exact (PhaseOnly.refl c).1
  | preDone _ => exact (setPhase_phaseOnly _ _).1
  | wren _ => exact (setPhase_phaseOnly _ _).1
  | issue _ => exact (setPhase_phaseOnly _ _).1
  | postBusy _ => exact (PhaseOnly.refl c).1
  | postDone _ => exact advance_routeOnly c
  | transfer _ data => exact (deliver_phaseOnly _ _).1

theorem FlightStep.delivers {s c t : State} (h : FlightStep s c t) (hc : c.phase ≠ .idle) : Delivers c t := by
  cases h with
  | failed e => exact deliver_delivers _ _
  | preBusy _ => exact same_delivers c hc
  | preDone _ => exact setPhase_delivers c _ (by split <;> decide)
  | wren _ => exact setPhase_delivers c _ (by split <;> decide)
  | issue _ => exact setPhase_delivers c _ (by decide)
  | postBusy _ => exact same_delivers c hc
  | postDone _ => exact advance_delivers c hc
  | transfer _ data => exact deliver_delivers _ _

/-- A command leaves the oracle as its one call does, so the memories behind it stay canonical. -/
theorem exec_command_oracle_wf {i : Instr} {s t : State} (hi : i.command ≠ none) (ho : s.oracle.wf = true)
    (h : exec i s = .next t) : t.oracle.wf = true := by
  obtain ⟨k, tx, f, hparts⟩ := commandParts_isSome s.params i hi
  have hans := oracle_answer_wf s.params s.freeCtr tx s.oracle ho
  rw [exec_command i s k tx f hparts] at h
  rcases command_cases h with ⟨rx, o, ha, rfl⟩ | ⟨e, o, ha, rfl⟩
  · rw [commandParts_routeOnly hparts rx (s.recordCall o _)]
    rwa [ha] at hans
  · rwa [ha] at hans

/-! ### Every step keeps the invariant -/

theorem step_flight_inv {s t : State} (hi : Inv s) (hr : s.resetIn = none) (hp : s.phase ≠ .idle) (h : step s = .next t) :
    Inv t := by
  obtain ⟨o, ev, hf⟩ := flight_cases hi hr hp h
  obtain ⟨i, hsel, -, hcmd⟩ := select_inv hi hp
  have ho : t.oracle.wf = true := exec_command_oracle_wf hcmd hi.oracle (by rwa [step_busy s i hr hp hsel] at h)
  rw [hf.routeOnly] at ho
  exact (owing_recordCall hi hp ho ev).inv hf.routeOnly (hf.delivers hp) (flight_route hi hf rfl rfl rfl rfl hp)

/-- What taking and running a request comes to (R19 step ACCEPT). -/
theorem exec_takeRequest {s t : State} {r : Request} {rest : List Request} {i : Instr} (hi : i.command = none)
    (hp : s.phase = .idle) (hc : s.cfgStatus = .cfgOk) (h : exec i (takeRequest r rest s) = .next t) :
    ∃ operands go, acceptParts s.geom i = some (operands, go) ∧
      t = go (acceptedAs (operands (latchOf r.words)) (takeRequest r rest s)) := by
  obtain ⟨operands, go, hparts⟩ := acceptParts_isSome s.geom i hi
  rw [exec_accept_ready i (takeRequest r rest s) operands go hparts hp hc] at h
  exact ⟨operands, go, hparts, (Host.Outcome.next.inj h).symm⟩

theorem accept_inv {s t : State} {r : Request} {rest : List Request} {i : Instr} (hi : Inv s) (hp : s.phase = .idle)
    (hc : s.cfgStatus = .cfgOk) (hq : s.requests = r :: rest) (hd : decodeRequest r.words = .ok i)
    (h : exec i (takeRequest r rest s) = .next t) : Inv t := by
  obtain ⟨operands, go, hparts, rfl⟩ := exec_takeRequest (decodeRequest_command hd) hp hc h
  obtain ⟨row, -, hrow, hg⟩ := geomLookup_some _ _ _ hi.params (hi.geometry hc)
  exact (owing_accepted hi hp hc hq _).inv (acceptParts_routeOnly hparts _) (acceptParts_delivers hparts _)
    (acceptParts_route (takeRequest r rest s) hrow hg hparts)

theorem refuse_inv {s : State} {r : Request} {rest : List Request} (hi : Inv s) (hp : s.phase = .idle)
    (hc : s.cfgStatus = .cfgOk) (hq : s.requests = r :: rest) : Inv (refuseRequest (takeRequest r rest s)) :=
  (owing_accepted hi hp hc hq (latchOf r.words)).inv (deliver_phaseOnly _ _).1 (deliver_delivers _ _) trivial

theorem step_inv {s t : State} (hi : Inv s) (h : step s = .next t) : Inv t := by
  cases hr : s.resetIn with
  | some straps =>
    rw [step_reset s straps hr] at h
    obtain rfl := Host.Outcome.next.inj h
    exact boot_inv straps s.freeCtr hi.params hi.requests hi.payload hi.oracle
  | none =>
    rcases step_cases hr h with ⟨-, -, rfl⟩ | ⟨hp, hc, r, rest, hq, ⟨i, hd, hx⟩ | ⟨e, -, rfl⟩⟩ | ⟨hp, -⟩
    · exact hi
    · exact accept_inv hi hp hc hq hd hx
    · exact refuse_inv hi hp hc hq
    · exact step_flight_inv hi hr hp h

/-! ### The moves of the world outside keep the invariant (R10, R42, R220) -/

/-- The inputs of the block can be anything canonical: the invariant says nothing else about them. -/
theorem inv_setInputs {s : State} (hi : Inv s) {rs : List Request} {m : Memory} {o : Oracle} (reset : Option Straps)
    (hr : ∀ r ∈ rs, r.payload.wf = true) (hm : m.wf = true) (ho : o.wf = true) :
    Inv { s with requests := rs, payload := m, oracle := o, resetIn := reset } :=
  ⟨hi.params, hi.status, hi.geometry, hi.closed, hm, hr, ho, hi.route, hi.answered, hi.lastResponse⟩

theorem reachable_inv {s : State} (h : Reachable s) : Inv s := by
  induction h with
  | boot p straps n rs m o hp hr hm ho => exact boot_inv straps n hp hr hm ho
  | step _ h ih => exact step_inv ih h
  | @present s r _ hr ih =>
    refine inv_setInputs ih s.resetIn (fun x hx => ?_) ih.payload ih.oracle
    rcases List.mem_append.1 hx with hx | hx
    · exact ih.requests x hx
    · rwa [List.mem_singleton.1 hx]
  | @changeBuffer s m _ hm ih => exact inv_setInputs ih s.resetIn ih.requests hm ih.oracle
  | assertReset straps o _ ho ih => exact inv_setInputs ih (some straps) ih.requests ih.payload ho

end Sys2Proof.Machine
end

section
open Sys2Proof Sys2Proof.Machine

/-- Settles O44: a step completes by `inv_runs`, and `step_inv` goes through its cases. -/
theorem stepKeepsTheInvariant : Obligations.StepKeepsTheInvariant := by
  intro s hi
  obtain ⟨t, h⟩ := inv_runs hi
  exact ⟨t, h, step_inv hi h⟩

/-- Settles O45, by induction on how the state was reached. -/
theorem everyReachableStateRuns : Obligations.EveryReachableStateRuns :=
  fun _ h => ⟨reachable_inv h, inv_runs (reachable_inv h)⟩

end

section
/-! PROOFS. The family 10_state.md, noninterference: what an earlier operation left behind is never read (R16, R62, R201). -/

namespace Sys2Proof.Machine

/-- The two states differ in what an earlier operation left behind and in nothing else: the first half of `Alike`. -/
def SameButLeftovers (s t : State) : Prop := t = { s with latch := t.latch, seq := t.seq, resp := t.resp }

section
variable {s t : State} (h : SameButLeftovers s t)
include h

theorem SameButLeftovers.params : t.params = s.params := by rw [h]
theorem SameButLeftovers.cfgStatus : t.cfgStatus = s.cfgStatus := by rw [h]
theorem SameButLeftovers.geom : t.geom = s.geom := by rw [h]
theorem SameButLeftovers.phase : t.phase = s.phase := by rw [h]
theorem SameButLeftovers.requests : t.requests = s.requests := by rw [h]
theorem SameButLeftovers.oracle : t.oracle = s.oracle := by rw [h]
theorem SameButLeftovers.resetIn : t.resetIn = s.resetIn := by rw [h]
theorem SameButLeftovers.freeCtr : t.freeCtr = s.freeCtr := by rw [h]

theorem SameButLeftovers.countAccept : SameButLeftovers s.countAccept t.countAccept := by
  unfold SameButLeftovers
  conv_lhs => rw [h]
  rfl

theorem SameButLeftovers.acceptedAs (l : Latch) : SameButLeftovers (acceptedAs l s) (acceptedAs l t) := by
  unfold SameButLeftovers
  conv_lhs => rw [h]
  rfl

theorem SameButLeftovers.takeRequest (r : Request) (rest : List Request) :
    SameButLeftovers (takeRequest r rest s) (takeRequest r rest t) := by
  unfold SameButLeftovers
  conv_lhs => rw [h]
  rfl

theorem alike_raise (code : RespCode) : Alike (raise code s) (raise code t) := by
  simp only [raise, plainResponse, h.freeCtr]
  exact alike_deliver _ h

theorem alike_applyReset (straps : Straps) : Alike (applyReset straps s) (applyReset straps t) := by
  have heq : applyReset straps t = applyReset straps s := by rw [h]; rfl
  rw [heq]
  exact ⟨rfl, fun _ => ⟨rfl, rfl⟩⟩

/-- An operation starts: the sequencing registers it reads are the same, whatever the others hold. -/
theorem alike_start (hl : t.latch = s.latch) (ph : Phase) (q q' : Seq)
    (hq : usedSeq s.latch.op q' = usedSeq s.latch.op q) :
    Alike ((s.setSeq q).setPhase ph) ((t.setSeq q').setPhase ph) := by
  refine ⟨?_, fun _ => ⟨hl, hq⟩⟩
  conv_lhs => rw [h]
  rfl

theorem alike_requireRange (b : Bool) {go : State → State} (hgo : Alike (go s) (go t)) :
    Alike (requireRange b go s) (requireRange b go t) := by
  cases b with
  | false => exact alike_raise h .invalidRange
  | true => exact hgo

theorem alike_requireBuffer (b : Bool) {go : State → State} (hgo : Alike (go s) (go t)) :
    Alike (requireBuffer b go s) (requireBuffer b go t) := by
  cases b with
  | false => exact alike_raise h .nullBuffer
  | true => exact hgo

/-- The ACCEPT step of an operation reads nothing of the sequencing registers, and sets every one the operation reads later (R15, R19). -/
theorem alike_acceptParts {g : Geom} {i : Instr} {operands : Latch → Latch} {go : State → State}
    (hparts : acceptParts g i = some (operands, go)) {l : Latch} (hs : s.latch = operands l) (ht : t.latch = operands l) :
    Alike (go s) (go t) := by
  have hlatch : t.latch = s.latch := ht.trans hs.symm
  have start (ph : Phase) (q q' : Seq) (hq : usedSeq (operands l).op q' = usedSeq (operands l).op q) :
      Alike ((s.setSeq q).setPhase ph) ((t.setSeq q').setPhase ph) :=
    alike_start h hlatch ph q q' (by rwa [hs])
  cases i <;> simp only [acceptParts, Option.some.injEq, Prod.mk.injEq, reduceCtorEq] at hparts <;>
    obtain ⟨rfl, rfl⟩ := hparts
  case eraseChip => exact start _ _ _ rfl
  case eraseBlock =>
    refine alike_requireRange h _ ?_
    rw [h.geom]
    exact start _ _ _ rfl
  case eraseSector =>
    refine alike_requireRange h _ ?_
    rw [h.geom]
    exact start _ _ _ rfl
  case write =>
    refine alike_requireBuffer h _ (alike_requireRange h _ ?_)
    exact start _ _ _ rfl
  case read => exact alike_requireRange h _ (start _ s.seq t.seq rfl)
  case readFast => exact alike_requireRange h _ (start _ s.seq t.seq rfl)
  all_goals exact start _ s.seq t.seq rfl

theorem alike_accept {i : Instr} (hi : i.command = none) (hp : s.phase = .idle) (hc : s.cfgStatus = .cfgOk)
    (hl : t.latch = s.latch) : AlikeOutcome (exec i s) (exec i t) := by
  obtain ⟨operands, go, hparts⟩ := acceptParts_isSome s.geom i hi
  rw [exec_accept_ready i s operands go hparts hp hc,
    exec_accept_ready i t operands go (by rwa [h.geom]) (h.phase.trans hp) (h.cfgStatus.trans hc), hl]
  exact alike_acceptParts (h.acceptedAs _) hparts rfl rfl

/-- In IDLE the request latch is written before it is read (R14, R19). -/
theorem alike_step_idle (hr : s.resetIn = none) (hp : s.phase = .idle) : AlikeOutcome (step s) (step t) := by
  have hr' := h.resetIn.trans hr
  have hp' := h.phase.trans hp
  by_cases hw : s.requests = [] ∨ s.cfgStatus ≠ .cfgOk
  · rw [step_waits s hr hp hw, step_waits t hr' hp' (by rwa [h.requests, h.cfgStatus])]
    exact ⟨h, fun hne => absurd hp hne⟩
  · obtain ⟨hq, hc⟩ := not_or.1 hw
    have hc := not_not.1 hc
    obtain ⟨r, rest, hq⟩ := List.exists_cons_of_ne_nil hq
    have hc' := h.cfgStatus.trans hc
    have hq' := h.requests.trans hq
    cases hd : decodeRequest r.words with
    | ok i =>
      rw [step_runs s r rest i hr hp hc hq hd, step_runs t r rest i hr' hp' hc' hq' hd]
      exact alike_accept (h.takeRequest r rest) (decodeRequest_command hd) hp hc rfl
    | error e =>
      rw [step_refuses s r rest e hr hp hc hq hd, step_refuses t r rest e hr' hp' hc' hq' hd]
      exact alike_raise (h.takeRequest r rest).countAccept .illegalRequest

end

/-- A step of an operation in flight that selects no command stops (log entry 13). -/
theorem step_faults (s : State) (f : Fault) (hr : s.resetIn = none) (hp : s.phase ≠ .idle)
    (h : selectCommand s = .error f) : step s = .fault f := by
  simp [step, hr, hp, stepBusy, h]

theorem Near.sameButLeftovers {s t : State} (h : Near s t) : SameButLeftovers s t := h.rest

/-- A command transmits the same frame in near states, and gets the same answer. -/
theorem Near.exec_command {s t : State} (h : Near s t) {i : Instr} (hi : i.command ≠ none) :
    AlikeOutcome (exec i s) (exec i t) := by
  have hrest := h.sameButLeftovers
  obtain ⟨k, tx, f, hparts⟩ := commandParts_isSome s.params i hi
  rw [Machine.exec_command i s k tx f hparts, Machine.exec_command i t k tx f (by rwa [hrest.params])]
  rcases ha : s.oracle.answer s.params s.freeCtr tx with ⟨reply, o⟩
  have ha' : t.oracle.answer t.params t.freeCtr tx = (reply, o) := by
    rw [hrest.oracle, hrest.params, hrest.freeCtr, ha]
  cases reply with
  | ok rx =>
    rw [command_ok k tx rx f s o ha, command_ok k tx rx f t o ha']
    exact Near.commandParts hparts rx (h.recordCall o _)
  | err e =>
    rw [command_err k tx e f s o ha, command_err k tx e f t o ha']
    exact alike_deliver _ (h.recordCall o _).rest

theorem Near.step_busy {s t : State} (h : Near s t) (hr : s.resetIn = none) (hp : s.phase ≠ .idle) :
    AlikeOutcome (step s) (step t) := by
  have hr' := h.sameButLeftovers.resetIn.trans hr
  have hp' : t.phase ≠ .idle := by rwa [h.phase]
  cases hsel : Machine.selectCommand s with
  | ok i =>
    rw [Machine.step_busy s i hr hp hsel, Machine.step_busy t i hr' hp' (h.selectCommand.trans hsel)]
    exact h.exec_command (selectCommand_command hsel)
  | error f =>
    rw [step_faults s f hr hp hsel, step_faults t f hr' hp' (h.selectCommand.trans hsel)]
    rfl

end Sys2Proof.Machine
end

section
open Sys2Proof Sys2Proof.Machine

/-- Settles O46, by the cases of a step: a reset and an accept write what they read, and in flight the operation reads only what is the same. -/
theorem earlierOperationsLeaveNoTrace : Obligations.EarlierOperationsLeaveNoTrace := by
  rintro s t ⟨hrest, hflight⟩
  have hsame : SameButLeftovers s t := hrest
  cases hr : s.resetIn with
  | some straps =>
    rw [step_reset s straps hr, step_reset t straps (hsame.resetIn.trans hr)]
    exact alike_applyReset hsame straps
  | none =>
    by_cases hp : s.phase = .idle
    · exact alike_step_idle hsame hr hp
    · obtain ⟨hl, hu⟩ := hflight hp
      exact Near.step_busy ⟨hrest, hl, hu⟩ hr hp

end

section
/-! PROOFS. The family 10_state.md, ACCEPT: what a step in IDLE does with a request, and what it leaves unchanged (R19, R105 to
R111, R150 to R182). -/

namespace Sys2Proof.Machine

/-! ### A checked operation -/

theorem exec_inRange {i : Instr} {s : State} {operands : Latch → Latch} {inRange : Bool} {go : State → State}
    (hparts : acceptParts s.geom i = some (operands, requireRange inRange go)) (hp : s.phase = .idle)
    (hc : s.cfgStatus = .cfgOk) (hin : inRange = true) :
    exec i s = .next (go (acceptedAs (operands s.latch) s)) := by
  rw [exec_accept_ready i s _ _ hparts hp hc, hin, requireRange_true]

theorem exec_outOfRange {i : Instr} {s : State} {operands : Latch → Latch} {inRange : Bool} {go : State → State}
    (hparts : acceptParts s.geom i = some (operands, requireRange inRange go)) (hp : s.phase = .idle)
    (hc : s.cfgStatus = .cfgOk) (hin : ¬ inRange = true) :
    ∃ t, exec i s = .next t ∧ Responded 1#3 [] (acceptedAs (operands s.latch) s) t := by
  rw [exec_accept_ready i s _ _ hparts hp hc, Bool.eq_false_iff.2 hin, requireRange_false]
  exact ⟨_, rfl, raise_responded .invalidRange _⟩

/-- A checked erase runs to its first unit. -/
theorem exec_erase_starts {i : Instr} {s : State} {l : Latch} {first count : Word} {size : Nat}
    {row : GeomRow} (hrow : row.wf = true) (hg : s.geom = Geom.ofRow row)
    (h : exec i s = .next (((acceptedAs l s).setSeq (eraseStart size first count s.seq)).setPhase .prePoll))
    (hin : (eraseBlockInRange s.geom first count = true ∧ size = s.geom.blockSize) ∨
      (eraseSectorInRange s.geom first count = true ∧ size = s.geom.sectorSize)) :
    ∃ t, exec i s = .next t ∧
      t = { acceptedAs l s with
        phase := .prePoll, seq := { s.seq with curAddr := t.seq.curAddr, stride := t.seq.stride, nLeft := count } } ∧
      t.seq.curAddr.toNat = first.toNat * size ∧ t.seq.stride.toNat = size := by
  obtain ⟨haddr, hstride⟩ := eraseStart_fields hrow hg first count size s.seq hin
  exact ⟨_, h, rfl, haddr, hstride⟩

/-! ### What an accept leaves unchanged -/

/-- A checked operation writes its sequencing registers, or answers and leaves them. -/
theorem requireRange_seq (b : Bool) (go : State → State) (s : State) :
    (requireRange b go s).seq = s.seq ∨ (requireRange b go s).seq = (go s).seq := by
  cases b
  · exact Or.inl rfl
  · exact Or.inr rfl

theorem requireBuffer_seq (b : Bool) (go : State → State) (s : State) :
    (requireBuffer b go s).seq = s.seq ∨ (requireBuffer b go s).seq = (go s).seq := by
  cases b
  · exact Or.inl rfl
  · exact Or.inr rfl

/-! ### A reserved request -/

/-- R74: a reserved operation code or a reserved bit is an error of the decoder. -/
theorem decodeRequest_reserved (r : ReqWords)
    (h : 11 ≤ r.op.toNat ∨ r.reservedLow ≠ 0#4 ∨ r.reservedHigh ≠ 0#23) : ∃ e, decodeRequest r = .error e := by
  unfold decodeRequest
  split
  · next hbits =>
    obtain ⟨hlow, hhigh⟩ := hbits
    have hop : 11 ≤ r.op.toNat := by simpa [hlow, hhigh] using h
    unfold operationOf
    split
    case h_12 => exact ⟨_, rfl⟩
    all_goals omega
  · exact ⟨_, rfl⟩

end Sys2Proof.Machine
end

section
open Sys2Proof Sys2Proof.Machine

/-- Settles O4: the request does not decode, and the refusal answers it. -/
theorem reservedRequestIsRefused : Obligations.ReservedRequestIsRefused := by
  intro s r rest hr hp hc hq hres
  obtain ⟨e, hd⟩ := decodeRequest_reserved r.words hres
  have hconfig : SameConfig s (refuseRequest (takeRequest r rest s)) :=
    sameConfig_trans (takeRequest_sameConfig r rest s) (refuseRequest_sameConfig _)
  refine ⟨_, step_refuses s r rest e hr hp hc hq hd, rfl, rfl, rfl, ?_, ?_, rfl, rfl, rfl, ?_, hconfig⟩ <;>
    rw [refuseRequest_eq] <;> simp

/-- Settles O17, by whether the range of R107 holds. -/
theorem readsAreRangeChecked : Obligations.ReadsAreRangeChecked := by
  intro s address length hp hc
  have hrange := readInRange_iff s.geom address length
  refine ⟨fun h => ⟨?_, ?_⟩, fun h => ⟨?_, ?_⟩⟩
  · exact exec_inRange (i := .read address length) rfl hp hc (hrange.2 h)
  · exact exec_inRange (i := .readFast address length) rfl hp hc (hrange.2 h)
  · exact exec_outOfRange (i := .read address length) rfl hp hc (mt hrange.1 h)
  · exact exec_outOfRange (i := .readFast address length) rfl hp hc (mt hrange.1 h)

/-- Settles O18, by whether the range of R109 holds; the first address fits its register (R112). -/
theorem eraseBlockIsRangeChecked : Obligations.EraseBlockIsRangeChecked := by
  rintro s _ block count hp hc hwf hlook rfl
  obtain ⟨row, -, hrow, hg⟩ := geomLookup_some _ _ _ hwf hlook
  have hrange := eraseBlockInRange_iff s.geom block count
  refine ⟨fun h => ?_, fun h => exec_outOfRange (i := .eraseBlock block count) rfl hp hc (mt hrange.1 h)⟩
  have hin := hrange.2 h
  exact exec_erase_starts hrow hg (exec_inRange (i := .eraseBlock block count) rfl hp hc hin) (Or.inl ⟨hin, rfl⟩)

/-- Settles O19, by whether the range of R110 holds; the first address fits its register (R112). -/
theorem eraseSectorIsRangeChecked : Obligations.EraseSectorIsRangeChecked := by
  rintro s _ sector count hp hc hwf hlook rfl
  obtain ⟨row, -, hrow, hg⟩ := geomLookup_some _ _ _ hwf hlook
  have hrange := eraseSectorInRange_iff s.geom sector count
  refine ⟨fun h => ?_, fun h => exec_outOfRange (i := .eraseSector sector count) rfl hp hc (mt hrange.1 h)⟩
  have hin := hrange.2 h
  exact exec_erase_starts hrow hg (exec_inRange (i := .eraseSector sector count) rfl hp hc hin) (Or.inr ⟨hin, rfl⟩)

/-- Settles O15: each has its parts in `acceptParts`, and no check. -/
theorem uncheckedOperationsGoToTransfer : Obligations.UncheckedOperationsGoToTransfer := by
  intro s hp hc
  exact ⟨exec_accept_ready .identify s _ _ rfl hp hc, exec_accept_ready .suspend s _ _ rfl hp hc,
    exec_accept_ready .resume s _ _ rfl hp hc, exec_accept_ready .writeEnable s _ _ rfl hp hc,
    exec_accept_ready .isWriteInProgress s _ _ rfl hp hc⟩

/-- Settles O16: `eraseChip` has its parts in `acceptParts`, and no check. -/
theorem eraseChipStartsPolling : Obligations.EraseChipStartsPolling :=
  fun s hp hc => exec_accept_ready .eraseChip s _ _ rfl hp hc

/-- Settles O21: every host operation is an accept, and that tests `REQ_READY` first. -/
theorem requestsWhileNotReadyAreIgnored : Obligations.RequestsWhileNotReadyAreIgnored := by
  intro s i hi hbusy
  obtain ⟨operands, go, hparts⟩ := acceptParts_isSome s.geom i hi
  rw [exec_accept i s operands go hparts, accept_notReady operands go s hbusy]

/-- Settles O22, by the cases of a step: waiting changes nothing, and a command records a call and moves on its route. -/
theorem noRequestIsTakenWhileNotReady : Obligations.NoRequestIsTakenWhileNotReady := by
  intro s t hr hbusy h
  rcases step_cases hr h with ⟨-, -, rfl⟩ | ⟨hp, hc, -⟩ | ⟨-, i, hsel, hx⟩
  · exact ⟨rfl, rfl, rfl, rfl⟩
  · exact absurd hc (hbusy.resolve_left (not_not.2 hp))
  · obtain ⟨o, ev, hroute⟩ := exec_command_routeOnly (selectCommand_command hsel) hx
    rw [hroute]
    exact ⟨rfl, rfl, rfl, rfl⟩

/-- Settles O23: an accept that is not ignored latches its operands, and then writes only its route and the operation's own sequencing registers. -/
theorem acceptFrame : Obligations.AcceptFrame := by
  intro i s t hi h
  obtain ⟨operands, go, hparts⟩ := acceptParts_isSome s.geom i hi
  rw [exec_accept i s operands go hparts] at h
  rcases accept_cases h with ⟨rfl, -⟩ | ⟨ht, -, -⟩
  · exact ⟨rfl, rfl, sameConfig_refl t, rfl, rfl, fun _ => rfl, fun _ => rfl, Or.inl ⟨rfl, rfl⟩, fun _ => ⟨rfl, rfl⟩,
      fun _ => ⟨rfl, rfl⟩, fun _ => ⟨rfl, rfl⟩, fun _ => ⟨rfl, rfl⟩, fun _ => rfl⟩
  have hroute : RouteOnly (acceptedAs (operands s.latch) s) t := ht ▸ acceptParts_routeOnly hparts _
  have hlatch : t.latch = operands s.latch := by rw [hroute]; rfl
  have horacle : t.oracle = s.oracle := by rw [hroute]; rfl
  have hpayload : t.payload = s.payload := by rw [hroute]; rfl
  have hseq : t.seq = (go (acceptedAs (operands s.latch) s)).seq := by rw [ht]
  have hresp := ht ▸ acceptParts_delivers hparts (acceptedAs (operands s.latch) s)
  refine ⟨by rw [hroute]; rfl, horacle, sameConfig_trans (acceptedAs_sameConfig _ s) (sameConfig_of_routeOnly hroute),
    by rw [hroute]; rfl, by rw [hroute]; rfl, fun a => by rw [hpayload], fun a => by rw [horacle], ?_, ?_, ?_, ?_, ?_, ?_⟩
  · exact hresp.imp (fun ⟨h1, h2, _⟩ => ⟨h1, h2⟩) (fun ⟨_, h2⟩ => h2)
  · rintro (rfl | rfl | rfl | rfl | rfl) <;> cases hparts <;> exact ⟨by rw [hlatch], hseq⟩
  · rintro ⟨a, n, rfl | rfl⟩ <;> cases hparts <;>
      exact ⟨by rw [hlatch], hseq.trans ((requireRange_seq _ _ _).elim id id)⟩
  · rintro rfl
    cases hparts
    exact ⟨by rw [hlatch], by rw [hseq]; rfl⟩
  · rintro ⟨a, n, rfl | rfl⟩ <;> cases hparts <;> refine ⟨by rw [hlatch], ?_⟩ <;> rw [hseq] <;>
      rcases requireRange_seq _ _ _ with hq | hq <;> rw [hq] <;> rfl
  · rintro ⟨a, n, off, bp, bl, rfl⟩
    cases hparts
    rw [hseq]
    rcases requireBuffer_seq _ _ _ with hq | hq <;> rw [hq]
    · rfl
    · rcases requireRange_seq _ _ _ with hq | hq <;> rw [hq] <;> rfl

/-- Settles O34: the words of the request go to the latch as `latchOf` says (R14, R71). -/
theorem stepRunsTheDecodedRequest : Obligations.StepRunsTheDecodedRequest :=
  fun s r rest i hr hp hc hq hd => step_runs s r rest i hr hp hc hq hd

/-- Settles O35. -/
theorem idleBlockWaits : Obligations.IdleBlockWaits := fun s hr hp h => step_waits s hr hp h

end

section
/-! PROOFS. The family 10_state.md, the commands: what each phase makes of a transport call (R19, R126 to R139), and what a command leaves
unchanged. -/

namespace Sys2Proof.Machine

/-! ### The frame of a command -/

/-- The frame a command transmits is the one its format gives (R77, R125 to R136). -/
theorem encode_commandParts {p : Params} {i : Instr} {k : CallKind} {tx : List Byte} {f : List Byte → State → State}
    (h : commandParts p i = some (k, tx, f)) : encode p i = .frame tx := by
  cases i <;> simp only [commandParts, Option.some.injEq, Prod.mk.injEq, reduceCtorEq] at h <;>
    obtain ⟨rfl, rfl, rfl⟩ := h
  case spiRead a len => simp [encode, frameRead, frame4_eq, fillBytes, Params.opcode]
  case spiFastRead a len => 
    simp [encode, frameFastRead, frame4_eq, fillBytes, Params.opcode, List.replicate_add]
  case spiPp a data => simp [encode, framePp, frame4_eq, Params.opcode]
  case spiSe a => simp [encode, frameSe, frame4_eq, Params.opcode]
  case spiBe a => simp [encode, frameBe, frame4_eq, Params.opcode]
  all_goals rfl

/-- The frame in the statement of a command is the one `exec` transmits. -/
theorem frame_eq_of_encode {p : Params} {i : Instr} {k : CallKind} {tx tx' : List Byte} {f : List Byte → State → State}
    (h : commandParts p i = some (k, tx', f)) (henc : encode p i = .frame tx) : tx' = tx :=
  Code.frame.inj ((encode_commandParts h).symm.trans henc)

/-! ### The continuations, phase by phase (R19) -/

section
variable {s : State}

theorem afterWren_erase (hp : s.phase = .wren) (hop : s.latch.op = 1#4 ∨ s.latch.op = 2#4 ∨ s.latch.op = 3#4) :
    afterWren s = s.setPhase .issue := by
  simp [afterWren, hp, (routeClass_e _).2 hop]

theorem afterWren_write (hp : s.phase = .wren) (hop : s.latch.op = 4#4) : afterWren s = s.setPhase .prePoll := by
  simp [afterWren, hp, (routeClass_w _).2 hop]

theorem afterWren_xfer (hp : s.phase = .xfer) : afterWren s = respondOk [] s := by simp [afterWren, hp]

theorem afterMutating_issue (hp : s.phase = .issue) : afterMutating s = s.setPhase .postPoll := by simp [afterMutating, hp]

theorem afterTransfer_xfer (data : List Byte) (hp : s.phase = .xfer) : afterTransfer data s = respondOk data s := by
  simp [afterTransfer, hp]

theorem afterStatus_busy {status : Byte} (hp : s.phase = .prePoll ∨ s.phase = .postPoll) (hb : busy status = true) :
    afterStatus status s = s := by
  rcases hp with hp | hp <;> simp [afterStatus, hp, hb]

theorem afterStatus_prePoll_erase {status : Byte} (hp : s.phase = .prePoll) (hb : busy status = false)
    (hop : s.latch.op = 1#4 ∨ s.latch.op = 2#4 ∨ s.latch.op = 3#4) : afterStatus status s = s.setPhase .wren := by
  simp [afterStatus, hp, hb, (routeClass_e _).2 hop]

theorem afterStatus_prePoll_write {status : Byte} (hp : s.phase = .prePoll) (hb : busy status = false)
    (hop : s.latch.op = 4#4) : afterStatus status s = s.setPhase .issue := by
  simp [afterStatus, hp, hb, (routeClass_w _).2 hop]

theorem afterStatus_postPoll {status : Byte} (hp : s.phase = .postPoll) (hb : busy status = false) :
    afterStatus status s = advance s := by
  simp [afterStatus, hp, hb]

theorem afterStatus_xfer (status : Byte) (hp : s.phase = .xfer) : afterStatus status s = respondOk [busyByte status] s := by
  simp [afterStatus, hp]

/-- No command is issued in IDLE, and its continuation does nothing there (log entry 12). -/
theorem commandParts_idle {p : Params} {i : Instr} {k : CallKind} {tx : List Byte} {f : List Byte → State → State}
    (h : commandParts p i = some (k, tx, f)) (rx : List Byte) (hp : s.phase = .idle) : f rx s = s := by
  cases i <;> simp only [commandParts, Option.some.injEq, Prod.mk.injEq, reduceCtorEq] at h <;>
    obtain ⟨rfl, rfl, rfl⟩ := h <;> simp [afterWren, afterStatus, afterTransfer, afterMutating, hp]

/-- Only a status read in POST_POLL moves the sequencing registers (R19). -/
theorem commandParts_seq {p : Params} {i : Instr} {k : CallKind} {tx : List Byte} {f : List Byte → State → State}
    (h : commandParts p i = some (k, tx, f)) (rx : List Byte) (hi : i.command ≠ some .rdsr ∨ s.phase ≠ .postPoll) :
    (f rx s).seq = s.seq := by
  cases i <;> simp only [commandParts, Option.some.injEq, Prod.mk.injEq, reduceCtorEq] at h <;>
    obtain ⟨rfl, rfl, rfl⟩ := h
  case spiRdsr => exact afterStatus_seq _ _ (hi.resolve_left (not_not.2 rfl))
  case spiWren => exact (afterWren_phaseOnly s).2
  case spiPp => exact (afterMutating_phaseOnly s).2
  case spiSe => exact (afterMutating_phaseOnly s).2
  case spiBe => exact (afterMutating_phaseOnly s).2
  case spiCe => exact (afterMutating_phaseOnly s).2
  all_goals exact (afterTransfer_phaseOnly _ s).2

end

/-- The answer of `isWriteInProgress` is bit 0 of the status, widened (R151). -/
theorem busyByte_eq (status : Byte) : busyByte status = if status.getLsbD 0 then 0x01#8 else 0x00#8 := by
  revert status
  decide

/-! ### What a command leaves unchanged -/

/-- A command outside its phase may be in IDLE already; a response delivered leaves it there (R24). -/
theorem exec_command_responses {i : Instr} {s t : State} (hi : i.command ≠ none) (h : exec i s = .next t) :
    (t.responses = s.responses ∧ t.resp = s.resp) ∨ (t.phase = .idle ∧ t.responses = s.responses ++ [t.resp]) := by
  by_cases hp : s.phase = .idle
  · obtain ⟨k, tx, f, hparts⟩ := commandParts_isSome s.params i hi
    rw [exec_command i s k tx f hparts] at h
    rcases command_cases h with ⟨rx, o, -, rfl⟩ | ⟨e, o, -, rfl⟩
    · rw [commandParts_idle hparts rx (s := s.recordCall o _) hp]
      exact Or.inl ⟨rfl, rfl⟩
    · exact Or.inr ⟨rfl, rfl⟩
  · exact (exec_command_delivers hi hp h).imp_left (fun ⟨hresps, hresp, _⟩ => ⟨hresps, hresp⟩)

theorem exec_command_seq {i : Instr} {s t : State} (hi : i.command ≠ none) (h : exec i s = .next t)
    (hseq : i.command ≠ some .rdsr ∨ s.phase ≠ .postPoll) : t.seq = s.seq := by
  obtain ⟨k, tx, f, hparts⟩ := commandParts_isSome s.params i hi
  rw [exec_command i s k tx f hparts] at h
  rcases command_cases h with ⟨rx, o, -, rfl⟩ | ⟨e, o, -, rfl⟩
  · exact commandParts_seq hparts rx (s := s.recordCall o _) hseq
  · rfl

/-! ### A status read -/

/-- The two bytes of a status read that succeeds: the second one decides (R127, R137). -/
theorem exec_spiRdsr_answered {s : State} {r0 r1 : Byte} {o : Oracle}
    (ha : s.oracle.answer s.params s.freeCtr [s.params.opcRdsr, s.params.fill] = (.ok [r0, r1], o)) :
    exec .spiRdsr s =
      .next (afterStatus r1 (s.recordCall o (.exchange [s.params.opcRdsr, s.params.fill] [r0, r1]))) :=
  command_ok .xchg [s.params.opcRdsr, s.params.fill] [r0, r1] (fun rx t => afterStatus (statusOf rx) t) s o ha

/-! ### The next unit of a mutating operation (R161 to R163, R170) -/

/-- With the registers moved on to `q`, the operation is in ISSUE or has responded. -/
theorem continueOrRespond_setSeq (more : Bool) (c : State) (q : Seq) :
    (continueOrRespond more (c.setSeq q)).seq = q ∧
    (more = true → continueOrRespond more (c.setSeq q) = { c with phase := .issue, seq := q }) ∧
    (more = false → Responded 0#3 [] { c with seq := q } (continueOrRespond more (c.setSeq q))) := by
  cases more with
  | true => exact ⟨rfl, fun _ => rfl, fun h => absurd h (by decide)⟩
  | false => exact ⟨rfl, fun h => absurd h (by decide), fun _ => respondOk_responded [] (c.setSeq q)⟩

/-- One command of an `eraseChip` is all there is. -/
theorem eraseProgress_chip {s : State} (h : EraseProgress s) (hop : s.latch.op = 1#4) : zext s.seq.nLeft = 1 := by
  rcases h with ⟨-, h⟩ | ⟨⟨hop', -⟩ | ⟨hop', -⟩, -⟩
  · exact h
  · rw [hop] at hop'
    exact absurd hop' (by decide)
  · rw [hop] at hop'
    exact absurd hop' (by decide)

theorem advance_erase {c : State} (hop : c.latch.op = 1#4 ∨ c.latch.op = 2#4 ∨ c.latch.op = 3#4) :
    advance c = continueOrRespond (decide (0 < zext (eraseAdvance c.latch.op c.seq).nLeft))
      (c.setSeq (eraseAdvance c.latch.op c.seq)) := by
  simp only [advance, (routeClass_e _).2 hop]

theorem advance_write {c : State} (hop : c.latch.op = 4#4) :
    advance c = continueOrRespond (decide (0 < zext (writeAdvance (chunkLength c) c.seq).bytesLeft))
      (c.setSeq (writeAdvance (chunkLength c) c.seq)) := by
  simp only [advance, (routeClass_w _).2 hop]

/-- `eraseChip` counts its one command off and responds (R161). -/
theorem advance_chip {c : State} (hop : c.latch.op = 1#4) (hn : zext c.seq.nLeft = 1) :
    Responded 0#3 [] { c with seq := { c.seq with nLeft := 0#32 } } (advance c) := by
  have hq : eraseAdvance c.latch.op c.seq = { c.seq with nLeft := 0#32 } := by
    rw [hop, eraseAdvance, if_pos (by decide), hn]
  rw [advance_erase (Or.inl hop), hq]
  obtain ⟨-, -, hlast⟩ := continueOrRespond_setSeq (decide (0 < zext 0#32)) c { c.seq with nLeft := 0#32 }
  exact hlast (by decide)

/-- `eraseBlock` and `eraseSector` step their address and count one command off (R162, R163). -/
theorem advance_unit {c : State} (hop : c.latch.op = 2#4 ∨ c.latch.op = 3#4)
    (hsum : zext c.seq.curAddr + zext c.seq.stride < 2 ^ 32) :
    zext (advance c).seq.curAddr = zext c.seq.curAddr + zext c.seq.stride ∧
    zext (advance c).seq.nLeft = zext c.seq.nLeft - 1 ∧
    (1 < zext c.seq.nLeft → advance c = { c with phase := .issue, seq := { c.seq with
      curAddr := (advance c).seq.curAddr, nLeft := (advance c).seq.nLeft } }) ∧
    (zext c.seq.nLeft = 1 → Responded 0#3 [] { c with seq := { c.seq with
      curAddr := (advance c).seq.curAddr, nLeft := (advance c).seq.nLeft } } (advance c)) := by
  have hcur := zext_ofNat _ hsum
  have hn := zext_ofNat (zext c.seq.nLeft - 1) (Nat.lt_of_le_of_lt (Nat.sub_le _ _) (zext_lt c.seq.nLeft))
  have hq : eraseAdvance c.latch.op c.seq = { c.seq with
      curAddr := BitVec.ofNat 32 (zext c.seq.curAddr + zext c.seq.stride)
      nLeft := BitVec.ofNat 32 (zext c.seq.nLeft - 1) } := by
    rcases hop with hop | hop <;> rw [hop, eraseAdvance, if_neg (by decide)]
  have hadv := continueOrRespond_setSeq (decide (0 < zext (eraseAdvance c.latch.op c.seq).nLeft)) c
    (eraseAdvance c.latch.op c.seq)
  rw [← advance_erase (Or.inr hop), hq] at hadv
  obtain ⟨hseq, hmore, hlast⟩ := hadv
  rw [hseq]
  exact ⟨hcur, hn, fun h => hmore (decide_eq_true (by rw [hn]; omega)),
    fun h => hlast (decide_eq_false (by rw [hn]; omega))⟩

/-- `write` moves its address and its buffer index on by the chunk sent (R170). -/
theorem advance_chunk {c : State} (hop : c.latch.op = 4#4) {n : Nat} (hch : chunkLength c = n)
    (hcur : zext c.seq.curAddr + n < 2 ^ 32) (hidx : zext c.seq.bufIdx + n < 2 ^ 32) :
    zext (advance c).seq.curAddr = zext c.seq.curAddr + n ∧
    zext (advance c).seq.bufIdx = zext c.seq.bufIdx + n ∧
    zext (advance c).seq.bytesLeft = zext c.seq.bytesLeft - n ∧
    (n < zext c.seq.bytesLeft → advance c = { c with phase := .issue, seq := { c.seq with
      curAddr := (advance c).seq.curAddr, bufIdx := (advance c).seq.bufIdx, bytesLeft := (advance c).seq.bytesLeft } }) ∧
    (zext c.seq.bytesLeft = n → Responded 0#3 [] { c with seq := { c.seq with
      curAddr := (advance c).seq.curAddr, bufIdx := (advance c).seq.bufIdx,
      bytesLeft := (advance c).seq.bytesLeft } } (advance c)) := by
  have hleft := zext_ofNat (zext c.seq.bytesLeft - n) (Nat.lt_of_le_of_lt (Nat.sub_le _ _) (zext_lt c.seq.bytesLeft))
  have hadv := continueOrRespond_setSeq (decide (0 < zext (writeAdvance (chunkLength c) c.seq).bytesLeft)) c
    (writeAdvance (chunkLength c) c.seq)
  rw [← advance_write hop, hch, writeAdvance] at hadv
  obtain ⟨hseq, hmore, hlast⟩ := hadv
  rw [hseq]
  exact ⟨zext_ofNat _ hcur, zext_ofNat _ hidx, hleft, fun h => hmore (decide_eq_true (by rw [hleft]; omega)),
    fun h => hlast (decide_eq_false (by rw [hleft]; omega))⟩

/-- Under the invariant the latched class tells which progress POST_POLL is in. -/
theorem inv_eraseProgress {s : State} (hi : Inv s) (hp : s.phase = .postPoll)
    (hop : s.latch.op = 1#4 ∨ s.latch.op = 2#4 ∨ s.latch.op = 3#4) : EraseProgress s := by
  have hroute := hi.route
  simp only [OnRoute, hp] at hroute
  refine hroute.resolve_right (fun hw => ?_)
  rw [writeProgress_op hw] at hop
  exact absurd hop (by decide)

theorem inv_writeProgress {s : State} (hi : Inv s) (hp : s.phase = .postPoll) (hop : s.latch.op = 4#4) :
    WriteProgress s := by
  have hroute := hi.route
  simp only [OnRoute, hp] at hroute
  refine hroute.resolve_left (fun he => ?_)
  have hop' := eraseProgress_op he
  rw [hop] at hop'
  exact absurd hop' (by decide)

end Sys2Proof.Machine
end

section
open Sys2Proof Sys2Proof.Machine

/-- Settles O25: in ISSUE the continuation of the four commands is the poll. -/
theorem mutatingCommandsSendAndPoll : Obligations.MutatingCommandsSendAndPoll := by
  intro s i tx rx o hmut henc hp ha
  have hparts : commandParts s.params i = some (.send, tx, fun _ t => afterMutating t) := by
    have hframe : ∃ tx', commandParts s.params i = some (.send, tx', fun _ t => afterMutating t) := by
      rcases hmut with rfl | ⟨a, rfl⟩ | ⟨a, rfl⟩ | ⟨a, d, rfl⟩ <;> exact ⟨_, rfl⟩
    obtain ⟨tx', hparts⟩ := hframe
    rwa [frame_eq_of_encode hparts henc] at hparts
  rw [exec_command i s _ _ _ hparts, command_ok _ _ _ _ s o ha]
  exact congrArg _ (afterMutating_issue hp)

/-- Settles O26, phase by phase. -/
theorem wrenSendsAndGoesOn : Obligations.WrenSendsAndGoesOn := by
  intro s rx o ha
  have hexec : exec .spiWren s = .next (afterWren (s.recordCall o (.sendOnly [s.params.opcWren]))) :=
    command_ok .send [s.params.opcWren] rx (fun _ t => afterWren t) s o ha
  rw [hexec]
  refine ⟨fun hp hop => ?_, fun hp hop => ?_, fun hp => ⟨_, rfl, ?_⟩⟩
  · exact congrArg _ (afterWren_erase (s := s.recordCall o _) hp hop)
  · exact congrArg _ (afterWren_write (s := s.recordCall o _) hp hop)
  · rw [afterWren_xfer (s := s.recordCall o _) hp]
    exact respondOk_responded [] _

/-- Settles O29, phase by phase: `busy` is bit 0, and so is the byte answered. -/
theorem statusReadDecidesOnBitZero : Obligations.StatusReadDecidesOnBitZero := by
  intro s r0 r1 o ha c
  rw [exec_spiRdsr_answered ha]
  have hanswer (hp : s.phase = .xfer) : Responded 0#3 [busyByte r1] c (afterStatus r1 c) := by
    rw [afterStatus_xfer (s := c) r1 hp]
    exact respondOk_responded _ c
  refine ⟨fun hp hb => ?_, fun hp hb hop => ?_, fun hp hb hop => ?_, fun hp hb => ⟨_, rfl, ?_⟩, fun hp hb => ⟨_, rfl, ?_⟩⟩
  · exact congrArg _ (afterStatus_busy (s := c) (Or.inl hp) hb)
  · exact congrArg _ (afterStatus_prePoll_erase (s := c) hp hb hop)
  · exact congrArg _ (afterStatus_prePoll_write (s := c) hp hb hop)
  · have hbyte : busyByte r1 = 0x01#8 := by rw [busyByte_eq, hb]; rfl
    exact hbyte ▸ hanswer hp
  · have hbyte : busyByte r1 = 0x00#8 := by rw [busyByte_eq, hb]; rfl
    exact hbyte ▸ hanswer hp

/-- Settles O30: the new registers are read back without loss by the bounds of R15, and whether something is left decides the phase. -/
theorem statusReadAdvancesTheOperation : Obligations.StatusReadAdvancesTheOperation := by
  intro s r0 r1 o hi hp ha c n
  obtain ⟨row, hrow, hg⟩ := inv_geom hi (by rw [hp]; decide)
  have hdone (hb : r1.getLsbD 0 = false) : exec .spiRdsr s = .next (advance c) := by
    rw [exec_spiRdsr_answered ha]
    exact congrArg _ (afterStatus_postPoll (s := c) hp hb)
  refine ⟨fun hb => ?_, fun hb hop => ?_, fun hb hop => ?_, fun hb hop => ?_⟩
  · rw [exec_spiRdsr_answered ha]
    exact congrArg _ (afterStatus_busy (s := c) (Or.inr hp) hb)
  · have hn := eraseProgress_chip (inv_eraseProgress hi hp (Or.inl hop)) hop
    exact ⟨_, hdone hb, advance_chip (c := c) hop hn⟩
  · have hne : s.latch.op ≠ 1#4 := by rcases hop with hop | hop <;> rw [hop] <;> decide
    obtain ⟨hsum, -⟩ := erase_bounds hrow hg (inv_eraseProgress hi hp (Or.inr hop)) hne
    exact ⟨_, hdone hb, advance_unit (c := c) hop hsum⟩
  · obtain ⟨hcur, hidx, -, hpage⟩ := write_bounds hrow hg (inv_writeProgress hi hp hop)
    have hch : chunkLength c = n := by rw [chunkLength, State.recordCall_geom, hpage]; rfl
    have hn : n ≤ zext s.seq.bytesLeft := Nat.min_le_left _ _
    have hlen := zext_lt s.latch.bufLen
    exact ⟨_, hdone hb, advance_chunk (c := c) hop hch (show zext s.seq.curAddr + n < 2 ^ 32 by omega)
      (show zext s.seq.bufIdx + n < 2 ^ 32 by omega)⟩

/-- Settles O32: a command records its call and moves on its route. -/
theorem commandFrame : Obligations.CommandFrame := by
  intro i s t hi h
  obtain ⟨o, ev, hroute⟩ := exec_command_routeOnly hi h
  refine ⟨exec_command_sameConfig hi h, by rw [hroute]; rfl, by rw [hroute]; rfl, by rw [hroute]; rfl, by rw [hroute]; rfl,
    by rw [hroute]; rfl, ⟨ev, by rw [hroute]; rfl⟩, exec_command_responses hi h, exec_command_seq hi h⟩

end

section
/-! PROOFS. The family 10_state.md, steps: the command each phase selects, the route, the one response, and a class Q operation from its request
to its response (R18, R19, R20, R24, R150 to R153, R180 to R182). -/

namespace Sys2Proof.Machine

/-! ### The command a phase selects (R19) -/

section
variable {s : State}

theorem selectCommand_poll (hp : s.phase = .prePoll ∨ s.phase = .postPoll) (h1 : 1 ≤ s.latch.op.toNat)
    (h4 : s.latch.op.toNat ≤ 4) : selectCommand s = .ok .spiRdsr := by
  have hclass := (mutatingClass_iff s).2 ⟨h1, h4⟩
  rcases hp with hp | hp <;> simp [selectCommand, hp, hclass]

theorem selectCommand_wren (hp : s.phase = .wren) (h1 : 1 ≤ s.latch.op.toNat) (h4 : s.latch.op.toNat ≤ 4) :
    selectCommand s = .ok .spiWren := by
  simp [selectCommand, hp, (mutatingClass_iff s).2 ⟨h1, h4⟩]

theorem selectCommand_issue (hp : s.phase = .issue) : selectCommand s = mutatingCommand s := by simp [selectCommand, hp]

theorem selectCommand_xfer (hp : s.phase = .xfer) : selectCommand s = transferCommand s := by simp [selectCommand, hp]

end

/-! ### The phases (R18 to R20) -/

/-- A check that did not end the operation passed. -/
theorem requireRange_of_phase {b : Bool} {go : State → State} {s : State} (h : (requireRange b go s).phase ≠ .idle) :
    requireRange b go s = go s := by
  cases b
  · exact absurd rfl h
  · rfl

theorem requireBuffer_of_phase {b : Bool} {go : State → State} {s : State} (h : (requireBuffer b go s).phase ≠ .idle) :
    requireBuffer b go s = go s := by
  cases b
  · exact absurd rfl h
  · rfl

/-- The first phase of an accepted operation is that of its class (R19). -/
theorem acceptParts_phase {g : Geom} {i : Instr} {operands : Latch → Latch} {go : State → State}
    (hparts : acceptParts g i = some (operands, go)) (l : Latch) (u : State) (h : (go u).phase ≠ .idle) :
    ((go u).phase = .xfer ∧ routeClass (operands l).op = some .q) ∨
    ((go u).phase = .prePoll ∧ routeClass (operands l).op = some .e) ∨
    ((go u).phase = .wren ∧ routeClass (operands l).op = some .w) := by
  cases i <;> simp only [acceptParts, Option.some.injEq, Prod.mk.injEq, reduceCtorEq] at hparts <;>
    obtain ⟨rfl, rfl⟩ := hparts
  case eraseChip => exact Or.inr (Or.inl ⟨rfl, rfl⟩)
  case eraseBlock => exact Or.inr (Or.inl ⟨by rw [requireRange_of_phase h]; rfl, rfl⟩)
  case eraseSector => exact Or.inr (Or.inl ⟨by rw [requireRange_of_phase h]; rfl, rfl⟩)
  case write =>
    have hbuf := requireBuffer_of_phase h
    rw [hbuf] at h ⊢
    exact Or.inr (Or.inr ⟨by rw [requireRange_of_phase h]; rfl, rfl⟩)
  case read => exact Or.inl ⟨by rw [requireRange_of_phase h]; rfl, rfl⟩
  case readFast => exact Or.inl ⟨by rw [requireRange_of_phase h]; rfl, rfl⟩
  all_goals exact Or.inl ⟨rfl, rfl⟩

theorem continueOrRespond_phase (more : Bool) (s : State) :
    (continueOrRespond more s).phase = .issue ∨
    ((continueOrRespond more s).phase = .idle ∧ (continueOrRespond more s).resp.code = 0#3) := by
  cases more
  · exact Or.inr ⟨rfl, rfl⟩
  · exact Or.inl rfl

theorem advance_phase {s : State} (h : 1 ≤ s.latch.op.toNat ∧ s.latch.op.toNat ≤ 4) :
    (advance s).phase = .issue ∨ ((advance s).phase = .idle ∧ (advance s).resp.code = 0#3) := by
  rcases mutating_cases _ h.1 h.2 with ⟨hclass, -⟩ | ⟨hclass, -⟩
  · rw [advance_erase ((routeClass_e _).1 hclass)]
    exact continueOrRespond_phase _ _
  · rw [advance_write ((routeClass_w _).1 hclass)]
    exact continueOrRespond_phase _ _

/-! ### The one response (R24) -/

/-- A taken request is answered at once, or is on its way with nothing said yet. -/
theorem accept_delivers {s t : State} {r : Request} {rest : List Request} {i : Instr} (hi : i.command = none)
    (hp : s.phase = .idle) (hc : s.cfgStatus = .cfgOk) (h : exec i (takeRequest r rest s) = .next t) :
    Delivers s t ∧ t.accepted = s.accepted + 1 := by
  obtain ⟨operands, go, hparts, rfl⟩ := exec_takeRequest hi hp hc h
  refine ⟨acceptParts_delivers hparts _, ?_⟩
  rw [acceptParts_routeOnly hparts]
  rfl

/-! ### A class Q operation (R150 to R153, R180 to R182) -/

theorem received_eq_drop {rx : List Byte} {m n : Nat} (h : rx.length = m + n) : received rx m n = rx.drop m :=
  List.take_of_length_le (by simp [h])

/-- The call of XFER, answered by a script: the operation responds with the bytes its rule takes from the exchange. -/
theorem step_xfer {u : State} {c : Instr} {k : CallKind} {tx rx data : List Byte} {f : List Byte → State → State}
    {more : List Reply} (hr : u.resetIn = none) (hp : u.phase = .xfer) (hsel : transferCommand u = .ok c)
    (hparts : commandParts u.params c = some (k, tx, f)) (ho : u.oracle = .script (.ok rx :: more))
    (hlen : rx.length = tx.length) (hf : ∀ v : State, v.phase = .xfer → f rx v = respondOk data v) :
    step u = .next (respondOk data (u.recordCall (.script more) (Event.ofCall k tx (.ok rx)))) := by
  have ha : u.oracle.answer u.params u.freeCtr tx = (.ok rx, .script more) := by
    rw [ho, Oracle.answer, Reply.fit_ok _ _ _ hlen]
  rw [step_answered hr (by rw [hp]; decide) ((selectCommand_xfer hp).trans hsel) hparts ha]
  exact congrArg _ (hf (u.recordCall _ _) hp)

/-- An operation that is accepted to XFER and answered by a script: what its two steps leave, where `data` is what the command's
continuation `f` takes from the exchange. -/
theorem run_transfer {s : State} {r : Request} {rest : List Request} {i c : Instr} {l : Latch} {k : CallKind}
    {tx tx' rx data : List Byte} {f : List Byte → State → State} {more : List Reply} (hr : s.resetIn = none)
    (hp : s.phase = .idle) (hc : s.cfgStatus = .cfgOk) (hq : s.requests = r :: rest) (hd : decodeRequest r.words = .ok i)
    (hstart : exec i (takeRequest r rest s) = .next ((acceptedAs l (takeRequest r rest s)).setPhase .xfer))
    (hsel : transferCommand ((acceptedAs l (takeRequest r rest s)).setPhase .xfer) = .ok c)
    (hparts : commandParts s.params c = some (k, tx', f)) (henc : encode s.params c = .frame tx)
    (ho : s.oracle = .script (.ok rx :: more)) (hlen : rx.length = tx.length)
    (hf : ∀ v : State, v.phase = .xfer → f rx v = respondOk data v) :
    ∃ t, run 2 s = .next t ∧ t.phase = .idle ∧ t.resp.code = 0#3 ∧ t.requests = rest ∧ t.oracle = .script more ∧
      t.responses = s.responses ++ [t.resp] ∧ t.seq = s.seq ∧ t.resp.data = data ∧
      t.trace = s.trace ++ [Event.ofCall k tx (.ok rx)] := by
  obtain rfl := frame_eq_of_encode hparts henc
  have haccept := (step_runs s r rest i hr hp hc hq hd).trans hstart
  have hcall := step_xfer (u := (acceptedAs l (takeRequest r rest s)).setPhase .xfer) (by simpa [acceptedAs] using hr) rfl
    hsel (by simpa [acceptedAs] using hparts) (by simpa [acceptedAs] using ho) hlen hf
  refine ⟨_, (run_succ 1 haccept).trans (run_one hcall), rfl, rfl, ?_, ?_, ?_, ?_, rfl, ?_⟩ <;>
    simp [respondOk, acceptedAs]

end Sys2Proof.Machine
end

section
open Sys2Proof Sys2Proof.Machine

/-- Settles O36, phase by phase. -/
theorem stepRunsTheSelectedCommand : Obligations.StepRunsTheSelectedCommand := by
  intro s hr
  have run {i : Instr} {ph : Phase} (hp : s.phase = ph) (hne : ph ≠ .idle) (hsel : selectCommand s = .ok i) :
      step s = exec i s := step_busy s i hr (hp ▸ hne) hsel
  refine ⟨fun hp h1 h4 => ?_, fun hp h1 h4 => ?_, fun hp => ?_, fun hp => ?_⟩
  · have hsel := selectCommand_poll hp h1 h4
    rcases hp with hp | hp <;> exact run hp (by decide) hsel
  · exact run hp (by decide) (selectCommand_wren hp h1 h4)
  · have issue {i : Instr} (hsel : mutatingCommand s = .ok i) : step s = exec i s :=
      run hp (by decide) ((selectCommand_issue hp).trans hsel)
    refine ⟨fun h => issue ?_, fun h => issue ?_, fun h => issue ?_, fun h hfit => issue ?_⟩
    · simp [mutatingCommand, h]
    · simp [mutatingCommand, h]
    · simp [mutatingCommand, h]
    · have hfit' : zext s.seq.bufIdx + chunkLength s ≤ zext s.latch.bufLen := hfit
      simp only [mutatingCommand, h, BitVec.toNat_ofNat, if_pos hfit']
      rfl
  · have xfer {i : Instr} (hsel : transferCommand s = .ok i) : step s = exec i s :=
      run hp (by decide) ((selectCommand_xfer hp).trans hsel)
    refine ⟨fun h => xfer ?_, fun h => xfer ?_, fun h => xfer ?_, fun h => xfer ?_, fun h => xfer ?_, fun h => xfer ?_,
      fun h => xfer ?_⟩ <;> simp [transferCommand, h, sext]

/-- Settles O39: the accept goes to the first phase of the class, and `FlightStep` lists what a step in flight does. -/
theorem phasesFollowTheRoute : Obligations.PhasesFollowTheRoute := by
  intro s t hi hr h
  refine ⟨fun hp hpt => ?_, fun hp => ?_⟩
  · rcases step_cases hr h with ⟨-, -, rfl⟩ | ⟨-, hc, r, rest, -, ⟨i, hd, hx⟩ | ⟨e, -, rfl⟩⟩ | ⟨hne, -⟩
    · exact absurd hp hpt
    · obtain ⟨operands, go, hparts, rfl⟩ := exec_takeRequest (decodeRequest_command hd) hp hc hx
      have hphase := acceptParts_phase hparts (latchOf r.words) _ hpt
      rwa [acceptParts_routeOnly hparts (acceptedAs _ _)]
    · exact absurd rfl hpt
    · exact absurd hp hne
  · obtain ⟨o, ev, hf⟩ := flight_cases hi hr hp h
    have hroute := hi.route
    refine ⟨by rw [hf.routeOnly]; rfl, ?_⟩
    cases hf with
    | failed e => exact Or.inl ⟨rfl, rfl⟩
    | preBusy hph => simp [hph]
    | preDone hph => simp [hph]
    | wren hph => simp [hph]
    | issue hph => simp [hph]
    | postBusy hph => simp [hph]
    | postDone hph =>
      simp only [OnRoute, hph] at hroute
      rcases advance_phase (s := s.recordCall o ev) (progress_class hroute) with hnext | ⟨hidle, hcode⟩
      · simp [hph, hnext]
      · simp [hph, hidle, hcode]
    | transfer hph data => simp [hph, respondOk, plainResponse, RespCode.code]

/-- Settles O41: an accept and a command deliver at most one response, and then the machine is in IDLE. -/
theorem oneResponsePerOperation : Obligations.OneResponsePerOperation := by
  intro s t hi hr h
  rcases step_cases hr h with ⟨-, -, rfl⟩ | ⟨hp, hc, r, rest, -, ⟨i, hd, hx⟩ | ⟨e, -, rfl⟩⟩ | ⟨hp, i, hsel, hx⟩
  · exact Or.inl ⟨rfl, rfl, fun _ => rfl⟩
  · obtain ⟨hdel, hacc⟩ := accept_delivers (decodeRequest_command hd) hp hc hx
    rcases hdel with ⟨hresps, hresp, hne⟩ | ⟨hidle, hresps⟩
    · exact Or.inl ⟨hresps, hresp, fun hidle => absurd hidle hne⟩
    · exact Or.inr ⟨hidle, hresps, fun _ => hacc, fun hne => absurd hp hne⟩
  · exact Or.inr ⟨rfl, rfl, fun _ => rfl, fun hne => absurd hp hne⟩
  · have hcmd := selectCommand_command hsel
    obtain ⟨o, ev, hroute⟩ := exec_command_routeOnly hcmd hx
    rcases exec_command_delivers hcmd hp hx with ⟨hresps, hresp, hne⟩ | ⟨hidle, hresps⟩
    · exact Or.inl ⟨hresps, hresp, fun hidle => absurd hidle hne⟩
    · exact Or.inr ⟨hidle, hresps, fun hidle => absurd hidle hp, fun _ => by rw [hroute]; rfl⟩

/-- Settles O49, operation by operation: its accept, its command, and the bytes the response takes from the exchange. -/
theorem transferOperationsTakeTwoSteps : Obligations.TransferOperationsTakeTwoSteps := by
  intro s r rest i c tx rx more hi hr hp hc hq hd hop henc ho hlen
  have two {l : Latch} {k : CallKind} {tx' data : List Byte} {f : List Byte → State → State}
      (hstart : exec i (takeRequest r rest s) = .next ((acceptedAs l (takeRequest r rest s)).setPhase .xfer))
      (hsel : transferCommand ((acceptedAs l (takeRequest r rest s)).setPhase .xfer) = .ok c)
      (hparts : commandParts s.params c = some (k, tx', f))
      (hf : ∀ v : State, v.phase = .xfer → f rx v = respondOk data v) :=
    run_transfer hr hp hc hq hd hstart hsel hparts henc ho hlen hf
  have accepted {j : Instr} {operands : Latch → Latch} {go : State → State}
      (hparts : acceptParts s.geom j = some (operands, go)) :=
    exec_accept_ready j (takeRequest r rest s) operands go hparts hp hc
  have length {k : CallKind} {tx' : List Byte} {f : List Byte → State → State}
      (hparts : commandParts s.params c = some (k, tx', f)) : rx.length = tx'.length := by
    rw [hlen, frame_eq_of_encode hparts henc]
  have count {a n : Word} (hin : readInRange s.geom a n = true) : (sext n).toNat = n.toNat := by
    obtain ⟨-, hpos, -⟩ := (readInRange_iff _ _ _).1 hin
    rw [sext_of_nonneg n (by omega)]
    rfl
  rcases hop with ⟨rfl, rfl⟩ | ⟨rfl, rfl⟩ | ⟨rfl, rfl⟩ | ⟨rfl, rfl⟩ | ⟨rfl, rfl⟩ |
    ⟨a, n, rfl, rfl, hin⟩ | ⟨a, n, rfl, rfl, hin⟩
  · have hstart := accepted (j := .identify) rfl
    have hrun := two hstart rfl rfl (fun v hv => afterTransfer_xfer _ hv)
    rw [received_eq_drop (m := 1) (n := 3) (length rfl)] at hrun
    simpa [Instr.command, Event.ofCall] using hrun
  · have hstart := accepted (j := .isWriteInProgress) rfl
    have hrun := two hstart rfl rfl (fun v hv => afterStatus_xfer _ hv)
    simpa [Instr.command, Event.ofCall, busyByte_eq, statusOf] using hrun
  · have hstart := accepted (j := .suspend) rfl
    have hrun := two hstart rfl rfl (fun v hv => afterTransfer_xfer _ hv)
    simpa [Instr.command, Event.ofCall] using hrun
  · have hstart := accepted (j := .resume) rfl
    have hrun := two hstart rfl rfl (fun v hv => afterTransfer_xfer _ hv)
    simpa [Instr.command, Event.ofCall] using hrun
  · have hstart := accepted (j := .writeEnable) rfl
    have hrun := two hstart rfl rfl (fun v hv => afterWren_xfer hv)
    simpa [Instr.command, Event.ofCall] using hrun
  · have hstart := exec_inRange (i := .read a n) (s := takeRequest r rest s) rfl hp hc hin
    have hrun := two hstart (congrArg (fun m => Except.ok (Instr.spiRead a m)) (count hin)) rfl
      (fun v hv => afterTransfer_xfer _ hv)
    rw [received_eq_drop (by rw [length rfl]; simp [frameRead])] at hrun
    simpa [Instr.command, Event.ofCall] using hrun
  · have hstart := exec_inRange (i := .readFast a n) (s := takeRequest r rest s) rfl hp hc hin
    have hrun := two hstart (congrArg (fun m => Except.ok (Instr.spiFastRead a m)) (count hin)) rfl
      (fun v hv => afterTransfer_xfer _ hv)
    rw [received_eq_drop (by rw [length rfl]; simp [frameFastRead]; omega)] at hrun
    simpa [Instr.command, Event.ofCall] using hrun

end

section
/-! PROOFS. The family 20_memory.md, the commands: the one transport call a command makes, and what the block takes from its answer (R43, R56, R57, R81,
R83, R121). -/

namespace Sys2Proof.Machine

/-! ### The one call of a command -/

/-- Every command is one call of its own frame by its own primitive, and after it only the route moves (R19, R83). -/
theorem exec_command_call {i : Instr} {s t : State} (hi : i.command ≠ none) (h : exec i s = .next t) :
    ∃ k tx f reply o, commandParts s.params i = some (k, tx, f) ∧
      s.oracle.answer s.params s.freeCtr tx = (reply, o) ∧
      RouteOnly (s.recordCall o (Event.ofCall k tx reply)) t := by
  obtain ⟨k, tx, f, hparts⟩ := commandParts_isSome s.params i hi
  rw [exec_command i s k tx f hparts] at h
  rcases command_cases h with ⟨rx, o, ha, rfl⟩ | ⟨e, o, ha, rfl⟩
  · exact ⟨k, tx, f, .ok rx, o, hparts, ha, commandParts_routeOnly hparts rx _⟩
  · exact ⟨k, tx, f, .err e, o, hparts, ha, (deliver_phaseOnly _ _).1⟩

/-- The primitive of each command: an exchange for the four that return bytes, a `Send` for the others (R83). -/
theorem commandParts_kind {p : Params} {i : Instr} {k : CallKind} {tx : List Byte} {f : List Byte → State → State}
    (h : commandParts p i = some (k, tx, f)) :
    (k = .xchg ∧ (i.command = some .rdsr ∨ i.command = some .read ∨ i.command = some .fastRead ∨
        i.command = some .rdid)) ∨
      (k = .send ∧ (i.command = some .wren ∨ i.command = some .pp ∨ i.command = some .se ∨ i.command = some .be ∨
        i.command = some .ce ∨ i.command = some .dp ∨ i.command = some .res)) := by
  cases i <;> simp only [commandParts, Option.some.injEq, Prod.mk.injEq, reduceCtorEq] at h <;>
    obtain ⟨rfl, -, -⟩ := h <;> simp [Instr.command]

theorem ofCall_xchg {tx : List Byte} {reply : Reply} (hlen : ∀ rx, reply = .ok rx → rx.length = tx.length) :
    (∃ rx, rx.length = tx.length ∧ Event.ofCall .xchg tx reply = .exchange tx rx) ∨
      ∃ e, Event.ofCall .xchg tx reply = .exchangeErr tx e := by
  cases reply with
  | ok rx => exact Or.inl ⟨rx, hlen rx rfl, rfl⟩
  | err e => exact Or.inr ⟨e, rfl⟩

theorem ofCall_send (tx : List Byte) (reply : Reply) :
    Event.ofCall .send tx reply = .sendOnly tx ∨ ∃ e, Event.ofCall .send tx reply = .sendOnlyErr tx e := by
  cases reply with
  | ok rx => exact Or.inl rfl
  | err e => exact Or.inr ⟨e, rfl⟩

/-- A step in IDLE makes no transport call (R19). -/
theorem step_idle_trace {s t : State} (hr : s.resetIn = none) (hp : s.phase = .idle) (h : step s = .next t) :
    t.trace = s.trace := by
  rcases step_cases hr h with ⟨-, -, rfl⟩ | ⟨-, hc, r, rest, -, ⟨i, hd, hx⟩ | ⟨e, -, rfl⟩⟩ | ⟨hne, -⟩
  · rfl
  · obtain ⟨operands, go, hparts, rfl⟩ := exec_takeRequest (decodeRequest_command hd) hp hc hx
    rw [acceptParts_routeOnly hparts]
    rfl
  · rfl
  · exact absurd hp hne

/-! ### The bytes of an exchange -/

/-- A command that reads data, answered in XFER: the response is what was received behind the first `m` bytes (R43, R81). -/
theorem exec_transfer_answered {s : State} {i : Instr} {tx tx' rx : List Byte} {o : Oracle} {m n : Nat}
    (hp : s.phase = .xfer) (ha : s.oracle.answer s.params s.freeCtr tx = (.ok rx, o))
    (henc : encode s.params i = .frame tx)
    (hparts : commandParts s.params i = some (.xchg, tx', fun rx t => afterTransfer (received rx m n) t))
    (hlen : tx'.length = m + n) :
    ∃ t, exec i s = .next t ∧ Responded 0#3 (rx.drop m) (s.recordCall o (.exchange tx rx)) t ∧
      t.resp.data.length = n := by
  obtain rfl := frame_eq_of_encode hparts henc
  have hrx : rx.length = m + n := (oracle_answer_length ha).trans hlen
  rw [exec_command i s _ _ _ hparts, command_ok _ _ rx _ s o ha, received_eq_drop hrx]
  refine ⟨_, congrArg _ (afterTransfer_xfer (s := s.recordCall o _) _ hp), respondOk_responded _ _, ?_⟩
  show (rx.drop m).length = n
  rw [List.length_drop, hrx, Nat.add_sub_cancel_left]

/-- A status read receives two bytes (R121, R127). -/
theorem frameRdsr_reply {p : Params} {call : Nat} {rx : List Byte} {o o' : Oracle}
    (h : o.answer p call (frameRdsr p) = (.ok rx, o')) : ∃ r0 r1, rx = [r0, r1] :=
  List.length_eq_two.1 (oracle_answer_length h)

end Sys2Proof.Machine
end

section
open Sys2Proof Sys2Proof.Machine

/-- Settles O28: the three frames have 4, 6 and 1 bytes before the data. -/
theorem readCommandsRespondWithReceivedBytes : Obligations.ReadCommandsRespondWithReceivedBytes := by
  intro s tx rx o hp ha
  refine ⟨fun a len henc => ?_, fun a len henc => ?_, fun henc => ?_⟩
  · exact exec_transfer_answered hp ha henc rfl (by simp [frameRead])
  · exact exec_transfer_answered hp ha henc rfl (by simp [frameFastRead]; omega)
  · exact exec_transfer_answered hp ha henc rfl rfl

/-- Settles O38: in IDLE nothing is sent, and in flight the command selected is well-formed. -/
theorem onlyTheElevenCommandsAreSent : Obligations.OnlyTheElevenCommandsAreSent := by
  intro s t hi hr h
  by_cases hp : s.phase = .idle
  · exact Or.inl (step_idle_trace hr hp h)
  right
  obtain ⟨i, hsel, hwf, hcmd⟩ := select_inv hi hp
  rw [step_busy s i hr hp hsel] at h
  obtain ⟨k, tx, f, reply, o, hparts, ha, hroute⟩ := exec_command_call hcmd h
  refine ⟨i, tx, Event.ofCall k tx reply, hwf, encode_commandParts hparts, by rw [hroute]; rfl, ?_⟩
  rcases commandParts_kind hparts with ⟨rfl, hxchg⟩ | ⟨rfl, hsend⟩
  · refine Or.inl ⟨hxchg, ofCall_xchg ?_⟩
    rintro rx rfl
    exact oracle_answer_length ha
  · exact Or.inr ⟨hsend, ofCall_send tx reply⟩

/-- Settles O42: by the route only POST_POLL and XFER lead to IDLE with `OK`, XFER is of class Q, and POST_POLL stays when bit 0 is 1. -/
theorem okMeansTheChipWasSeenNotBusy : Obligations.OkMeansTheChipWasSeenNotBusy := by
  intro s t hi hr hp h1 h4 h hidle hok
  have hpost : s.phase = .postPoll := by
    obtain ⟨o, ev, hf⟩ := flight_cases hi hr hp h
    cases hf with
    | failed e => exact absurd (show 3#3 = 0#3 from hok) (by decide)
    | preBusy _ => exact absurd hidle hp
    | preDone _ => rw [State.setPhase_phase] at hidle; split at hidle <;> cases hidle
    | wren _ => rw [State.setPhase_phase] at hidle; split at hidle <;> cases hidle
    | issue _ => cases hidle
    | postBusy hph => exact hph
    | postDone hph => exact hph
    | transfer hph data =>
      have hroute := hi.route
      simp only [OnRoute, hph] at hroute
      rcases mutating_cases _ h1 h4 with ⟨hclass, -⟩ | ⟨hclass, -⟩ <;>
        exact absurd (hclass.symm.trans hroute.1) (by decide)
  refine ⟨hpost, ?_⟩
  rw [step_busy s .spiRdsr hr hp (selectCommand_poll (Or.inr hpost) h1 h4)] at h
  rcases command_cases h with ⟨rx, o, ha, rfl⟩ | ⟨e, o, -, rfl⟩
  · obtain ⟨r0, r1, rfl⟩ := frameRdsr_reply ha
    refine ⟨r0, r1, ?_, by rw [afterStatus_routeOnly]; rfl⟩
    cases hb : r1.getLsbD 0 with
    | false => rfl
    | true =>
      have hstay := afterStatus_busy (s := s.recordCall o (.exchange (frameRdsr s.params) [r0, r1])) (Or.inr hpost) hb
      exact absurd ((congrArg State.phase hstay).symm.trans hidle) hp
  · exact absurd (show 3#3 = 0#3 from hok) (by decide)

end

section
/-! PROOFS. The family 20_memory.md, the reference chip: what it answers to a frame and does, and where a page-program's bytes land (R64 to R66,
R84, R121). -/

namespace Sys2Proof.Machine

/-! ### The places of a page-program (R66) -/

theorem programAddress_modEq {g : Geom} {a i j : Nat} (h : Chip.programAddress g a i = Chip.programAddress g a j) :
    i ≡ j [MOD g.pageSize] := by
  simp only [Chip.programAddress] at h
  have hmod : (a + i) % g.pageSize = (a + j) % g.pageSize := Nat.add_left_cancel h
  exact Nat.ModEq.add_left_cancel' a hmod

/-- Less than a page further on, a page-program is at another place. -/
theorem programAddress_ne {g : Geom} (a i k : Nat) (hk : k + 1 < g.pageSize) :
    Chip.programAddress g a i ≠ Chip.programAddress g a (i + 1 + k) := by
  intro h
  have hdvd : g.pageSize ∣ k + 1 := by
    have h' := (Nat.modEq_iff_dvd' (by omega)).1 (programAddress_modEq h)
    rwa [show i + 1 + k - i = k + 1 by omega] at h'
  exact absurd (Nat.le_of_dvd (Nat.succ_pos k) hdvd) (Nat.not_le.2 hk)

/-- Each of the last `pageSize` bytes of a page-program stands at its place: no later byte lands over it. -/
theorem read_programBytes_placed (g : Geom) (a : Nat) (bs : List Byte) : ∀ (j : Nat) (m : Memory), m.wf = true →
    ∀ i, i < bs.length → bs.length ≤ i + g.pageSize →
    (Chip.programBytes g a j bs m).read (Chip.programAddress g a (j + i)) = bs.getD i 0#8 := by
  induction bs with
  | nil => intro j m h i hi; exact absurd hi (Nat.not_lt_zero i)
  | cons b bs ih =>
    intro j m h i hi hlast
    rw [List.length_cons] at hi hlast
    have hw := Memory.write_wf m (Chip.programAddress g a j) b h
    rw [Chip.programBytes]
    cases i with
    | zero =>
      have hlater : ∀ k, k < bs.length → Chip.programAddress g a j ≠ Chip.programAddress g a (j + 1 + k) :=
        fun k hk => programAddress_ne a j k (by omega)
      show (Chip.programBytes g a (j + 1) bs _).read (Chip.programAddress g a j) = b
      rw [read_programBytes g a bs (j + 1) _ hw _ hlater, Memory.read_write _ _ _ _ h, if_pos rfl]
    | succ i =>
      rw [show j + (i + 1) = j + 1 + i by omega, List.getD_cons_succ]
      exact ih (j + 1) _ hw i (by omega) (by omega)

theorem complete_mem {c : Chip} {e : ChipEffect} (h : c.pending = some e) :
    c.complete.mem = Chip.apply c.geom c.mem e := by
  simp only [Chip.complete, h]

/-! ### What a chip hears (R65) -/

section
variable (p : Params) (call : Nat) (c : Chip) (body : List Byte)

/-- A frame whose first byte is no opcode has no effect (R84). -/
theorem Chip.answer_unknown {b : Byte} (h : ∀ cmd, p.opcode cmd ≠ b) : (c.answer p call (b :: body)).2 = c := by
  have hnone : commandOf p b = none := by
    cases hc : commandOf p b with
    | none => rfl
    | some cmd => exact absurd (opcode_of_commandOf p b cmd hc) (h cmd)
  simp [Chip.answer, Chip.hears, hnone]

variable (hp : p.wf = true)
include hp

/-- A chip in deep power-down ignores every command but the release (R65). -/
theorem Chip.answer_asleep (hd : c.dpd = true) {cmd : Command} (hne : cmd ≠ .res) :
    (c.answer p call (p.opcode cmd :: body)).2 = c := by
  simp [Chip.answer, Chip.hears, commandOf_opcode p hp cmd, hd, hne]

/-- The release is heard awake or not (R65). -/
theorem Chip.answer_release : (c.answer p call (p.opcode .res :: body)).2 = { c with dpd := false } := by
  simp [Chip.answer, Chip.hears, commandOf_opcode p hp, Chip.perform]

variable (hd : c.dpd = false)
include hd

/-- What an awake chip does is what its rule gives for the command named by the first byte (R65). -/
theorem Chip.answer_awake (cmd : Command) :
    (c.answer p call (p.opcode cmd :: body)).2 = (c.perform call (p.opcode cmd :: body) cmd).2 := by
  rw [Chip.answer_opcode p hp call c hd cmd body]

/-! ### What an awake chip answers (R65) -/

/-- The bytes R65 gives, where the frame is long enough to receive them all. -/
theorem Chip.answer_given {cmd : Command} {rx : List Byte} {c' : Chip}
    (hperform : c.perform call (p.opcode cmd :: body) cmd = (rx, c')) (hlen : rx.length = body.length + 1) :
    c.answer p call (p.opcode cmd :: body) = (rx, c') := by
  rw [Chip.answer_opcode p hp call c hd cmd body, hperform, ← hlen, fitBytes_eq]

/-- A byte R65 gives, where the frame reaches it. -/
theorem Chip.answer_byte {cmd : Command} {rx : List Byte} {c' : Chip} {i : Nat} {b : Byte}
    (hperform : c.perform call (p.opcode cmd :: body) cmd = (rx, c')) (hi : i < rx.length)
    (hb : (c.answer p call (p.opcode cmd :: body)).1[i]? = some b) : rx[i]? = some b := by
  have hroom : i < body.length + 1 := by
    have hlt := (List.getElem?_eq_some_iff.1 hb).1
    rwa [Chip.answer_length] at hlt
  rwa [Chip.answer_opcode p hp call c hd cmd body, hperform, fitBytes_getElem? _ _ _ _ hroom hi] at hb

theorem Chip.answer_read (b1 b2 b3 : Byte) (more : List Byte) :
    c.answer p call (p.opcode .read :: b1 :: b2 :: b3 :: more) =
      (freeBytes call 4 ++ c.dataBytes (addressOf b1 b2 b3).toNat more.length, c) :=
  Chip.answer_given p call c _ hp hd rfl (by simp; omega)

theorem Chip.answer_fastRead (b1 b2 b3 : Byte) {more : List Byte} (hmore : 2 ≤ more.length) :
    c.answer p call (p.opcode .fastRead :: b1 :: b2 :: b3 :: more) =
      (freeBytes call 6 ++ c.dataBytes (addressOf b1 b2 b3).toNat (more.length - 2), c) :=
  Chip.answer_given p call c _ hp hd rfl (by simp; omega)

theorem Chip.answer_rdid {body : List Byte} (hbody : body.length = 3) :
    c.answer p call (p.opcode .rdid :: body) = (freeBytes call 1 ++ [c.id0, c.id1, c.id2], c) :=
  Chip.answer_given p call c _ hp hd rfl (by simp [hbody])

theorem Chip.answer_rdsr (b : Byte) :
    c.answer p call [p.opcode .rdsr, b] = ([Config.freeByte call 0, Chip.statusByte call c.tick.busy], c.tick) :=
  Chip.answer_given p call c _ hp hd rfl rfl

end

/-- Byte `j` of a data read, behind `k` bytes nothing is said about. -/
theorem dataBytes_getElem? (c : Chip) (call k a : Nat) {j n : Nat} (hj : j < n) :
    (freeBytes call k ++ c.dataBytes a n)[k + j]? = some (c.mem.read ((a + j) % c.geom.capacity)) := by
  rw [List.getElem?_append_right (by simp), freeBytes_length, Nat.add_sub_cancel_left]
  simp [Chip.dataBytes, hj]

/-! ### The frames of the block (R77) -/

theorem eq_spiRes_of_command {i : Instr} (h : i.command = some .res) : i = .spiRes := by
  cases i <;> simp [Instr.command] at h ⊢

/-- A mutating command makes an awake chip try to start an effect (R65). -/
theorem answer_mutating {p : Params} {call : Nat} {c : Chip} {i : Instr} {tx : List Byte} (hp : p.wf = true)
    (hd : c.dpd = false) (henc : encode p i = .frame tx)
    (hi : i = .spiCe ∨ (∃ a, i = .spiSe a) ∨ (∃ a, i = .spiBe a) ∨ (∃ a d, i = .spiPp a d)) :
    ∃ e, (c.answer p call tx).2 = c.start e := by
  rcases hi with rfl | ⟨a, rfl⟩ | ⟨a, rfl⟩ | ⟨a, data, rfl⟩ <;> obtain rfl := Code.frame.inj henc
  · exact ⟨_, Chip.answer_awake p call c _ hp hd .ce⟩
  · exact ⟨_, Chip.answer_awake p call c _ hp hd .se⟩
  · exact ⟨_, Chip.answer_awake p call c _ hp hd .be⟩
  · exact ⟨_, Chip.answer_awake p call c _ hp hd .pp⟩

theorem answer_spiRead {p : Params} (call : Nat) {c : Chip} {a : Word} (hp : p.wf = true) (hd : c.dpd = false)
    (ha : addressFits a = true) (len : Nat) :
    c.answer p call (frameRead p a len) = (freeBytes call 4 ++ c.dataBytes a.toNat len, c) := by
  have hframe : frameRead p a len = p.opcode .read :: (addressField a ++ List.replicate len p.fill) :=
    frame_eq_of_encode (i := .spiRead a len) rfl rfl
  have hread := Chip.answer_read p call c hp hd (a.extractLsb' 16 8) (a.extractLsb' 8 8) (a.extractLsb' 0 8)
    (List.replicate len p.fill)
  rw [addressOf_addressField a ha, List.length_replicate] at hread
  rw [hframe]
  exact hread

theorem answer_spiFastRead {p : Params} (call : Nat) {c : Chip} {a : Word} (hp : p.wf = true) (hd : c.dpd = false)
    (ha : addressFits a = true) (len : Nat) :
    c.answer p call (frameFastRead p a len) = (freeBytes call 6 ++ c.dataBytes a.toNat len, c) := by
  have hframe : frameFastRead p a len = p.opcode .fastRead :: (addressField a ++ List.replicate (2 + len) p.fill) :=
    frame_eq_of_encode (i := .spiFastRead a len) rfl rfl
  have hread := Chip.answer_fastRead p call c hp hd (a.extractLsb' 16 8) (a.extractLsb' 8 8) (a.extractLsb' 0 8)
    (more := List.replicate (2 + len) p.fill) (by simp)
  rw [addressOf_addressField a ha, List.length_replicate, Nat.add_sub_cancel_left] at hread
  rw [hframe]
  exact hread

/-- Behind the reference chip with no failure planned for the call, the chip answers it. -/
theorem oracle_answer_chip {c : Chip} {plan : List (Option Failure)} (hplan : plan = [] ∨ plan.head? = some none)
    (p : Params) (call : Nat) (tx : List Byte) :
    ((Oracle.chip c plan).answer p call tx).2.flash = (c.answer p call tx).2.mem := by
  match plan, hplan with
  | [], _ => rfl
  | none :: _, _ => rfl
  | some _ :: _, h => simp at h

/-- What a command does to the array behind the block is what its frame does to the chip. -/
theorem exec_command_flash {i : Instr} {s t : State} {c : Chip} {plan : List (Option Failure)} (hi : i.command ≠ none)
    (ho : s.oracle = .chip c plan) (hplan : plan = [] ∨ plan.head? = some none) (h : exec i s = .next t) :
    ∃ tx, encode s.params i = .frame tx ∧ t.oracle.flash = (c.answer s.params s.freeCtr tx).2.mem := by
  obtain ⟨k, tx, f, reply, o, hparts, ha, hroute⟩ := exec_command_call hi h
  refine ⟨tx, encode_commandParts hparts, ?_⟩
  have hflash := oracle_answer_chip (c := c) hplan s.params s.freeCtr tx
  rw [← ho, ha] at hflash
  rw [hroute]
  exact hflash

end Sys2Proof.Machine
end

section
open Sys2Proof Sys2Proof.Machine

/-- Settles O33: a call changes the array only by the tick of a status read, and only its own opcode is heard as one. -/
theorem chipArrayFrame : Obligations.ChipArrayFrame := by
  intro i s t c plan hi ho hplan hwf h
  obtain ⟨tx, henc, hflash⟩ := exec_command_flash hi ho hplan h
  rw [hflash]
  refine ⟨fun x hx => ?_, fun hp hne => ?_⟩
  · rcases Chip.answer_mem s.params s.freeCtr tx c with hmem | ⟨-, htick⟩
    · rw [hmem]
    · rw [htick, read_tick c x hwf hx]
  · rcases Chip.answer_mem s.params s.freeCtr tx c with hmem | ⟨hhears, -⟩
    · exact hmem
    · obtain ⟨cmd, body, hcmd, rfl⟩ := encode_head henc
      have hrdsr : Command.rdsr = cmd := Params.opcode_injective _ hp _ _ (hears_rdsr hhears)
      exact absurd (hrdsr ▸ hcmd) hne

/-- Settles O53: the places are those of `Chip.programAddress`, and no later byte lands on one of the last `pageSize`. -/
theorem pageProgramWrapsInItsPage : Obligations.PageProgramWrapsInItsPage := by
  intro c a data hwf hpage hpending
  rw [complete_mem hpending]
  refine ⟨fun j hj hlast => ?_, fun x hx => ?_, rfl, rfl, rfl⟩
  · have hplaced := read_programBytes_placed c.geom a data 0 c.mem hwf j hj hlast
    rwa [Nat.zero_add] at hplaced
  · exact read_apply c.geom c.mem (.program a data) hwf x (fun ⟨j, hj, hat⟩ => hx j hj hat)

/-- Settles O54: a mutating command is a `Chip.start`, which tests the latch and the busy bit. -/
theorem chipIgnoresCommandsWithoutLatch : Obligations.ChipIgnoresCommandsWithoutLatch := by
  intro p call c tx i hp _ henc hd
  refine ⟨fun hi => ?_, ?_⟩
  · obtain ⟨e, he⟩ := answer_mutating (call := call) hp hd henc hi
    rw [he]
    refine ⟨fun hoff => Chip.start_ignored c e hoff.symm, fun hw hb => ?_⟩
    rw [Chip.start_accepted c e hb hw]
    exact ⟨rfl, rfl, rfl⟩
  · rintro rfl
    obtain rfl := Code.frame.inj henc
    rw [Chip.answer_awake p call c [] hp hd .wren]
    exact ⟨fun hb => if_pos hb, fun hb => if_neg (by simp [hb])⟩

/-- Settles O55: a frame starts with the opcode of its command, and no command but RES is heard asleep. -/
theorem chipInDeepPowerDownHearsOnlyRelease : Obligations.ChipInDeepPowerDownHearsOnlyRelease := by
  intro p call c tx i hp _ henc
  refine ⟨fun hd hne => ?_, ?_, ?_⟩
  · obtain ⟨cmd, body, hcmd, rfl⟩ := encode_head henc
    refine Chip.answer_asleep p call c body hp hd ?_
    rintro rfl
    exact hne (eq_spiRes_of_command hcmd)
  · rintro rfl
    obtain rfl := Code.frame.inj henc
    exact Chip.answer_release p call c [] hp
  · rintro rfl hd
    obtain rfl := Code.frame.inj henc
    exact Chip.answer_awake p call c [] hp hd .dp

/-- Settles O56, command by command; a status read answers the busy bit its tick leaves. -/
theorem chipAnswersReadsAndStatus : Obligations.ChipAnswersReadsAndStatus := by
  intro p call c hp hd
  have fits {a : Word} {b : Bool} (h : (addressFits a && b) = true) : addressFits a = true := (Bool.and_eq_true_iff.1 h).1
  refine ⟨fun a len tx hwf henc => ?_, fun a len tx hwf henc => ?_, fun tx henc => ?_, fun tx henc => ?_⟩
  · obtain rfl := frame_eq_of_encode (i := .spiRead a len) rfl henc
    refine ⟨?_, Chip.answer_length p call _ c, fun j hj => ?_⟩ <;> rw [answer_spiRead call hp hd (fits hwf)]
    exact dataBytes_getElem? c call 4 a.toNat hj
  · obtain rfl := frame_eq_of_encode (i := .spiFastRead a len) rfl henc
    refine ⟨?_, Chip.answer_length p call _ c, fun j hj => ?_⟩ <;> rw [answer_spiFastRead call hp hd (fits hwf)]
    exact dataBytes_getElem? c call 6 a.toNat hj
  · obtain rfl := Code.frame.inj henc
    rw [Chip.answer_rdid p call c hp hd rfl]
    exact ⟨rfl, rfl, rfl⟩
  · obtain rfl := Code.frame.inj henc
    rw [Chip.answer_rdsr p call c hp hd p.fill]
    refine ⟨_, _, rfl, ?_⟩
    have hbit : (Chip.statusByte call c.tick.busy).getLsbD 0 = c.tick.busy := busy_statusByte call _
    rw [hbit]
    refine ⟨fun hb => ⟨?_, tick_idle c hb⟩, fun hb h0 => ⟨?_, tick_completes c hb h0⟩,
      fun hb h0 => ⟨?_, tick_counts c hb h0⟩⟩
    · rw [tick_idle c hb, hb]
    · rw [tick_completes c hb h0]
      rfl
    · rw [tick_counts c hb h0]
      exact hb

/-- Settles O58: `Chip.answer_awake` gives the effect for every frame that starts with the opcode, and what R65 answers is received as far as the frame
reaches. -/
theorem chipActsOnTheFirstByte : Obligations.ChipActsOnTheFirstByte := by
  intro p call c body hp hd after rx started
  have effect (cmd : Command) : after cmd = (c.perform call (p.opcode cmd :: body) cmd).2 :=
    Chip.answer_awake p call c body hp hd cmd
  have ignored (hoff : c.busy = true ∨ c.wel = false) (e : ChipEffect) : c.start e = c := Chip.start_ignored c e hoff
  have accepted (hb : c.busy = false) (hw : c.wel = true) (e : ChipEffect) : c.start e = started e :=
    Chip.start_accepted c e hb hw
  refine ⟨fun cmd => Chip.answer_length p call _ c, fun b hb => Chip.answer_unknown p call c body hb, effect .dp, ?_,
    effect .rdid, effect .read, effect .fastRead, effect .wren, fun hb => (effect .rdsr).trans (tick_idle c hb),
    fun hb h0 => (effect .rdsr).trans (tick_completes c hb h0), fun hb h0 => (effect .rdsr).trans (tick_counts c hb h0),
    fun b hb => ?_, fun j b hj hb => ?_, fun hoff => ?_, fun hb hw => ?_, ?_⟩
  · rw [effect .res, Chip.perform, ← hd]
  · have hgiven := Chip.answer_byte p call c body hp hd (cmd := .rdsr) rfl (by simp) hb
    obtain rfl := Option.some.inj hgiven
    rw [effect .rdsr]
    exact busy_statusByte call c.tick.busy
  · have hgiven := Chip.answer_byte p call c body hp hd (cmd := .rdid) rfl (by simp; omega) hb
    rwa [List.getElem?_append_right (by simp), freeBytes_length, Nat.add_sub_cancel_left] at hgiven
  · exact ⟨(effect .ce).trans (ignored hoff _), (effect .se).trans (ignored hoff _), (effect .be).trans (ignored hoff _),
      (effect .pp).trans (ignored hoff _)⟩
  · exact ⟨(effect .ce).trans (accepted hb hw _), ⟨_, (effect .se).trans (accepted hb hw _)⟩,
      ⟨_, (effect .be).trans (accepted hb hw _)⟩, ⟨_, (effect .pp).trans (accepted hb hw _)⟩⟩
  · rintro b1 b2 b3 more rfl
    refine ⟨fun hb hw => ⟨(effect .se).trans (accepted hb hw _), (effect .be).trans (accepted hb hw _),
      (effect .pp).trans (accepted hb hw _)⟩, fun j hj => ?_, fun j hj => ?_⟩
    · show (c.answer p call _).1[4 + j]? = _
      rw [Chip.answer_read p call c hp hd]
      exact dataBytes_getElem? c call 4 _ hj
    · show (c.answer p call _).1[6 + j]? = _
      rw [Chip.answer_fastRead p call c hp hd b1 b2 b3 (by omega)]
      exact dataBytes_getElem? c call 6 _ (by omega)

end

section
/-! PROOFS. The family 20_memory.md, the round trip: a write and a read behind the reference chip (R64 to R66, R152, R170; test vectors E2 and P1). -/

namespace Sys2Proof.Machine

/-! ### Runs of some length -/

/-- Some number of steps from `s` ends in a state that meets `P`. -/
def Eventually (P : State → Prop) (s : State) : Prop := ∃ k t, run k s = .next t ∧ P t

theorem Eventually.now {P : State → Prop} {s : State} (h : P s) : Eventually P s := ⟨0, s, run_zero s, h⟩

theorem Eventually.of_step {P : State → Prop} {s u : State} (hs : step s = .next u) (hu : Eventually P u) :
    Eventually P s := by
  obtain ⟨k, t, hrun, ht⟩ := hu
  exact ⟨k + 1, t, (run_succ k hs).trans hrun, ht⟩

/-! ### A command behind the reference chip -/

/-- The block is ready for a request, and behind it is the chip `c`, awake, with no failure planned. -/
structure ReadyBehind (s : State) (c : Chip) : Prop where
  resetIn : s.resetIn = none
  params : s.params.wf = true
  phase : s.phase = .idle
  status : s.cfgStatus = .cfgOk
  oracle : s.oracle = .chip c []
  awake : c.dpd = false

/-- The operation of `v` in the phase `ph`, behind the chip `c`: a call changes the trace and the index of the next free value besides. -/
def State.behind (v : State) (ph : Phase) (c : Chip) (trace : List Event) (n : Nat) : State :=
  { v with phase := ph, oracle := .chip c [], trace := trace, freeCtr := n }

theorem State.behind_self {v : State} {ph : Phase} {c : Chip} (hp : v.phase = ph) (ho : v.oracle = .chip c []) :
    v.behind ph c v.trace v.freeCtr = v := by
  rw [State.behind, ← hp, ← ho]

theorem Eventually.of_behind {P : State → Prop} {v : State} {ph : Phase} {c : Chip} (hp : v.phase = ph)
    (ho : v.oracle = .chip c []) (h : Eventually P (v.behind ph c v.trace v.freeCtr)) : Eventually P v := by
  rwa [State.behind_self hp ho] at h

section
variable {v : State} {ph : Phase} {c : Chip} {trace : List Event} {n : Nat} (hr : v.resetIn = none)
include hr

/-- One command behind the chip: the chip answers its frame, and its continuation goes on from there. -/
theorem step_behind {i : Instr} {k : CallKind} {tx : List Byte} {f : List Byte → State → State} (hp : ph ≠ .idle)
    (hsel : selectCommand (v.behind ph c trace n) = .ok i) (hparts : commandParts v.params i = some (k, tx, f)) :
    ∃ trace', step (v.behind ph c trace n) =
      .next (f (c.answer v.params n tx).1 (v.behind ph (c.answer v.params n tx).2 trace' (n + 1))) :=
  ⟨trace ++ [_], step_answered (s := v.behind ph c trace n) hr hp hsel hparts rfl⟩

variable (hwf : v.params.wf = true) (hd : c.dpd = false)
include hwf hd

/-- The one call of a read (R152). -/
theorem read_xfer (hop : v.latch.op = 5#4) (haddr : addressFits v.latch.argA = true)
    (hin : readInRange v.geom v.latch.argA v.latch.argB = true) :
    ∃ trace', step (v.behind .xfer c trace n) = .next (respondOk
      (c.dataBytes v.latch.argA.toNat v.latch.argB.toNat) (v.behind .xfer c trace' (n + 1))) := by
  obtain ⟨-, hpos, -⟩ := (readInRange_iff _ _ _).1 hin
  have hcount : (sext v.latch.argB).toNat = v.latch.argB.toNat := by
    rw [sext_of_nonneg _ (Int.le_of_lt hpos)]
    rfl
  have hsel : selectCommand (v.behind .xfer c trace n) = .ok (.spiRead v.latch.argA v.latch.argB.toNat) := by
    rw [selectCommand_xfer rfl, transferCommand, State.behind, hop, hcount]
    rfl
  obtain ⟨trace', hstep⟩ := step_behind hr (by decide) hsel rfl
  rw [answer_spiRead n hwf hd haddr, received_eq_drop (by simp), List.drop_left' (freeBytes_length n 4)] at hstep
  exact ⟨trace', hstep.trans (congrArg _ (afterTransfer_xfer _ rfl))⟩

variable (hop : v.latch.op = 4#4)
include hop

/-! ### A write of one chunk, call by call (R170) -/

theorem write_wren (hb : c.busy = false) : ∃ trace', step (v.behind .wren c trace n) =
    .next (v.behind .prePoll { c with wel := true } trace' (n + 1)) := by
  have hsel : selectCommand (v.behind .wren c trace n) = .ok .spiWren :=
    selectCommand_wren rfl (by rw [State.behind, hop]; decide) (by rw [State.behind, hop]; decide)
  have hchip : (c.answer v.params n (frameWren v.params)).2 = { c with wel := true } :=
    (Chip.answer_awake v.params n c [] hwf hd .wren).trans (if_neg (by rw [hb]; decide))
  obtain ⟨trace', hstep⟩ := step_behind hr (by decide) hsel rfl
  rw [hchip] at hstep
  exact ⟨trace', hstep.trans (congrArg _ (afterWren_write rfl hop))⟩

/-- A status read of the write's polls: the chip ticks, and its busy bit decides. -/
theorem write_poll (hph : ph = .prePoll ∨ ph = .postPoll) : ∃ trace' status, busy status = c.tick.busy ∧
    step (v.behind ph c trace n) = .next (afterStatus status (v.behind ph c.tick trace' (n + 1))) := by
  have hsel : selectCommand (v.behind ph c trace n) = .ok .spiRdsr :=
    selectCommand_poll hph (by rw [State.behind, hop]; decide) (by rw [State.behind, hop]; decide)
  have hchip : c.answer v.params n (frameRdsr v.params) = ([Config.freeByte n 0, Chip.statusByte n c.tick.busy], c.tick) :=
    Chip.answer_rdsr v.params n c hwf hd v.params.fill
  obtain ⟨trace', hstep⟩ := step_behind hr (by rcases hph with rfl | rfl <;> decide) hsel rfl
  rw [hchip] at hstep
  exact ⟨trace', _, busy_statusByte n _, hstep⟩

theorem write_prePoll (hb : c.busy = false) : ∃ trace', step (v.behind .prePoll c trace n) =
    .next (v.behind .issue c trace' (n + 1)) := by
  obtain ⟨trace', status, hstatus, hstep⟩ := write_poll (trace := trace) (n := n) hr hwf hd hop (Or.inl rfl)
  rw [tick_idle c hb] at hstatus hstep
  exact ⟨trace', hstep.trans (congrArg _ (afterStatus_prePoll_write rfl (hstatus.trans hb) hop))⟩

/-- The chunk is sent, and the chip programs it. -/
theorem write_chunk (hb : c.busy = false) (hw : c.wel = true) (haddr : addressFits v.seq.curAddr = true)
    (hfit : zext v.seq.bufIdx + chunkLength v ≤ zext v.latch.bufLen) :
    ∃ trace', step (v.behind .issue c trace n) = .next (v.behind .postPoll
      { c with busy := true, busyReadsLeft := c.d, pending := some (.program v.seq.curAddr.toNat (chunkData v)) }
      trace' (n + 1)) := by
  have hsel : selectCommand (v.behind .issue c trace n) = .ok (.spiPp v.seq.curAddr (chunkData v)) := by
    have hmut : mutatingCommand (v.behind .issue c trace n) =
        if zext v.seq.bufIdx + chunkLength v ≤ zext v.latch.bufLen then .ok (.spiPp v.seq.curAddr (chunkData v))
        else .error .payloadIndexOutOfRange := by
      rw [mutatingCommand, State.behind, hop]
      rfl
    rw [selectCommand_issue rfl, hmut, if_pos hfit]
  have hframe : framePp v.params v.seq.curAddr (chunkData v) =
      v.params.opcode .pp :: (addressField v.seq.curAddr ++ chunkData v) :=
    frame_eq_of_encode (i := .spiPp v.seq.curAddr (chunkData v)) rfl rfl
  have hchip : (c.answer v.params n (framePp v.params v.seq.curAddr (chunkData v))).2 =
      c.start (.program v.seq.curAddr.toNat (chunkData v)) := by
    rw [hframe, Chip.answer_awake v.params n c _ hwf hd .pp, Chip.perform,
      Chip.frameAddress_field n _ v.seq.curAddr haddr (chunkData v)]
    rfl
  obtain ⟨trace', hstep⟩ := step_behind hr (by decide) hsel rfl
  rw [hchip, Chip.start_accepted c _ hb hw] at hstep
  exact ⟨trace', hstep.trans (congrArg _ (afterMutating_issue rfl))⟩

/-- However many busy reads the chip has left, the poll behind the chunk ends with the effect completed. -/
theorem write_postPoll (hb : c.busy = true) {P : State → Prop}
    (hdone : ∀ trace n, Eventually P (advance (v.behind .postPoll ({ c with busyReadsLeft := 0 } : Chip).complete trace n)))
    (left : Nat) : ∀ trace n, Eventually P (v.behind .postPoll { c with busyReadsLeft := left } trace n) := by
  induction left with
  | zero =>
    intro trace n
    obtain ⟨trace', status, hstatus, hstep⟩ := write_poll (c := { c with busyReadsLeft := 0 }) (trace := trace) (n := n)
      hr hwf hd hop (Or.inr rfl)
    rw [tick_completes { c with busyReadsLeft := 0 } hb rfl] at hstatus hstep
    exact .of_step (hstep.trans (congrArg _ (afterStatus_postPoll rfl hstatus))) (hdone trace' (n + 1))
  | succ left ih =>
    intro trace n
    obtain ⟨trace', status, hstatus, hstep⟩ := write_poll (c := { c with busyReadsLeft := left + 1 }) (trace := trace)
      (n := n) hr hwf hd hop (Or.inr rfl)
    rw [tick_counts { c with busyReadsLeft := left + 1 } hb (Nat.succ_pos left)] at hstatus hstep
    exact .of_step (hstep.trans (congrArg _ (afterStatus_busy (Or.inr rfl) (hstatus.trans hb)))) (ih trace' (n + 1))

end

/-! ### The requests -/

/-- The state behind the ACCEPT of a valid write (R170). -/
def writeAccepted (w : Request) (rest : List Request) (a n off bl : Word) (s : State) : State :=
  { s with
    phase := .wren, seq := writeStart a n off s.seq, accepted := s.accepted + 1, requests := rest, payload := w.payload
    latch := { latchOf w.words with
      op := OpCode.write, argA := a, argB := n, argOff := off, bufPresent := true, bufLen := bl } }

theorem step_write {s : State} {c : Chip} {w : Request} {rest : List Request} {a n off bl : Word}
    (hs : ReadyBehind s c) (hq : s.requests = w :: rest)
    (hdec : decodeRequest w.words = .ok (.write a n off true bl)) (hin : writeInRange s.geom a n off bl = true) :
    step s = .next (writeAccepted w rest a n off bl s) := by
  have hexec := exec_accept_ready (.write a n off true bl) (takeRequest w rest s) _ _ rfl hs.phase hs.status
  rw [requireBuffer, if_pos rfl, takeRequest_geom, hin, requireRange_true] at hexec
  rw [step_runs s w rest _ hs.resetIn hs.phase hs.status hq hdec, hexec]
  cases s
  rfl

/-- The state behind the ACCEPT of a valid read (R152). -/
def readAccepted (r : Request) (rest : List Request) (a n : Word) (s : State) : State :=
  { s with
    phase := .xfer, accepted := s.accepted + 1, requests := rest, payload := r.payload
    latch := { latchOf r.words with op := OpCode.read, argA := a, argB := n } }

theorem step_read {s : State} {c : Chip} {r : Request} {rest : List Request} {a n : Word} (hs : ReadyBehind s c)
    (hq : s.requests = r :: rest) (hdec : decodeRequest r.words = .ok (.read a n))
    (hin : readInRange s.geom a n = true) : step s = .next (readAccepted r rest a n s) := by
  have hexec := exec_inRange (i := .read a n) (s := takeRequest r rest s) rfl hs.phase hs.status hin
  rw [step_runs s r rest _ hs.resetIn hs.phase hs.status hq hdec, hexec]
  cases s
  rfl

/-- What the checks of R107 and R108 leave of a range: it ends inside the chip, so its address fits the field of a frame (R41). -/
theorem range_bounds {g : Geom} {a n : Word} (hcap : g.capacity ≤ 2 ^ 24) (h : readInRange g a n = true) :
    zext a + zext n ≤ g.capacity ∧ addressFits a = true := by
  obtain ⟨haddr, hlen, hend⟩ := (readInRange_iff _ _ _).1 h
  rw [sext_of_nonneg a haddr, sext_of_nonneg n (Int.le_of_lt hlen)] at hend
  rw [sext_of_nonneg n (Int.le_of_lt hlen)] at hlen
  exact ⟨by omega, decide_eq_true (show zext a < 2 ^ 24 by omega)⟩

/-- A write that passes its check has a range that a read of it passes, and its payload bytes exist (R42, R107, R108). -/
theorem readInRange_of_writeInRange {g : Geom} {a n off bl : Word} (h : writeInRange g a n off bl = true) :
    readInRange g a n = true ∧ zext off + zext n ≤ zext bl := by
  obtain ⟨haddr, hoff, hlen, hend, hbuf⟩ := (writeInRange_iff _ _ _ _ _).1 h
  rw [sext_of_nonneg off hoff, sext_of_nonneg n (Int.le_of_lt hlen)] at hbuf
  exact ⟨(readInRange_iff _ _ _).2 ⟨haddr, hlen, hend⟩, by omega⟩

/-- A valid read behind the reference chip responds with the bytes of the array (R65, R152). -/
theorem read_returns_dataBytes {s : State} {c : Chip} {r : Request} {rest : List Request} {a n : Word}
    (hs : ReadyBehind s c) (hq : s.requests = r :: rest) (hdec : decodeRequest r.words = .ok (.read a n))
    (hcap : s.geom.capacity ≤ 2 ^ 24) (hin : readInRange s.geom a n = true) :
    Eventually (fun t => t.phase = .idle ∧ t.requests = rest ∧ t.responses = s.responses ++ [t.resp] ∧
      t.resp.code = 0#3 ∧ t.resp.data = c.dataBytes a.toNat n.toNat) s := by
  obtain ⟨-, haddr⟩ := range_bounds hcap hin
  refine .of_step (step_read hs hq hdec hin) (.of_behind rfl hs.oracle ?_)
  obtain ⟨_, hstep⟩ := read_xfer (v := readAccepted r rest a n s) hs.resetIn hs.params hs.awake rfl haddr hin
  exact .of_step hstep (.now ⟨rfl, rfl, rfl, rfl, rfl⟩)

/-- What a write of one chunk `data` at `a`, accepted in `s` behind the chip `c` with the requests `rest` still to come, ends in: one response more, and
an awake chip that has programmed the chunk. -/
structure Programmed (s : State) (c : Chip) (rest : List Request) (a : Nat) (data : List Byte) (t : State) : Prop where
  config : SameConfig s t
  requests : t.requests = rest
  responses : t.responses = s.responses ++ [t.resp]
  chip : ∃ c', ReadyBehind t c' ∧ c'.geom = c.geom ∧ c'.mem = Chip.apply c.geom c.mem (.program a data)

/-- A valid write of at most a page behind an idle chip is one chunk, and the chip programs it (R65, R170). -/
theorem write_programs {s : State} {c : Chip} {w : Request} {rest : List Request} {a n off bl : Word}
    (hs : ReadyBehind s c) (hb : c.busy = false) (hq : s.requests = w :: rest)
    (hdec : decodeRequest w.words = .ok (.write a n off true bl)) (hcap : s.geom.capacity ≤ 2 ^ 24)
    (hin : writeInRange s.geom a n off bl = true) (hpage : zext n ≤ s.geom.pageSize) :
    Eventually (Programmed s c rest a.toNat (w.payload.readRange (zext off) (zext n))) s := by
  obtain ⟨hread, hidx⟩ := readInRange_of_writeInRange hin
  obtain ⟨hend, haddr⟩ := range_bounds hcap hread
  have hcur : zext a + zext n < 2 ^ 32 := by omega
  have hidx' : zext off + zext n < 2 ^ 32 := Nat.lt_of_le_of_lt hidx (zext_lt bl)
  let v := writeAccepted w rest a n off bl s
  have hr : v.resetIn = none := hs.resetIn
  have hwf : v.params.wf = true := hs.params
  have hchunk : chunkLength v = zext n := Nat.min_eq_left hpage
  have hdata : chunkData v = w.payload.readRange (zext off) (zext n) :=
    congrArg (w.payload.readRange (zext off)) hchunk
  rw [← hdata]
  refine .of_step (step_write hs hq hdec hin) (.of_behind rfl hs.oracle ?_)
  obtain ⟨_, hwren⟩ := write_wren (v := v) hr hwf hs.awake rfl hb
  refine .of_step hwren ?_
  obtain ⟨_, hpre⟩ := write_prePoll (v := v) (c := { c with wel := true }) hr hwf hs.awake rfl hb
  refine .of_step hpre ?_
  obtain ⟨_, hpp⟩ := write_chunk (v := v) (c := { c with wel := true }) hr hwf hs.awake rfl hb rfl haddr (hchunk ▸ hidx)
  refine .of_step hpp (write_postPoll (v := v) (c := { c with wel := true, busy := true, pending := some (.program _ _) })
    hr hwf hs.awake rfl rfl (fun trace m => .now ?_) c.d _ _)
  obtain ⟨-, -, -, -, hlast⟩ := advance_chunk (c := v.behind .postPoll _ trace m) rfl hchunk hcur hidx'
  obtain ⟨-, -, heq⟩ := hlast rfl
  rw [heq]
  exact ⟨sameConfig_refl s, rfl, rfl, _, ⟨hr, hwf, rfl, hs.status, rfl, hs.awake⟩, rfl, rfl⟩

/-! ### The bytes -/

/-- A page-program that stays inside its page puts byte `j` at `a + j`. -/
theorem read_program_inPage {g : Geom} {m : Memory} {a j : Nat} {data : List Byte} (hw : m.wf = true)
    (hpage : g.pageSize = 256) (hin : a % 256 + data.length ≤ 256) (hj : j < data.length) :
    (Chip.apply g m (.program a data)).read (a + j) = data.getD j 0#8 := by
  have hplace : Chip.programAddress g a (0 + j) = a + j := by
    rw [Chip.programAddress, hpage]
    omega
  rw [← hplace]
  exact read_programBytes_placed g a data 0 m hw j hj (by omega)

/-- A chip that has programmed bytes inside one page answers a read of their range with them (R65, R66). -/
theorem dataBytes_program {c : Chip} {g : Geom} {m : Memory} {a n : Nat} {data : List Byte} (hw : m.wf = true)
    (hmem : c.mem = Chip.apply g m (.program a data)) (hpage : g.pageSize = 256) (hlen : data.length = n)
    (hin : a % 256 + n ≤ 256) (hcap : a + n ≤ c.geom.capacity) : c.dataBytes a n = data := by
  subst hlen
  refine List.ext_getElem (by simp) (fun j _ hj => ?_)
  have hread := read_program_inPage hw hpage hin hj
  rw [← hmem, List.getD_eq_getElem _ _ hj] at hread
  have hlow : (a + j) % c.geom.capacity = a + j := Nat.mod_eq_of_lt (by omega)
  simp [Chip.dataBytes, hlow, hread]

end Sys2Proof.Machine
end

section
open Sys2Proof Sys2Proof.Machine

/-- Settles O57: the write is one chunk, which the chip programs, and the read returns the bytes of the array at the same places. -/
theorem writeThenReadReturnsTheBytes : Obligations.WriteThenReadReturnsTheBytes := by
  intro s w r address length offset bufLen c hi hr hp hc hq hdw hdr hin hpage ho hgeom hd hb
  obtain ⟨row, -, hrow, hg⟩ := geomLookup_some _ _ _ hi.params (hi.geometry hc)
  obtain ⟨-, -, -, hcap⟩ := Geom.sizes row hrow
  rw [← hg] at hcap
  have hpageSize : s.geom.pageSize = 256 := by rw [hg]; rfl
  have hmem : c.mem.wf = true := by
    have hwf := hi.oracle
    rw [ho] at hwf
    exact (Bool.and_eq_true_iff.1 hwf).1
  have hs : ReadyBehind s c := ⟨hr, hi.params, hp, hc, ho, hd⟩
  have hshort : zext length ≤ 256 := Nat.le_trans (Nat.le_add_left _ _) hpage
  obtain ⟨hread, -⟩ := readInRange_of_writeInRange hin
  obtain ⟨hend, -⟩ := range_bounds hcap hread
  obtain ⟨j, u, hju, hu⟩ := write_programs hs hb hq hdw hcap hin (hpageSize ▸ hshort)
  obtain ⟨c', hready, hgeom', hmem'⟩ := hu.chip
  obtain ⟨-, -, -, -, hug⟩ := hu.config
  obtain ⟨k, t, hkt, hidle, hreqs, hresps, hcode, hdata⟩ := read_returns_dataBytes hready hu.requests hdr
    (hug ▸ hcap) (hug ▸ hread)
  refine ⟨j + k, t, (run_add j k hju).trans hkt, hidle, hreqs, ?_, hcode, hdata.trans ?_⟩
  · rw [hresps, hu.responses, List.length_append, List.length_append]
    rfl
  · refine dataBytes_program hmem hmem' (hgeom ▸ hpageSize) (Memory.readRange_length _ _ _) hpage ?_
    rw [hgeom', hgeom]
    exact hend

end

section
/-! PROOFS. The family 30_encoding.md: decode and encode undo each other at both levels, and what a response carries (R71 to R77, R84, R89, R190). -/

namespace Sys2Proof

/-! ### Requests (R71 to R74, R89) -/

/-- With the reserved bits 0 the operation code alone decides (R74). -/
theorem decodeRequest_unreserved {r : ReqWords} (hlow : r.reservedLow = 0#4) (hhigh : r.reservedHigh = 0#23) :
    decodeRequest r = operationOf r := if_pos ⟨hlow, hhigh⟩

section
variable (op : BitVec 4) (bp : Bool) (w1 w2 w3 w4 : Word)

@[simp] theorem ReqWords.op_requestWord0 : (ReqWords.mk (requestWord0 op bp) w1 w2 w3 w4).op = op :=
  (requestWord0_fields op bp).1

@[simp] theorem ReqWords.bufPresent_requestWord0 :
    (ReqWords.mk (requestWord0 op bp) w1 w2 w3 w4).bufPresent = bp := by
  obtain ⟨-, -, -, hbp⟩ := requestWord0_fields op bp
  exact hbp

/-- A written-out `W0` has no reserved bit set (R71). -/
@[simp] theorem decodeRequest_requestWord0 :
    decodeRequest ⟨requestWord0 op bp, w1, w2, w3, w4⟩ = operationOf ⟨requestWord0 op bp, w1, w2, w3, w4⟩ := by
  obtain ⟨-, hlow, hhigh, -⟩ := requestWord0_fields op bp
  exact decodeRequest_unreserved hlow hhigh

end

/-- Each operation code is read back from its row of R72, with the fields R73 lists. -/
theorem decode_encode_operation (p : Params) {i : Instr} (hi : i.command = none) : decode p (encode p i) = .ok i := by
  cases i <;> simp only [Instr.command, reduceCtorEq] at hi <;> simp only [encode, decode, decodeRequest_requestWord0] <;>
    simp [operationOf, OpCode.identify, OpCode.eraseChip, OpCode.eraseBlock, OpCode.eraseSector, OpCode.write, OpCode.read,
      OpCode.readFast, OpCode.suspend, OpCode.resume, OpCode.writeEnable, OpCode.isWriteInProgress]

/-! ### Frames (R77, R84) -/

/-- The opcode of a command selects its format (R84). -/
theorem decodeFrame_opcode {p : Params} (hp : p.wf = true) (c : Command) (body : List Byte) :
    decodeFrame p (p.opcode c :: body) = decodeBody c body := by
  simp only [decodeFrame, commandOf_opcode p hp c]

/-- A frame that decodes starts with the opcode of a command, whose format reads the rest (R84). -/
theorem decodeFrame_ok {p : Params} {tx : List Byte} {i : Instr} (h : decodeFrame p tx = .ok i) :
    ∃ c body, tx = p.opcode c :: body ∧ decodeBody c body = .ok i := by
  cases tx with
  | nil => cases h
  | cons b body =>
    cases hc : commandOf p b with
    | none => simp [decodeFrame, hc] at h
    | some c => exact ⟨c, body, by rw [opcode_of_commandOf p b c hc], by simpa [decodeFrame, hc] using h⟩

theorem decodeAddress_addressField (c : Command) (mk : Word → Instr) {a : Word} (ha : addressFits a = true) :
    decodeAddress c mk (addressField a) = .ok (mk a) :=
  congrArg (fun x => Except.ok (mk x)) (addressOf_addressField a ha)

theorem decodeAddressed_addressField (c : Command) (mk : Word → List Byte → Except DecodeError Instr) {a : Word}
    (ha : addressFits a = true) (more : List Byte) : decodeAddressed c mk (addressField a ++ more) = mk a more :=
  congrArg (fun x => mk x more) (addressOf_addressField a ha)

/-- Each format reads back what the encoder put behind the opcode, where the operands fit (R77). -/
theorem decode_encode_command {p : Params} (hp : p.wf = true) {i : Instr} (hi : i.command ≠ none)
    (hwf : WellFormed i = true) : decode p (encode p i) = .ok i := by
  cases i <;> simp only [Instr.command, ne_eq, not_true_eq_false] at hi <;>
    simp only [WellFormed, Bool.and_eq_true, decide_eq_true_eq] at hwf <;>
    simp only [encode, decode, decodeFrame_opcode hp, decodeBody]
  case spiRead a len =>
    obtain ⟨ha, hlen⟩ := hwf
    rw [decodeAddressed_addressField _ _ ha, List.length_replicate, if_pos hlen]
  case spiFastRead a len =>
    obtain ⟨ha, hlen⟩ := hwf
    rw [decodeAddressed_addressField _ _ ha, List.length_replicate, if_pos (by omega), Nat.add_sub_cancel_left]
  case spiPp a data =>
    obtain ⟨⟨ha, hpos⟩, hmax⟩ := hwf
    rw [decodeAddressed_addressField _ _ ha, if_pos ⟨hpos, hmax⟩]
  case spiSe a => exact decodeAddress_addressField _ _ hwf
  case spiBe a => exact decodeAddress_addressField _ _ hwf
  all_goals rfl

/-- Encoding what a body decodes to gives its head again, the address bytes and the data of a page-program, and a tail of fill bytes as long as the
one that was not looked at (R77, R84). -/
theorem encode_of_decodeBody (p : Params) {c : Command} {body : List Byte} {i : Instr} (h : decodeBody c body = .ok i) :
    ∃ head tail fill, body = head ++ tail ∧ encode p i = .frame (p.opcode c :: (head ++ fill)) ∧
      fill.length = tail.length ∧
      (i.command = some .read ∨ i.command = some .fastRead ∨ i.command = some .pp ∨ i.command = some .se ∨
        i.command = some .be → head.length = 3) ∧
      (i.command = some .pp → fill = tail) := by
  obtain ⟨hc, -, hparts⟩ := decodeBody_ok c body i h
  rcases hparts with ⟨rfl, rfl⟩ | ⟨rfl, hlen⟩ | ⟨b1, b2, b3, more, rfl, rfl⟩ | ⟨b1, b2, b3, more, hmore, rfl, rfl⟩ |
    ⟨b1, b2, b3, more, rfl, rfl⟩ | ⟨b1, b2, b3, rfl, rfl⟩ | ⟨b1, b2, b3, rfl, rfl⟩ | ⟨rfl, rfl⟩ | ⟨rfl, rfl⟩ |
    ⟨rfl, rfl⟩ | ⟨rfl, hlen⟩ <;> obtain rfl := Option.some.inj hc
  · exact ⟨[], [], [], rfl, rfl, rfl, by simp [Instr.command], fun _ => rfl⟩
  · exact ⟨[], body, List.replicate 1 p.fill, rfl, rfl, hlen.symm, by simp [Instr.command], by simp [Instr.command]⟩
  · exact ⟨[b1, b2, b3], more, List.replicate more.length p.fill, rfl, by rw [encode, addressField_addressOf],
      List.length_replicate, fun _ => rfl, by simp [Instr.command]⟩
  · exact ⟨[b1, b2, b3], more, List.replicate (2 + (more.length - 2)) p.fill, rfl, by rw [encode, addressField_addressOf],
      by rw [List.length_replicate]; omega, fun _ => rfl, by simp [Instr.command]⟩
  · exact ⟨[b1, b2, b3], more, more, rfl, by rw [encode, addressField_addressOf], rfl, fun _ => rfl, fun _ => rfl⟩
  · exact ⟨[b1, b2, b3], [], [], rfl, by rw [encode, addressField_addressOf]; rfl, rfl, fun _ => rfl, fun _ => rfl⟩
  · exact ⟨[b1, b2, b3], [], [], rfl, by rw [encode, addressField_addressOf]; rfl, rfl, fun _ => rfl, fun _ => rfl⟩
  · exact ⟨[], [], [], rfl, rfl, rfl, by simp [Instr.command], fun _ => rfl⟩
  · exact ⟨[], [], [], rfl, rfl, rfl, by simp [Instr.command], fun _ => rfl⟩
  · exact ⟨[], [], [], rfl, rfl, rfl, by simp [Instr.command], fun _ => rfl⟩
  · exact ⟨[], body, List.replicate 3 p.fill, rfl, rfl, hlen.symm, by simp [Instr.command], by simp [Instr.command]⟩

end Sys2Proof
end

section
open Sys2Proof Sys2Proof.Machine

/-- Settles O1: a host operation is read back from its five words, a command from its frame. -/
theorem decodeInvertsEncode : Obligations.DecodeInvertsEncode := by
  intro p i hp hwf
  by_cases hi : i.command = none
  · exact decode_encode_operation p hi
  · exact decode_encode_command hp hi hwf

/-- Settles O2: only the tail of fill bytes can differ. -/
theorem decodedFrameIsWellFormed : Obligations.DecodedFrameIsWellFormed := by
  intro p tx i h
  obtain ⟨c, body, rfl, hbody⟩ := decodeFrame_ok h
  obtain ⟨-, hwf, -⟩ := decodeBody_ok c body i hbody
  obtain ⟨head, tail, fill, rfl, henc, hlen, haddr, hpp⟩ := encode_of_decodeBody p hbody
  refine ⟨hwf, _, henc, by simp [hlen], rfl, fun ha => ?_, fun hc => by rw [hpp hc]⟩
  have hhead := haddr ha
  simp [hhead]

/-- Settles O3, code by code: the reserved bits are 0, so the row of R72 decides. -/
theorem operationCodesSelectOperations : Obligations.OperationCodesSelectOperations := by
  intro r hlow hhigh
  rw [decodeRequest_unreserved hlow hhigh]
  refine ⟨?_, ?_, ?_, ?_, ?_, ?_, ?_, ?_, ?_, ?_, ?_⟩ <;> intro hop <;>
    simp [operationOf, ReqWords.op, ReqWords.bufPresent, hop]

/-- Settles O5: each word and frame is evaluated. -/
theorem writtenOutWordsDecode : Obligations.WrittenOutWordsDecode :=
  ⟨rfl, rfl, rfl, rfl, rfl, rfl, rfl⟩

/-- Settles O24: the frame of each command's parts is its encoding. -/
theorem transmittedFramesAreTheEncodings : Obligations.TransmittedFramesAreTheEncodings := by
  intro p a len data
  exact ⟨encode_commandParts rfl, encode_commandParts rfl, encode_commandParts rfl, encode_commandParts rfl,
    encode_commandParts rfl, encode_commandParts rfl, encode_commandParts rfl, encode_commandParts rfl,
    encode_commandParts rfl, encode_commandParts rfl, encode_commandParts rfl⟩

end

section
/-! PROOFS. The family 30_encoding.md, responses: the code and the data of the one response a step can deliver (R75, R190 to R194). -/

namespace Sys2Proof.Machine

/-- The data an `OK` carries, by the operation latched (R75, R150 to R153, R161 to R163, R170, R180 to R182). -/
def OkDataFits (l : Latch) (data : List Byte) : Prop :=
  (l.op = 0#4 → data.length = 3) ∧
  (l.op = 10#4 → data = [0x00#8] ∨ data = [0x01#8]) ∧
  (l.op = 5#4 ∨ l.op = 6#4 → data.length = l.argB.toNat) ∧
  (l.op ≠ 0#4 → l.op ≠ 10#4 → l.op ≠ 5#4 → l.op ≠ 6#4 → data = [])

/-- A mutating operation answers `OK` without data. -/
theorem okDataFits_mutating {l : Latch} (h : 1 ≤ l.op.toNat ∧ l.op.toNat ≤ 4) : OkDataFits l [] := by
  refine ⟨fun hop => ?_, fun hop => ?_, fun hop => ?_, fun _ _ _ _ => rfl⟩
  · simp [hop] at h
  · simp [hop] at h
  · rcases hop with hop | hop <;> simp [hop] at h

/-! ### A response in IDLE (R74, R191 to R193) -/

/-- `v` has answered nothing since `u`, or the validator's refusal, which carries no data. -/
def SilentOrRefused (u v : State) : Prop :=
  v.responses = u.responses ∨ (v.resp.data = [] ∧ (v.resp.code = 1#3 ∨ v.resp.code = 2#3))

theorem requireRange_silentOrRefused (b : Bool) {go : State → State} {s : State} (h : (go s).responses = s.responses) :
    SilentOrRefused s (requireRange b go s) := by
  cases b
  · exact Or.inr ⟨rfl, Or.inl rfl⟩
  · exact Or.inl h

theorem requireBuffer_silentOrRefused (b : Bool) {go : State → State} {s : State} (h : SilentOrRefused s (go s)) :
    SilentOrRefused s (requireBuffer b go s) := by
  cases b
  · exact Or.inr ⟨rfl, Or.inr rfl⟩
  · exact h

/-- All an accept can answer is a failed check (R105, R191, R192). -/
theorem acceptParts_silentOrRefused {g : Geom} {i : Instr} {operands : Latch → Latch} {go : State → State}
    (hparts : acceptParts g i = some (operands, go)) (u : State) : SilentOrRefused u (go u) := by
  cases i <;> simp only [acceptParts, Option.some.injEq, Prod.mk.injEq, reduceCtorEq] at hparts <;>
    obtain ⟨rfl, rfl⟩ := hparts
  case eraseBlock => exact requireRange_silentOrRefused _ rfl
  case eraseSector => exact requireRange_silentOrRefused _ rfl
  case read => exact requireRange_silentOrRefused _ rfl
  case readFast => exact requireRange_silentOrRefused _ rfl
  case write => exact requireBuffer_silentOrRefused _ (requireRange_silentOrRefused _ rfl)
  all_goals exact Or.inl rfl

/-- A response from IDLE is one of the three errors found at ACCEPT. -/
theorem step_idle_response {s t : State} (hr : s.resetIn = none) (hp : s.phase = .idle) (h : step s = .next t)
    (hne : t.responses ≠ s.responses) :
    t.resp.data = [] ∧ (t.resp.code = 1#3 ∨ t.resp.code = 2#3 ∨ t.resp.code = 4#3) := by
  rcases step_cases hr h with ⟨-, -, rfl⟩ | ⟨-, hc, r, rest, -, ⟨i, hd, hx⟩ | ⟨e, -, rfl⟩⟩ | ⟨hbusy, -⟩
  · exact absurd rfl hne
  · obtain ⟨operands, go, hparts, rfl⟩ := exec_takeRequest (decodeRequest_command hd) hp hc hx
    rcases acceptParts_silentOrRefused hparts (acceptedAs _ (takeRequest r rest s)) with hsame | ⟨hdata, hcode⟩
    · exact absurd hsame hne
    · exact ⟨hdata, hcode.imp_right Or.inl⟩
  · exact ⟨rfl, Or.inr (Or.inr rfl)⟩
  · exact absurd hp hbusy

/-! ### A response to an operation in flight (R75, R194) -/

theorem continueOrRespond_response (more : Bool) (s : State) :
    (continueOrRespond more s).responses = s.responses ∨
    ((continueOrRespond more s).resp.code = 0#3 ∧ (continueOrRespond more s).resp.data = []) := by
  cases more
  · exact Or.inr ⟨rfl, rfl⟩
  · exact Or.inl rfl

theorem advance_response {s : State} (h : 1 ≤ s.latch.op.toNat ∧ s.latch.op.toNat ≤ 4) :
    (advance s).responses = s.responses ∨ ((advance s).resp.code = 0#3 ∧ (advance s).resp.data = []) := by
  rcases mutating_cases _ h.1 h.2 with ⟨hclass, -⟩ | ⟨hclass, -⟩
  · rw [advance_erase ((routeClass_e _).1 hclass)]
    exact continueOrRespond_response _ (s.setSeq _)
  · rw [advance_write ((routeClass_w _).1 hclass)]
    exact continueOrRespond_response _ (s.setSeq _)

/-- A response from an operation in flight is the transport's error, or `OK` with the data of the operation. -/
theorem step_flight_response {s t : State} (hi : Inv s) (hr : s.resetIn = none) (hp : s.phase ≠ .idle)
    (h : step s = .next t) (hne : t.responses ≠ s.responses) :
    (t.resp.code = 3#3 ∧ t.resp.data = []) ∨ (t.resp.code = 0#3 ∧ OkDataFits s.latch t.resp.data) := by
  obtain ⟨o, ev, hf⟩ := flight_cases hi hr hp h
  have hroute := hi.route
  cases hf with
  | failed e => exact Or.inl ⟨rfl, rfl⟩
  | preBusy _ => exact absurd rfl hne
  | preDone _ => exact absurd rfl hne
  | wren _ => exact absurd rfl hne
  | issue _ => exact absurd rfl hne
  | postBusy _ => exact absurd rfl hne
  | postDone hph =>
    simp only [OnRoute, hph] at hroute
    have hclass := progress_class hroute
    obtain ⟨hcode, hdata⟩ := (advance_response (s := s.recordCall o ev) hclass).resolve_left hne
    exact Or.inr ⟨hcode, hdata ▸ okDataFits_mutating hclass⟩
  | transfer hph data h0 h10 hread hnone =>
    simp only [OnRoute, hph] at hroute
    refine Or.inr ⟨rfl, h0, h10, hread, fun n0 n10 n5 n6 => hnone ?_⟩
    simpa [n0, n10, n5, n6] using (routeClass_q _).1 hroute.1

end Sys2Proof.Machine
end

section
open Sys2Proof Sys2Proof.Machine

/-- Settles O40: an accept answers 1, 2 or 4, an operation in flight 3 or 0, and only 0 carries data. -/
theorem responsesFitTheOperation : Obligations.ResponsesFitTheOperation := by
  intro s t hi hr h hne
  by_cases hp : s.phase = .idle
  · obtain ⟨hdata, hcode | hcode | hcode⟩ := step_idle_response hr hp h hne <;> simp [hp, hdata, hcode]
  · rcases step_flight_response hi hr hp h hne with ⟨hcode, hdata⟩ | ⟨hcode, hfits⟩
    · simp [hp, hdata, hcode]
    · simpa [hp, hcode, OkDataFits] using hfits

end

section
/-! PROOFS. The family 40_geometry_validator.md: the sizes of a well-formed ROM (R100 to R103, R114, R116), and what a passed check
guarantees (R108, R113). -/

namespace Sys2Proof.Machine

/-! ### The record of a variant -/

theorem geomLookup_of_row {p : Params} {v : Byte} {r : GeomRow} (h : p.geomRom[v.toNat]? = some r) :
    geomLookup p v = some (Geom.ofRow r) := by
  rw [geomLookup, h, Option.map_some]

/-- The capacity is a whole number of pages (R116). -/
theorem Geom.ofRow_capacity_pages (r : GeomRow) : (Geom.ofRow r).capacity =
    (Geom.ofRow r).pageSize * (r.pagesPerSector.toNat * r.sectorsPerBlock.toNat * r.blockCount.toNat) := by
  simp only [Geom.ofRow_capacity_bytes, GeomRow.bytes, Geom.ofRow_pageSize, Nat.mul_assoc]

/-- A sector has 256 bytes or more, so 2^24 bytes hold at most 65536 of them (R103). -/
theorem Geom.sectors_le {r : GeomRow} (h : r.wf = true) : r.sectorsPerBlock.toNat * r.blockCount.toNat ≤ 65536 := by
  obtain ⟨hsector, -, -, hcap⟩ := Geom.sizes r h
  rw [Geom.ofRow_capacity_sectors] at hcap
  have := Nat.mul_le_mul_right (r.sectorsPerBlock.toNat * r.blockCount.toNat) hsector
  omega

/-- Sectors fit the capacity exactly when their number is at most the chip's: a sector is not empty (R114). -/
theorem Geom.sectors_fit_iff {r : GeomRow} (h : r.wf = true) (x : Int) :
    x * (Geom.ofRow r).sectorSize ≤ (Geom.ofRow r).capacity ↔ x ≤ r.sectorsPerBlock.toNat * r.blockCount.toNat := by
  have hpos : (0 : Int) < (Geom.ofRow r).sectorSize := by
    have := (Geom.sizes r h).1
    omega
  rw [Geom.ofRow_capacity_sectors, Nat.cast_mul, Nat.cast_mul, Int.mul_comm x]
  exact mul_le_mul_iff_right₀ hpos

/-! ### What a passed check bounds (R113) -/

/-- An address that fits the field of a frame is not changed by it (R78). -/
theorem toNat_setWidth_of_addressFits {a : Word} (h : addressFits a = true) : (a.setWidth 24).toNat = a.toNat := by
  rw [BitVec.toNat_setWidth, Nat.mod_eq_of_lt (of_decide_eq_true h)]

theorem readInRange_bounds {g : Geom} {a n : Word} (hcap : g.capacity ≤ 2 ^ 24) (h : readInRange g a n = true) :
    0 ≤ a.toInt ∧ a.toInt + n.toInt ≤ g.capacity ∧ (a.setWidth 24).toNat = a.toNat ∧
      ∀ j : Nat, (j : Int) < n.toInt → a.toInt + j < g.capacity ∧ a.toNat + j < 2 ^ 24 := by
  obtain ⟨haddr, -, hend⟩ := (readInRange_iff _ _ _).1 h
  have hnat : a.toInt = a.toNat := sext_of_nonneg a haddr
  simp only [sext] at haddr hend
  exact ⟨haddr, hend, toNat_setWidth_of_addressFits (range_bounds hcap h).2, fun j hj => by omega⟩

/-- The buffer indices of a write that passes its check. -/
theorem writeInRange_bufIdx_lt {g : Geom} {a n off bl : Word} (h : writeInRange g a n off bl = true) {j : Nat}
    (hj : (j : Int) < n.toInt) : off.toInt + j < bl.toNat := by
  obtain ⟨-, -, -, -, hbuf⟩ := (writeInRange_iff _ _ _ _ _).1 h
  simp only [sext, zext] at hbuf
  omega

/-- The start of every unit of an erase that passes its check: `i + 1` units of it end within the capacity. -/
theorem eraseUnit_bounds {r : GeomRow} (hr : r.wf = true) {first count : Word} {size : Nat}
    (h : (eraseBlockInRange (Geom.ofRow r) first count = true ∧ size = (Geom.ofRow r).blockSize) ∨
      (eraseSectorInRange (Geom.ofRow r) first count = true ∧ size = (Geom.ofRow r).sectorSize))
    {i : Nat} (hi : (i : Int) < count.toInt) :
    (first.toInt + i) * size ≤ (Geom.ofRow r).capacity - size ∧ (first.toInt + i) * size < 2 ^ 24 := by
  obtain ⟨hfirst, hcount, -, hfit⟩ := erase_units_fit (Geom.ofRow r) r rfl first count size h
  obtain ⟨hsector, hblock, -, hcap⟩ := Geom.sizes r hr
  have hsize : 1 ≤ size := by omega
  have hunit : zext first + i + 1 ≤ zext first + zext count := by
    rw [sext] at hcount
    omega
  have hend : (zext first + i) * size + size ≤ (Geom.ofRow r).capacity := by
    rw [← Nat.succ_mul]
    exact (Nat.mul_le_mul_right size hunit).trans hfit
  have hcast : (first.toInt + i) * size = ((zext first + i) * size : Nat) := by
    rw [Nat.cast_mul, Nat.cast_add, ← hfirst, sext]
  omega

/-! ### The check of a write -/

/-- `NullBuffer` comes before any range (R108, R192). -/
theorem exec_nullBuffer {s : State} (a n off bl : Word) (hp : s.phase = .idle) (hc : s.cfgStatus = .cfgOk) :
    ∃ t, exec (.write a n off false bl) s = .next t ∧
      Responded 2#3 [] (acceptedAs { s.latch with
        op := OpCode.write, argA := a, argB := n, argOff := off, bufPresent := false, bufLen := bl } s) t :=
  ⟨_, exec_accept_ready (.write a n off false bl) s _ _ rfl hp hc, raise_responded .nullBuffer _⟩

end Sys2Proof.Machine
end

section
open Sys2Proof Sys2Proof.Machine

/-- Settles O8: the variant's row is well-formed, and that bounds its sizes. -/
theorem romBoundsEverySize : Obligations.RomBoundsEverySize := by
  intro p v g hwf hlook
  obtain ⟨row, -, hrow, rfl⟩ := geomLookup_some p v g hwf hlook
  obtain ⟨hsector, hblock, hcap, htop⟩ := Geom.sizes row hrow
  exact ⟨hsector, hblock, hcap, htop, Geom.sectors_le hrow⟩

/-- Settles O13: the sector size is a positive factor of both sides. -/
theorem sectorCheckIsCountCheck : Obligations.SectorCheckIsCountCheck := by
  intro p v g sector count hwf hlook
  obtain ⟨row, -, hrow, rfl⟩ := geomLookup_some p v g hwf hlook
  have hfit := Geom.sectors_fit_iff hrow (sector.toInt + count.toInt)
  exact ⟨hfit, (eraseSectorInRange_iff _ _ _).trans (and_congr_right' (and_congr_right' hfit))⟩

/-- Settles O14: a write's range is one a read passes, and an erase's units end within the capacity. -/
theorem validationBoundsEveryAddress : Obligations.ValidationBoundsEveryAddress := by
  intro p v g hwf hlook
  obtain ⟨row, -, hrow, rfl⟩ := geomLookup_some p v g hwf hlook
  obtain ⟨-, -, -, hcap⟩ := Geom.sizes row hrow
  refine ⟨hcap, fun a n h => readInRange_bounds hcap h, fun a n off bl h => ?_,
    fun b n h i hi => eraseUnit_bounds hrow (Or.inl ⟨h, rfl⟩) hi,
    fun x n h i hi => eraseUnit_bounds hrow (Or.inr ⟨h, rfl⟩) hi⟩
  obtain ⟨haddr, hend, hfield, hbytes⟩ := readInRange_bounds hcap (readInRange_of_writeInRange h).1
  refine ⟨haddr, hend, hfield, fun j hj => ?_⟩
  obtain ⟨hin, hlow⟩ := hbytes j hj
  exact ⟨hin, hlow, writeInRange_bufIdx_lt h hj⟩

/-- Settles O20, by the buffer and then the range of R108; with a buffer, a write is a range-checked operation like the others. -/
theorem writeIsChecked : Obligations.WriteIsChecked := by
  intro s address length offset bufLen present hp hc
  have hrange := writeInRange_iff s.geom address length offset bufLen
  refine ⟨?_, ?_, ?_⟩
  · rintro rfl
    exact exec_nullBuffer address length offset bufLen hp hc
  · rintro rfl h
    exact exec_outOfRange (i := .write address length offset true bufLen) rfl hp hc (mt hrange.1 h)
  · rintro rfl h
    exact exec_inRange (i := .write address length offset true bufLen) rfl hp hc (hrange.2 h)

/-- Settles O7: the row is what the lookup finds, and the capacity factors by pages, blocks and sectors. -/
theorem geometryIsDerivedFromRom : Obligations.GeometryIsDerivedFromRom := by
  intro p v r _ hr
  refine ⟨Geom.ofRow r, geomLookup_of_row hr, rfl, rfl, rfl, rfl, rfl, Geom.ofRow_pageSize r, rfl, Geom.ofRow_blockSize r, rfl,
    ?_, Geom.ofRow_capacity r, Geom.ofRow_capacity_sectors r⟩
  rw [Geom.ofRow_capacity_pages]
  exact Nat.mul_mod_right _ _

end

section
/-! PROOFS. The family 41_framer_transport_poll.md: the framer, the calls a script answers, a poll of any length, and the erase operations
call by call (R120 to R125, R134 to R141, R160 to R163, R210). -/

namespace Sys2Proof.Machine

/-! ### Calls that succeed -/

/-- Calls that succeeded have left the events `evs` in the trace and the script `rest` to answer the calls to come (R25). -/
def State.afterCalls (s : State) (rest : List Reply) (evs : List Event) : State :=
  { s with oracle := .script rest, freeCtr := s.freeCtr + evs.length, trace := s.trace ++ evs }

section
variable (s : State) (rest : List Reply) (evs : List Event)

/-- One call that is answered by the script. -/
theorem State.recordCall_script (ev : Event) : s.recordCall (.script rest) ev = s.afterCalls rest [ev] := rfl

@[simp] theorem State.afterCalls_afterCalls (more : List Reply) (evs' : List Event) :
    (s.afterCalls rest evs).afterCalls more evs' = s.afterCalls more (evs ++ evs') := by
  simp [State.afterCalls, Nat.add_assoc]

theorem State.setPhase_afterCalls (ph : Phase) : (s.setPhase ph).afterCalls rest evs = (s.afterCalls rest evs).setPhase ph :=
  rfl

theorem State.setSeq_afterCalls (q : Seq) : (s.setSeq q).afterCalls rest evs = (s.afterCalls rest evs).setSeq q := rfl

variable {s rest}

theorem State.afterCalls_nil (ho : s.oracle = .script rest) : s.afterCalls rest [] = s := by
  rw [State.afterCalls, ← ho, List.append_nil]
  rfl

theorem State.setPhase_self {ph : Phase} (hp : s.phase = ph) : s.setPhase ph = s := by
  rw [State.setPhase, ← hp]

end

/-! ### One command, answered by the script -/

/-- A mutating operation is latched (R72, classes E and W of R19), and no reset is asserted. -/
structure Mutating (s : State) : Prop where
  resetIn : s.resetIn = none
  one_le : 1 ≤ s.latch.op.toNat
  le_four : s.latch.op.toNat ≤ 4

/-- A poll of a mutating operation is under way. -/
structure Polling (s : State) : Prop extends Mutating s where
  phase : s.phase = .prePoll ∨ s.phase = .postPoll

theorem Mutating.afterCalls {s : State} (h : Mutating s) (rest : List Reply) (evs : List Event) :
    Mutating (s.afterCalls rest evs) := ⟨h.resetIn, h.one_le, h.le_four⟩

theorem Polling.afterCalls {s : State} (h : Polling s) (rest : List Reply) (evs : List Event) :
    Polling (s.afterCalls rest evs) := ⟨h.toMutating.afterCalls rest evs, h.phase⟩

theorem Mutating.of_erase {s : State} (hr : s.resetIn = none)
    (hop : s.latch.op = 1#4 ∨ s.latch.op = 2#4 ∨ s.latch.op = 3#4) : Mutating s := by
  rcases hop with hop | hop | hop <;> exact ⟨hr, hop ▸ by decide, hop ▸ by decide⟩

section
variable {s : State} {rest : List Reply}

/-- A `Send` that succeeds: what is received is lost (R120). -/
theorem step_send {i : Instr} {tx rx : List Byte} {g : State → State} (hr : s.resetIn = none) (hp : s.phase ≠ .idle)
    (hsel : selectCommand s = .ok i) (hparts : commandParts s.params i = some (.send, tx, fun _ t => g t))
    (ho : s.oracle = .script (.ok rx :: rest)) : step s = .next (g (s.afterCalls rest [.sendOnly tx])) := by
  have ha : s.oracle.answer s.params s.freeCtr tx = (.ok (fitBytes s.freeCtr tx.length rx), .script rest) := by
    rw [ho]
    rfl
  rw [← State.recordCall_script]
  exact step_answered hr hp hsel hparts ha

theorem step_wren_erase (hr : s.resetIn = none) (hp : s.phase = .wren)
    (hop : s.latch.op = 1#4 ∨ s.latch.op = 2#4 ∨ s.latch.op = 3#4) (ho : s.oracle = .script (.ok [] :: rest)) :
    step s = .next ((s.afterCalls rest [.sendOnly [s.params.opcWren]]).setPhase .issue) := by
  have hm := Mutating.of_erase hr hop
  have hsend := step_send hr (by rw [hp]; decide) (selectCommand_wren hp hm.one_le hm.le_four) rfl ho
  exact hsend.trans (congrArg _ (afterWren_erase (s := s.afterCalls rest _) hp hop))

/-- A status read of a poll: the second byte decides (R127, R137). -/
theorem step_poll (h : Polling s) {a : Byte × Byte} (ho : s.oracle = .script (.ok [a.1, a.2] :: rest)) :
    step s = .next (afterStatus a.2
      (s.afterCalls rest [.exchange [s.params.opcRdsr, s.params.fill] [a.1, a.2]])) := by
  have hne : s.phase ≠ .idle := by rcases h.phase with hp | hp <;> rw [hp] <;> decide
  have ha : s.oracle.answer s.params s.freeCtr (frameRdsr s.params) = (.ok [a.1, a.2], .script rest) := by
    rw [ho]
    exact script_answer_two s.params s.freeCtr _ _ _ _ rest
  rw [← State.recordCall_script]
  exact step_answered h.resetIn hne (selectCommand_poll h.phase h.one_le h.le_four) rfl ha

end

/-! ### A poll (R139) -/

/-- The events of the status reads answered by `answers`. -/
def statusReads (p : Params) (answers : List (Byte × Byte)) : List Event :=
  answers.map (fun a => .exchange [p.opcRdsr, p.fill] [a.1, a.2])

theorem Poll.replies_length (x : Poll) : x.replies.length = x.whileBusy.length + 1 := by simp [Poll.replies]

theorem Poll.events_eq (p : Params) (x : Poll) : x.events p = statusReads p x.whileBusy ++ statusReads p [x.last] :=
  List.map_append

/-- As long as the chip answers busy the poll goes on, and nothing else changes (R140, R210). -/
theorem run_busy {rest : List Reply} (answers : List (Byte × Byte)) : ∀ {s : State}, Polling s →
    (∀ a ∈ answers, a.2.getLsbD 0 = true) →
    s.oracle = .script (answers.map (fun a => .ok [a.1, a.2]) ++ rest) →
    run answers.length s = .next (s.afterCalls rest (statusReads s.params answers)) := by
  induction answers with
  | nil =>
    intro s _ _ ho
    exact congrArg _ (State.afterCalls_nil ho).symm
  | cons a answers ih =>
    intro s h hbusy ho
    obtain ⟨hb, hbusy⟩ := List.forall_mem_cons.1 hbusy
    have hstep := step_poll h ho
    rw [afterStatus_busy (s := s.afterCalls _ _) h.phase hb] at hstep
    have hrun := ih (h.afterCalls _ (statusReads s.params [a])) hbusy rfl
    rw [State.afterCalls_afterCalls] at hrun
    exact (run_succ _ hstep).trans hrun

/-- A poll is one status read for each busy answer and one more, and its last answer is acted upon (R139). -/
theorem run_poll {s : State} {x : Poll} {rest : List Reply} (h : Polling s) (hx : x.ok)
    (ho : s.oracle = .script (x.replies ++ rest)) :
    run x.replies.length s = .next (afterStatus x.last.2 (s.afterCalls rest (x.events s.params))) := by
  rw [Poll.replies, List.map_append, List.append_assoc] at ho
  have hbusy := run_busy x.whileBusy h hx.1 ho
  have hlast := step_poll (rest := rest) (a := x.last) (h.afterCalls _ (statusReads s.params x.whileBusy)) rfl
  rw [State.afterCalls_afterCalls] at hlast
  rw [Poll.replies_length, Poll.events_eq, run_add _ _ hbusy]
  exact run_one hlast

/-- Behind PRE_POLL an erase goes on to WREN and a write to its first chunk (R19, R139). -/
theorem afterStatus_prePoll {s : State} {status : Byte} (h : Mutating s) (hp : s.phase = .prePoll)
    (hb : busy status = false) : afterStatus status s = s.setPhase (if s.latch.op = 4#4 then .issue else .wren) := by
  rcases mutating_cases _ h.one_le h.le_four with ⟨hclass, hne⟩ | ⟨-, hop⟩
  · rw [if_neg hne, afterStatus_prePoll_erase hp hb ((routeClass_e _).1 hclass)]
  · rw [if_pos hop, afterStatus_prePoll_write hp hb hop]

theorem run_prePoll {s : State} {x : Poll} {rest : List Reply} (h : Mutating s) (hp : s.phase = .prePoll) (hx : x.ok)
    (ho : s.oracle = .script (x.replies ++ rest)) : run x.replies.length s =
      .next ((s.afterCalls rest (x.events s.params)).setPhase (if s.latch.op = 4#4 then .issue else .wren)) :=
  (run_poll ⟨h, Or.inl hp⟩ hx ho).trans (congrArg _ (afterStatus_prePoll (h.afterCalls rest _) hp hx.2))

/-- One unit of a mutating operation: its command and the poll behind it (R19 steps ISSUE and POST_POLL). -/
theorem run_unit {s : State} {i : Instr} {tx : List Byte} {x : Poll} {rest : List Reply} (h : Mutating s)
    (hp : s.phase = .issue) (hsel : mutatingCommand s = .ok i)
    (hparts : commandParts s.params i = some (.send, tx, fun _ t => afterMutating t)) (hx : x.ok)
    (ho : s.oracle = .script (.ok [] :: (x.replies ++ rest))) : run (1 + x.replies.length) s =
      .next (advance ((s.afterCalls rest (.sendOnly tx :: x.events s.params)).setPhase .postPoll)) := by
  have hsend := step_send h.resetIn (by rw [hp]; decide) ((selectCommand_issue hp).trans hsel) hparts ho
  rw [afterMutating_issue (s := s.afterCalls _ _) hp] at hsend
  have hpoll := run_poll (s := (s.afterCalls _ [.sendOnly tx]).setPhase .postPoll) (rest := rest)
    ⟨⟨h.resetIn, h.one_le, h.le_four⟩, Or.inr rfl⟩ hx rfl
  rw [afterStatus_postPoll (s := State.afterCalls _ _ _) rfl hx.2, State.setPhase_afterCalls,
    State.afterCalls_afterCalls] at hpoll
  exact (run_add _ _ (run_one hsend)).trans hpoll

/-! ### The units of an erase (R162, R163) -/

/-- ISSUE of unit `k` of an `eraseBlock` or `eraseSector` from unit `first` on, with `n` units of `size` bytes still to erase by
the opcode `opc`. -/
structure ErasingUnit (opc : Byte) (first size k n : Nat) (s : State) : Prop where
  resetIn : s.resetIn = none
  phase : s.phase = .issue
  op : (s.latch.op = 2#4 ∧ opc = s.params.opcBe) ∨ (s.latch.op = 3#4 ∧ opc = s.params.opcSe)
  curAddr : zext s.seq.curAddr = (first + k) * size
  stride : zext s.seq.stride = size
  nLeft : zext s.seq.nLeft = n
  fits : (first + k + n) * size ≤ 2 ^ 24

/-- The frame of unit `k` (R131, R132). -/
def eraseFrame (opc : Byte) (first size k : Nat) : List Byte := frame4 opc (BitVec.ofNat 32 ((first + k) * size))

section
variable {opc : Byte} {first size k n : Nat} {s : State} (h : ErasingUnit opc first size k n s)
include h

theorem ErasingUnit.frame : frame4 opc s.seq.curAddr = eraseFrame opc first size k := by
  have hcur : BitVec.ofNat 32 (zext s.seq.curAddr) = s.seq.curAddr := BitVec.ofNat_toNat 32 _
  rw [eraseFrame, ← h.curAddr, hcur]

/-- The command of the unit, with its frame. -/
theorem ErasingUnit.command : ∃ i, mutatingCommand s = .ok i ∧
    commandParts s.params i = some (.send, eraseFrame opc first size k, fun _ t => afterMutating t) := by
  rw [← h.frame]
  rcases h.op with ⟨hop, hopc⟩ | ⟨hop, hopc⟩ <;> rw [hopc, mutatingCommand, hop] <;> exact ⟨_, rfl, rfl⟩

/-- The next address fits its register (R112). -/
theorem ErasingUnit.next_lt (hn : 1 ≤ n) : (first + k) * size + size < 2 ^ 32 := by
  have hle : (first + k + 1) * size ≤ (first + k + n) * size := Nat.mul_le_mul_right size (by omega)
  have hfits := h.fits
  rw [Nat.succ_mul] at hle
  omega

/-- A unit and its poll: the last one ends the operation, and any other leaves the machine in ISSUE of the next. -/
theorem ErasingUnit.run_unit {x : Poll} {rest : List Reply} (hn : 1 ≤ n) (hx : x.ok)
    (ho : s.oracle = .script (.ok [] :: (x.replies ++ rest))) :
    ∃ q t, run (1 + x.replies.length) s = .next t ∧
      (n = 1 → Responded 0#3 []
        ((s.afterCalls rest (.sendOnly (eraseFrame opc first size k) :: x.events s.params)).setSeq q) t) ∧
      (1 < n → t = (s.afterCalls rest (.sendOnly (eraseFrame opc first size k) :: x.events s.params)).setSeq q ∧
        ErasingUnit opc first size (k + 1) (n - 1) t) := by
  have hop : s.latch.op = 2#4 ∨ s.latch.op = 3#4 := h.op.imp And.left And.left
  obtain ⟨i, hsel, hparts⟩ := h.command
  have hrun := Machine.run_unit (.of_erase h.resetIn (Or.inr hop)) h.phase hsel hparts hx ho
  let c := s.afterCalls rest (.sendOnly (eraseFrame opc first size k) :: x.events s.params)
  obtain ⟨hcur, hleft, hmore, hlast⟩ := advance_unit (c := c.setPhase .postPoll) hop
    (show zext s.seq.curAddr + zext s.seq.stride < 2 ^ 32 by rw [h.curAddr, h.stride]; exact h.next_lt hn)
  refine ⟨_, _, hrun, fun h1 => hlast (h.nLeft.trans h1), fun h1 => ?_⟩
  have hnext := hmore (h.nLeft.symm ▸ h1)
  have hissue : advance (c.setPhase .postPoll) = c.setSeq { s.seq with
      curAddr := (advance (c.setPhase .postPoll)).seq.curAddr, nLeft := (advance (c.setPhase .postPoll)).seq.nLeft } :=
    hnext.trans (congrArg (State.setSeq · _) (State.setPhase_self (s := c) h.phase))
  exact ⟨hissue, {
    resetIn := by rw [hissue]; exact h.resetIn
    phase := by rw [hnext]
    op := by rw [hissue]; exact h.op
    curAddr := by rw [hcur, ← Nat.add_assoc, Nat.succ_mul]; exact congrArg₂ _ h.curAddr h.stride
    stride := by rw [hissue]; exact h.stride
    nLeft := by rw [hleft]; exact congrArg (· - 1) h.nLeft
    fits := by rw [← Nat.add_assoc, Nat.add_assoc _ 1, Nat.add_sub_of_le hn]; exact h.fits }⟩

end

/-- From unit `k` on: each unit that is left, with its poll, and then `OK`. -/
theorem run_units {opc : Byte} {first size : Nat} {more : List Reply} (polls : List Poll) :
    ∀ {k : Nat} {s : State} {x : Poll}, ErasingUnit opc first size k (x :: polls).length s → (∀ y ∈ x :: polls, y.ok) →
    s.oracle = .script (unitReplies (x :: polls) ++ more) →
    ∃ q t, run (unitReplies (x :: polls)).length s = .next t ∧ Responded 0#3 []
      ((s.afterCalls more (unitEvents s.params (eraseFrame opc first size) k (x :: polls))).setSeq q) t := by
  induction polls with
  | nil =>
    intro k s x h hok ho
    have ho' : s.oracle = .script (.ok [] :: (x.replies ++ more)) := by simpa [unitReplies] using ho
    obtain ⟨q, t, hrun, hlast, -⟩ := h.run_unit (Nat.le_refl 1) (hok x List.mem_cons_self) ho'
    refine ⟨q, t, ?_, ?_⟩
    · simpa [unitReplies, Nat.add_comm] using hrun
    · simpa [unitEvents] using hlast rfl
  | cons y polls ih =>
    intro k s x h hok ho
    obtain ⟨hx, hok⟩ := List.forall_mem_cons.1 hok
    have ho' : s.oracle = .script (.ok [] :: (x.replies ++ (unitReplies (y :: polls) ++ more))) := by
      simpa [unitReplies] using ho
    obtain ⟨q, t, hrun, -, hmore⟩ := h.run_unit (Nat.le_add_left 1 _) hx ho'
    obtain ⟨rfl, hnext⟩ := hmore (Nat.succ_lt_succ (Nat.succ_pos _))
    obtain ⟨q', t, hrun', hresp⟩ := ih hnext hok rfl
    refine ⟨q', t, ?_, ?_⟩
    · have hlen : (unitReplies (x :: y :: polls)).length = 1 + x.replies.length + (unitReplies (y :: polls)).length := by
        simp [unitReplies, Nat.add_comm, Nat.add_assoc]
      rw [hlen, run_add _ _ hrun, hrun']
    · rw [State.setSeq_afterCalls, State.afterCalls_afterCalls] at hresp
      exact hresp

/-! ### An erase, from its request to its response (R160) -/

/-- The state behind the ACCEPT of an erase, with the latch `l` and the sequencing registers `q` (R19). -/
def eraseAccepted (l : Latch) (q : Seq) (r : Request) (rest : List Request) (s : State) : State :=
  { s with
    phase := .prePoll, seq := q, accepted := s.accepted + 1, requests := rest, payload := r.payload, latch := l }

theorem step_erase {s : State} {r : Request} {rest : List Request} {i : Instr} {l : Latch} {q : Seq} (hr : s.resetIn = none)
    (hp : s.phase = .idle) (hc : s.cfgStatus = .cfgOk) (hq : s.requests = r :: rest) (hd : decodeRequest r.words = .ok i)
    (hstart : exec i (takeRequest r rest s) =
      .next (((acceptedAs l (takeRequest r rest s)).setSeq q).setPhase .prePoll)) :
    step s = .next (eraseAccepted l q r rest s) := by
  rw [step_runs s r rest i hr hp hc hq hd, hstart]
  cases s
  rfl

/-- The ACCEPT of an `eraseBlock` or `eraseSector` that passes its check (R109, R110, R162, R163). -/
theorem step_erase_checked {s : State} {r : Request} {rest : List Request} {first count : Word} {opc : Byte} {size : Nat}
    (hr : s.resetIn = none) (hp : s.phase = .idle) (hc : s.cfgStatus = .cfgOk) (hq : s.requests = r :: rest)
    (h : (decodeRequest r.words = .ok (.eraseBlock first count) ∧ eraseBlockInRange s.geom first count = true ∧
        opc = s.params.opcBe ∧ size = s.geom.blockSize) ∨
      (decodeRequest r.words = .ok (.eraseSector first count) ∧ eraseSectorInRange s.geom first count = true ∧
        opc = s.params.opcSe ∧ size = s.geom.sectorSize)) :
    ∃ l, step s = .next (eraseAccepted l (eraseStart size first count s.seq) r rest s) ∧
      ((l.op = 2#4 ∧ opc = s.params.opcBe) ∨ (l.op = 3#4 ∧ opc = s.params.opcSe)) ∧
      ((eraseBlockInRange s.geom first count = true ∧ size = s.geom.blockSize) ∨
        (eraseSectorInRange s.geom first count = true ∧ size = s.geom.sectorSize)) := by
  rcases h with ⟨hd, hin, hopc, rfl⟩ | ⟨hd, hin, hopc, rfl⟩
  · have hstart := exec_inRange (i := .eraseBlock first count) (s := takeRequest r rest s) rfl hp hc hin
    exact ⟨_, step_erase hr hp hc hq hd hstart, Or.inl ⟨rfl, hopc⟩, Or.inl ⟨hin, rfl⟩⟩
  · have hstart := exec_inRange (i := .eraseSector first count) (s := takeRequest r rest s) rfl hp hc hin
    exact ⟨_, step_erase hr hp hc hq hd hstart, Or.inr ⟨rfl, hopc⟩, Or.inr ⟨hin, rfl⟩⟩

/-- The state in ISSUE of the first command of an erase accepted in `u`: the poll `x` is over, and WREN is sent. -/
def eraseOpened (x : Poll) (script : List Reply) (u : State) : State :=
  (u.afterCalls script (x.events u.params ++ [.sendOnly [u.params.opcWren]])).setPhase .issue

section
variable {u : State} {x : Poll} (hr : u.resetIn = none) (hp : u.phase = .prePoll)
  (hop : u.latch.op = 1#4 ∨ u.latch.op = 2#4 ∨ u.latch.op = 3#4) (hx : x.ok)
include hr hp hop hx

/-- Behind its ACCEPT every erase makes one poll and sends one WREN. -/
theorem run_erase_opening {script : List Reply} (ho : u.oracle = .script (x.replies ++ .ok [] :: script)) :
    run (x.replies.length + 1) u = .next (eraseOpened x script u) := by
  have hpoll := run_prePoll (.of_erase hr hop) hp hx ho
  have hne : ¬ u.latch.op = 4#4 := by rcases hop with hop | hop | hop <;> rw [hop] <;> decide
  rw [if_neg hne] at hpoll
  have hwren := step_wren_erase (s := (u.afterCalls _ (x.events u.params)).setPhase .wren) (rest := script) hr rfl hop rfl
  rw [State.setPhase_afterCalls, State.afterCalls_afterCalls] at hwren
  exact (run_add _ _ hpoll).trans (run_one hwren)

/-- An erase whose commands behind the opening end in `OK`: what the whole run leaves. -/
theorem run_erase {s : State} {replies more : List Reply} {evs : List Event} (hstep : step s = .next u)
    (ho : u.oracle = .script (x.replies ++ .ok [] :: (replies ++ more)))
    (hunits : ∃ q t, run replies.length (eraseOpened x (replies ++ more) u) = .next t ∧
      Responded 0#3 [] (((eraseOpened x (replies ++ more) u).afterCalls more evs).setSeq q) t) :
    ∃ t, run (1 + x.replies.length + 1 + replies.length) s = .next t ∧ t.phase = .idle ∧ t.resp.code = 0#3 ∧
      t.resp.data = [] ∧ t.requests = u.requests ∧ t.oracle = .script more ∧ t.responses = u.responses ++ [t.resp] ∧
      t.trace = u.trace ++ x.events u.params ++ .sendOnly [u.params.opcWren] :: evs := by
  obtain ⟨q, t, hrun, hcode, hdata, ht⟩ := hunits
  have hopen := run_erase_opening hr hp hop hx ho
  refine ⟨t, ?_, by rw [ht], hcode, hdata, by rw [ht]; rfl, by rw [ht]; rfl, by rw [ht]; rfl, ?_⟩
  · rw [Nat.add_assoc 1, Nat.add_assoc 1, Nat.add_comm 1, run_succ _ hstep, run_add _ _ hopen, hrun]
  · rw [ht]
    simp [State.afterCalls, eraseOpened]

end

/-- A valid `eraseBlock` or `eraseSector` is in ISSUE of its first unit behind its opening. -/
theorem erasingUnit_opened {u : State} {g : Geom} {row : GeomRow} {first count : Word} {opc : Byte} {size : Nat} {q : Seq}
    {x : Poll} {script : List Reply} (hrow : row.wf = true) (hg : g = Geom.ofRow row)
    (hin : (eraseBlockInRange g first count = true ∧ size = g.blockSize) ∨
      (eraseSectorInRange g first count = true ∧ size = g.sectorSize))
    (hr : u.resetIn = none) (hseq : u.seq = eraseStart size first count q)
    (hop : (u.latch.op = 2#4 ∧ opc = u.params.opcBe) ∨ (u.latch.op = 3#4 ∧ opc = u.params.opcSe)) :
    ErasingUnit opc (zext first) size 0 (zext count) (eraseOpened x script u) := by
  obtain ⟨hcur, hstride⟩ := eraseStart_fields hrow hg first count size q hin
  obtain ⟨-, -, -, hfit⟩ := erase_units_fit g row hg first count size hin
  obtain ⟨-, -, -, hcap⟩ := Geom.sizes row hrow
  rw [← hseq] at hcur hstride
  have hleft : zext u.seq.nLeft = zext count := by rw [hseq]; rfl
  exact ⟨hr, rfl, hop, hcur, hstride, hleft, hfit.trans (hg ▸ hcap)⟩

/-- The one command of an `eraseChip` and its poll (R161). -/
theorem run_chip {s : State} {x : Poll} {more : List Reply} (hr : s.resetIn = none) (hp : s.phase = .issue)
    (hop : s.latch.op = 1#4) (hn : zext s.seq.nLeft = 1) (hx : x.ok)
    (ho : s.oracle = .script (.ok [] :: (x.replies ++ more))) :
    ∃ q t, run (1 + x.replies.length) s = .next t ∧ Responded 0#3 []
      ((s.afterCalls more (.sendOnly [s.params.opcCe] :: x.events s.params)).setSeq q) t := by
  have hsel : mutatingCommand s = .ok .spiCe := by
    rw [mutatingCommand, hop]
    rfl
  exact ⟨_, _, run_unit (.of_erase hr (Or.inl hop)) hp hsel rfl hx ho,
    advance_chip (c := (s.afterCalls _ _).setPhase .postPoll) hop hn⟩

/-! ### A power command (R134, R135) -/

theorem exec_power {s : State} {i : Instr} {tx rx : List Byte} {o : Oracle}
    (hparts : commandParts s.params i = some (.send, tx, fun _ t => afterTransfer [] t)) (hp : s.phase = .xfer)
    (ha : s.oracle.answer s.params s.freeCtr tx = (.ok rx, o)) :
    ∃ t, exec i s = .next t ∧ Responded 0#3 [] (s.recordCall o (.sendOnly tx)) t := by
  rw [exec_command i s _ _ _ hparts, command_ok _ _ _ _ s o ha]
  exact ⟨_, congrArg _ (afterTransfer_xfer (s := s.recordCall o _) [] hp), respondOk_responded [] _⟩

end Sys2Proof.Machine
end

section
open Sys2Proof Sys2Proof.Machine

/-- Settles O47, by induction on the busy answers (`run_busy`). -/
theorem busyChipHoldsThePoll : Obligations.BusyChipHoldsThePoll := by
  intro s answers rest hr hp h1 h4 hbusy ho
  rw [run_busy answers ⟨⟨hr, h1, h4⟩, hp⟩ hbusy ho, State.afterCalls, statusReads, List.length_map]

/-- Settles O48: the last answer ends the poll, and the class of the operation tells the next phase. -/
theorem pollEndsAtTheFirstNotBusy : Obligations.PollEndsAtTheFirstNotBusy := by
  intro s x rest hr hp h1 h4 hx ho
  have hlen : (x.events s.params).length = x.whileBusy.length + 1 := by simp [Poll.events]
  rw [← Poll.replies_length, run_prePoll ⟨hr, h1, h4⟩ hp hx ho, State.afterCalls, hlen, Poll.replies_length]
  rfl

/-- Settles O50: the accept, the opening, and then the units by induction (`run_units`). -/
theorem eraseRunsUnitByUnit : Obligations.EraseRunsUnitByUnit := by
  intro s r rest first count opc size poll0 polls more hi hr hp hc hq hop hx hok hlen ho
  obtain ⟨row, -, hrow, hg⟩ := geomLookup_some _ _ _ hi.params (hi.geometry hc)
  obtain ⟨l, hstep, hl, hin⟩ := step_erase_checked hr hp hc hq hop
  obtain ⟨-, -, hpos, -⟩ := erase_units_fit s.geom row hg first count size hin
  obtain ⟨y, ys, rfl⟩ := List.exists_cons_of_length_pos (hlen ▸ hpos : 0 < polls.length)
  let u := eraseAccepted l (eraseStart size first count s.seq) r rest s
  have hfirst : ErasingUnit opc (zext first) size 0 (y :: ys).length (eraseOpened poll0 (unitReplies (y :: ys) ++ more) u) :=
    hlen ▸ erasingUnit_opened hrow hg hin hr rfl hl
  exact run_erase (u := u) hr rfl (Or.inr (hl.imp And.left And.left)) hx hstep ho (run_units ys hfirst hok rfl)

/-- Settles O51: the accept, the opening, and then its one unit. -/
theorem eraseChipRuns : Obligations.EraseChipRuns := by
  intro s r rest poll0 poll1 more _ hr hp hc hq hd hx0 hx1 ho
  have hstep := step_erase hr hp hc hq hd (exec_accept_ready .eraseChip (takeRequest r rest s) _ _ rfl hp hc)
  let u := eraseAccepted { latchOf r.words with op := OpCode.eraseChip } { s.seq with nLeft := 1#32 } r rest s
  have hchip := run_chip (s := eraseOpened poll0 (.ok [] :: (poll1.replies ++ more)) u) hr rfl rfl rfl hx1 rfl
  rw [Nat.add_comm] at hchip
  have hrun := run_erase (u := u) (replies := .ok [] :: poll1.replies) hr rfl (Or.inl rfl) hx0 hstep ho hchip
  rwa [List.length_cons, Nat.add_comm poll1.replies.length, ← Nat.add_assoc] at hrun

/-- Settles O6: the framer's bytes are the encoding table's address field (`frame4_eq`). -/
theorem framerIsBigEndian : Obligations.FramerIsBigEndian := by
  refine ⟨fun _ => rfl, frame4_eq, fun opc => ?_⟩
  rw [frame4_eq]
  rfl

/-- Settles O27: both commands have the same continuation. -/
theorem powerCommandsSendAndRespond : Obligations.PowerCommandsSendAndRespond :=
  fun _ _ _ hp => ⟨exec_power (i := .spiDp) rfl hp, exec_power (i := .spiRes) rfl hp⟩

end

section
/-! PROOFS. The family 44_ops_write.md: a valid write call by call, and the split of its payload (R170 to R174). -/

namespace Sys2Proof.Machine

/-! ### The opening of a write (R170) -/

/-- The ACCEPT of a write that passes its checks, whatever answers its calls (R108, R170). -/
theorem step_accepts_write {s : State} {r : Request} {rest : List Request} {a n off bl : Word} (hr : s.resetIn = none)
    (hp : s.phase = .idle) (hc : s.cfgStatus = .cfgOk) (hq : s.requests = r :: rest)
    (hd : decodeRequest r.words = .ok (.write a n off true bl)) (hin : writeInRange s.geom a n off bl = true) :
    step s = .next (writeAccepted r rest a n off bl s) := by
  have hexec := exec_accept_ready (.write a n off true bl) (takeRequest r rest s) _ _ rfl hp hc
  rw [requireBuffer, if_pos rfl, takeRequest_geom, hin, requireRange_true] at hexec
  rw [step_runs s r rest _ hr hp hc hq hd, hexec]
  cases s
  rfl

/-- The state in ISSUE of the first chunk of a write accepted in `u`: WREN is sent, and the poll `x` is over. -/
def writeOpened (x : Poll) (script : List Reply) (u : State) : State :=
  (u.afterCalls script (.sendOnly [u.params.opcWren] :: x.events u.params)).setPhase .issue

theorem Mutating.of_write {s : State} (hr : s.resetIn = none) (hop : s.latch.op = 4#4) : Mutating s :=
  ⟨hr, hop ▸ by decide, hop ▸ by decide⟩

theorem run_prePoll_write {s : State} {x : Poll} {rest : List Reply} (hr : s.resetIn = none) (hp : s.phase = .prePoll)
    (hop : s.latch.op = 4#4) (hx : x.ok) (ho : s.oracle = .script (x.replies ++ rest)) :
    run x.replies.length s = .next ((s.afterCalls rest (x.events s.params)).setPhase .issue) := by
  rw [run_prePoll (.of_write hr hop) hp hx ho, if_pos hop]

/-- Behind its ACCEPT a write sends one WREN and makes one poll. -/
theorem run_write_opening {u : State} {x : Poll} {script : List Reply} (hr : u.resetIn = none) (hp : u.phase = .wren)
    (hop : u.latch.op = 4#4) (hx : x.ok) (ho : u.oracle = .script (.ok [] :: (x.replies ++ script))) :
    run (1 + x.replies.length) u = .next (writeOpened x script u) := by
  have hm := Mutating.of_write hr hop
  have hwren := step_send hr (by rw [hp]; decide) (selectCommand_wren hp hm.one_le hm.le_four) rfl ho
  rw [afterWren_write (s := u.afterCalls _ _) hp hop] at hwren
  have hpoll := run_prePoll_write (s := (u.afterCalls _ [.sendOnly [u.params.opcWren]]).setPhase .prePoll) (rest := script)
    hr rfl hop hx rfl
  rw [State.setPhase_afterCalls, State.afterCalls_afterCalls] at hpoll
  exact (run_add _ _ (run_one hwren)).trans hpoll

/-! ### The chunks of a payload (R171, R173) -/

/-- The frame of the chunk with the payload position `256 * k` (R130, R171). -/
def chunkFrame (opc : Byte) (m : Memory) (address offset length k : Nat) : List Byte :=
  frame4 opc (BitVec.ofNat 32 (address + 256 * k)) ++ m.readRange (offset + 256 * k) (min 256 (length - 256 * k))

/-- ISSUE of chunk `k` of a write of `length` bytes to `address`, from byte `offset` of the buffer `m` on. -/
structure WritingChunk (m : Memory) (address offset length k : Nat) (s : State) : Prop where
  resetIn : s.resetIn = none
  phase : s.phase = .issue
  op : s.latch.op = 4#4
  payload : s.payload = m
  pageSize : s.geom.pageSize = 256
  curAddr : zext s.seq.curAddr = address + 256 * k
  bufIdx : zext s.seq.bufIdx = offset + 256 * k
  bytesLeft : zext s.seq.bytesLeft = length - 256 * k
  unsent : 256 * k < length
  fits : address + length ≤ 2 ^ 24
  inBuffer : offset + length ≤ zext s.latch.bufLen

section
variable {m : Memory} {address offset length k : Nat} {s : State} (h : WritingChunk m address offset length k s)
include h

theorem WritingChunk.chunkLength_eq : chunkLength s = min 256 (length - 256 * k) := by
  rw [chunkLength, h.bytesLeft, h.pageSize, Nat.min_comm]

/-- The page-program of the chunk, with its frame: its payload bytes exist (R42). -/
theorem WritingChunk.command : ∃ i, mutatingCommand s = .ok i ∧ commandParts s.params i =
    some (.send, chunkFrame s.params.opcPp m address offset length k, fun _ t => afterMutating t) := by
  have hin : zext s.seq.bufIdx + chunkLength s ≤ zext s.latch.bufLen := by
    have hbuf := h.inBuffer
    have hleft := h.unsent
    rw [h.bufIdx, h.chunkLength_eq]
    omega
  have hsel : mutatingCommand s = .ok (.spiPp s.seq.curAddr (chunkData s)) := by
    rw [mutatingCommand, h.op]
    exact if_pos hin
  have hcur : BitVec.ofNat 32 (zext s.seq.curAddr) = s.seq.curAddr := BitVec.ofNat_toNat 32 _
  refine ⟨_, hsel, ?_⟩
  rw [chunkFrame, ← h.curAddr, hcur, ← h.bufIdx, ← h.chunkLength_eq, ← h.payload]
  rfl

/-- A chunk and its poll: the last one ends the operation, and any other leaves the machine in ISSUE of the next. -/
theorem WritingChunk.run_chunk {x : Poll} {rest : List Reply} (hx : x.ok)
    (ho : s.oracle = .script (.ok [] :: (x.replies ++ rest))) :
    ∃ q t, run (1 + x.replies.length) s = .next t ∧
      (length ≤ 256 * (k + 1) → Responded 0#3 [] ((s.afterCalls rest
        (.sendOnly (chunkFrame s.params.opcPp m address offset length k) :: x.events s.params)).setSeq q) t) ∧
      (256 * (k + 1) < length → t = (s.afterCalls rest
          (.sendOnly (chunkFrame s.params.opcPp m address offset length k) :: x.events s.params)).setSeq q ∧
        WritingChunk m address offset length (k + 1) t) := by
  obtain ⟨i, hsel, hparts⟩ := h.command
  have hrun := run_unit (.of_write h.resetIn h.op) h.phase hsel hparts hx ho
  let c := s.afterCalls rest (.sendOnly (chunkFrame s.params.opcPp m address offset length k) :: x.events s.params)
  have hstart := h.unsent
  have hfits := h.fits
  have hbuf := h.inBuffer
  have hlen := zext_lt s.latch.bufLen
  obtain ⟨hcur, hidx, hleft, hmore, hlast⟩ := advance_chunk (c := c.setPhase .postPoll) h.op h.chunkLength_eq
    (show zext s.seq.curAddr + _ < 2 ^ 32 by rw [h.curAddr]; omega)
    (show zext s.seq.bufIdx + _ < 2 ^ 32 by rw [h.bufIdx]; omega)
  refine ⟨_, _, hrun, fun hend => hlast (h.bytesLeft.trans (by omega)), fun hgo => ?_⟩
  have hfull : min 256 (length - 256 * k) = 256 := by omega
  have hnext := hmore (show _ < zext s.seq.bytesLeft by rw [h.bytesLeft]; omega)
  have hissue : advance (c.setPhase .postPoll) = c.setSeq { s.seq with
      curAddr := (advance (c.setPhase .postPoll)).seq.curAddr, bufIdx := (advance (c.setPhase .postPoll)).seq.bufIdx
      bytesLeft := (advance (c.setPhase .postPoll)).seq.bytesLeft } :=
    hnext.trans (congrArg (State.setSeq · _) (State.setPhase_self (s := c) h.phase))
  exact ⟨hissue, {
    resetIn := by rw [hissue]; exact h.resetIn
    phase := by rw [hnext]
    op := by rw [hissue]; exact h.op
    payload := by rw [hissue]; exact h.payload
    pageSize := by rw [hissue]; exact h.pageSize
    curAddr := by rw [hcur, hfull, Nat.mul_succ, ← Nat.add_assoc]; exact congrArg (· + 256) h.curAddr
    bufIdx := by rw [hidx, hfull, Nat.mul_succ, ← Nat.add_assoc]; exact congrArg (· + 256) h.bufIdx
    bytesLeft := by rw [hleft, hfull, Nat.mul_succ, ← Nat.sub_sub]; exact congrArg (· - 256) h.bytesLeft
    unsent := hgo
    fits := hfits
    inBuffer := by rw [hissue]; exact hbuf }⟩

end

/-- From chunk `k` on: each chunk that is left, with its poll, and then `OK`. -/
theorem run_chunks {m : Memory} {address offset length : Nat} {more : List Reply} (polls : List Poll) :
    ∀ {k : Nat} {s : State}, WritingChunk m address offset length k s → (∀ x ∈ polls, x.ok) →
    polls.length = (length - 256 * k + 255) / 256 → s.oracle = .script (unitReplies polls ++ more) →
    ∃ q t, run (unitReplies polls).length s = .next t ∧ Responded 0#3 [] ((s.afterCalls more
      (unitEvents s.params (chunkFrame s.params.opcPp m address offset length) k polls)).setSeq q) t := by
  induction polls with
  | nil =>
    intro k s h _ hcount _
    have hstart := h.unsent
    rw [List.length_nil] at hcount
    omega
  | cons x polls ih =>
    intro k s h hok hcount ho
    obtain ⟨hx, hok⟩ := List.forall_mem_cons.1 hok
    rw [List.length_cons] at hcount
    have ho' : s.oracle = .script (.ok [] :: (x.replies ++ (unitReplies polls ++ more))) := by
      simpa [unitReplies] using ho
    have hlen : (unitReplies (x :: polls)).length = 1 + x.replies.length + (unitReplies polls).length := by
      simp [unitReplies, Nat.add_comm, Nat.add_assoc]
    obtain ⟨q, t, hrun, hlast, hmore⟩ := h.run_chunk hx ho'
    rw [hlen, run_add _ _ hrun]
    by_cases hend : length ≤ 256 * (k + 1)
    · obtain rfl : polls = [] := List.eq_nil_of_length_eq_zero (by omega)
      refine ⟨q, t, run_zero t, ?_⟩
      simpa [unitEvents, unitReplies] using hlast hend
    · obtain ⟨rfl, hnext⟩ := hmore (Nat.lt_of_not_le hend)
      obtain ⟨q', t, hrun', hresp⟩ := ih hnext hok (by omega) rfl
      rw [State.setSeq_afterCalls, State.afterCalls_afterCalls] at hresp
      exact ⟨q', t, hrun', hresp⟩

/-- A valid write is in ISSUE of its first chunk behind its opening. -/
theorem writingChunk_opened {s : State} {row : GeomRow} {r : Request} {rest : List Request} {a n off bl : Word} {x : Poll}
    {script : List Reply} (hrow : row.wf = true) (hg : s.geom = Geom.ofRow row) (hr : s.resetIn = none)
    (hin : writeInRange s.geom a n off bl = true) :
    WritingChunk r.payload (zext a) (zext off) (zext n) 0 (writeOpened x script (writeAccepted r rest a n off bl s)) := by
  obtain ⟨hread, hbuf⟩ := readInRange_of_writeInRange hin
  obtain ⟨-, hpos, -⟩ := (readInRange_iff _ _ _).1 hread
  rw [sext_of_nonneg n (Int.le_of_lt hpos)] at hpos
  obtain ⟨-, -, -, hcap⟩ := Geom.sizes row hrow
  rw [← hg] at hcap
  obtain ⟨hend, -⟩ := range_bounds hcap hread
  have hpage : s.geom.pageSize = 256 := hg ▸ rfl
  exact ⟨hr, rfl, rfl, rfl, hpage, rfl, rfl, rfl, Int.ofNat_lt.1 hpos, hend.trans hcap, hbuf⟩

end Sys2Proof.Machine
end

section
open Sys2Proof Sys2Proof.Machine

/-- Settles O52: the accept, the opening, and then the chunks by induction (`run_chunks`). -/
theorem writeSplitsThePayload : Obligations.WriteSplitsThePayload := by
  intro s r rest address length offset bufLen poll0 polls more hi hr hp hc hq hd hin hx hok hcount ho
  obtain ⟨row, -, hrow, hg⟩ := geomLookup_some _ _ _ hi.params (hi.geometry hc)
  let u := writeAccepted r rest address length offset bufLen s
  have hopen := run_write_opening (u := u) hr rfl rfl hx ho
  have hfirst := writingChunk_opened (r := r) (rest := rest) (x := poll0) (script := unitReplies polls ++ more)
    hrow hg hr hin
  obtain ⟨q, t, hrun, hcode, hdata, ht⟩ := run_chunks polls hfirst hok hcount rfl
  refine ⟨t, ?_, by rw [ht], hcode, hdata, by rw [ht]; rfl, by rw [ht]; rfl, by rw [ht]; rfl, ?_⟩
  · rw [Nat.add_assoc, Nat.add_assoc, Nat.add_comm 1, run_succ _ (step_accepts_write hr hp hc hq hd hin),
      ← Nat.add_assoc, run_add _ _ hopen, hrun]
  · rw [ht]
    exact List.append_assoc _ _ _

end

section
/-! PROOFS. The family 60_exceptions.md: a transport call that fails (R194, R199, R200). -/

namespace Sys2Proof.Machine

/-- A command whose one call fails ends in `raiseTransport`, whatever its continuation (R194). -/
theorem exec_command_err {i : Instr} {s : State} {k : CallKind} {tx : List Byte} {f : List Byte → State → State}
    {e : TransportErr} {o : Oracle} (hparts : commandParts s.params i = some (k, tx, f))
    (ha : s.oracle.answer s.params s.freeCtr tx = (.err e, o)) :
    exec i s = .next (raiseTransport e (s.recordCall o (Event.ofCall k tx (.err e)))) :=
  (exec_command i s k tx f hparts).trans (command_err k tx e f s o ha)

end Sys2Proof.Machine
end

section
open Sys2Proof Sys2Proof.Machine

/-- Settles O31: a failed call ends every command alike (`exec_command_err`), and the command's primitive gives the event. -/
theorem transportErrorEndsTheOperation : Obligations.TransportErrorEndsTheOperation := by
  intro s i tx e o hi henc ha
  obtain ⟨k, tx', f, hparts⟩ := commandParts_isSome s.params i hi
  obtain rfl := frame_eq_of_encode hparts henc
  obtain ⟨hresp, herr⟩ := raiseTransport_responded e (s.recordCall o (Event.ofCall k tx' (.err e)))
  refine ⟨_, _, exec_command_err hparts ha, hresp, herr, ?_⟩
  rcases commandParts_kind hparts with ⟨rfl, hxchg⟩ | ⟨rfl, hsend⟩
  · exact ⟨fun _ => rfl, fun hrdsr hread hfast hrdid => absurd hxchg (by simp [hrdsr, hread, hfast, hrdid])⟩
  · refine ⟨fun hxchg => ?_, fun _ _ _ _ => rfl⟩
    rcases hxchg with h | h | h | h <;> simp [h] at hsend

end

section
/-! PROOFS. The family 70_reset_and_hazards.md: reset asserted in any state (R220, R221). -/

open Sys2Proof Sys2Proof.Machine

/-- Settles O12: the step is `applyReset` whatever the phase (`step_reset`), and that is a boot with the parameters and the world outside
the state has, whose fields the `State.boot` lemmas read off. -/
theorem assertedResetAbandonsOperation : Obligations.AssertedResetAbandonsOperation := by
  intro s straps hreset
  refine ⟨applyReset straps s, step_reset s straps hreset, ?_⟩
  simp [applyReset]

end
